-- ==== Sys2Proof/Word.lean ====
section
/-! DEFINITION. The two data widths of the machine, the size of an operand, and the notation of
`00_scope.md` R7 and R8. -/

namespace Sys2Proof

/-- A 16-bit word: a register, an address, an instruction word or an extension word (R5). -/
abbrev Word := BitVec 16

/-- An 8-bit byte, the addressable unit (R60). -/
abbrev Byte := BitVec 8

/-- The size of an operand: `n` = 1 or `n` = 2 bytes (R8, R143). -/
inductive Size where
  | byte
  | word
  deriving DecidableEq, Repr

end Sys2Proof
end

