-- ==== Sys2Proof/Syntax.lean ====
section
/-! DEFINITION. The instructions as syntax: one constructor of `Instr` per row of
`spec/opcode_table.json`, with its operands in the forms of `30_encoding.md` R126. -/

namespace Sys2Proof

/-- The sixteen register numbers (R20): pc, sp, sr, the constant generator, and the twelve
general registers x[4]..x[15], of which `gpr i` is x[4 + i]. -/
inductive Reg where
  | pc
  | sp
  | sr
  | cg
  | gpr (i : Fin 12)
  deriving DecidableEq, Repr

/-- The six constants of the generator (R145). -/
inductive Const where
  | zero
  | one
  | two
  | four
  | eight
  | minusOne
  deriving DecidableEq, Repr

/-- A source operand, or the operand of a Format II instruction: the addressing modes of R144 and
the constants of R145. An extension word is part of the operand. -/
inductive Src where
  | reg (r : Reg)
  | indexed (r : Reg) (x : Word)
  | symbolic (x : Word)
  | absolute (x : Word)
  | indirect (r : Reg)
  | autoinc (r : Reg)
  | immediate (v : Word)
  | const (c : Const)
  deriving DecidableEq, Repr

/-- A destination operand (R154). -/
inductive Dst where
  | reg (r : Reg)
  | indexed (r : Reg) (x : Word)
  | symbolic (x : Word)
  | absolute (x : Word)
  deriving DecidableEq, Repr

/-- The instructions: the 26 of R104, then the 15 reserved rows of the table (R115 to R117), each
with the bits its row leaves free. -/
inductive Instr where
  | mov (n : Size) (src : Src) (dst : Dst)
  | add (n : Size) (src : Src) (dst : Dst)
  | addc (n : Size) (src : Src) (dst : Dst)
  | subc (n : Size) (src : Src) (dst : Dst)
  | sub (n : Size) (src : Src) (dst : Dst)
  | cmp (n : Size) (src : Src) (dst : Dst)
  | bit (n : Size) (src : Src) (dst : Dst)
  | bic (n : Size) (src : Src) (dst : Dst)
  | bis (n : Size) (src : Src) (dst : Dst)
  | xor (n : Size) (src : Src) (dst : Dst)
  | and (n : Size) (src : Src) (dst : Dst)
  | rrc (n : Size) (opd : Src)
  | swpb (opd : Src)
  | rra (n : Size) (opd : Src)
  | sxt (opd : Src)
  | push (n : Size) (opd : Src)
  | call (opd : Src)
  | reti
  | jne (off : BitVec 10)
  | jeq (off : BitVec 10)
  | jnc (off : BitVec 10)
  | jc (off : BitVec 10)
  | jn (off : BitVec 10)
  | jge (off : BitVec 10)
  | jl (off : BitVec 10)
  | jmp (off : BitVec 10)
  | illegal0xxx (low : BitVec 12)
  | illegal14xx (low : BitVec 10)
  | illegal18xx (low : BitVec 11)
  | illegalAxxx (low : BitVec 12)
  | illegalFmt2Op7 (low : BitVec 7)
  | illegalSwpbB (low : BitVec 6)
  | illegalSxtB (low : BitVec 6)
  | illegalCallB (low : BitVec 6)
  | illegalReti1340 (low : BitVec 6)
  | illegalReti1320 (low : BitVec 5)
  | illegalReti1310 (low : BitVec 4)
  | illegalReti1308 (low : BitVec 3)
  | illegalReti1304 (low : BitVec 2)
  | illegalReti1302 (low : BitVec 1)
  | illegalReti1301
  deriving DecidableEq, Repr

end Sys2Proof
end

