-- ==== Sys2Proof/WellFormed.lean ====
section
/-! DEFINITION. Which terms of the syntax are instructions of the hardware: each operand form on
the registers R144, R145 and R154 give it, and no reserved operand (R118). Every instruction of
the hardware is a well-formed term, and each well-formed term is one. -/

namespace Sys2Proof

/-- A register that an indexed or autoincrement operand may name: sp or a general register. With
pc, sr or the constant generator the same fields mean another mode (R144, R145). -/
def Reg.isBase : Reg → Bool
  | .sp => true
  | .gpr _ => true
  | _ => false

/-- The forms of R144 on the registers they stand for. -/
def Src.wf : Src → Bool
  | .reg r => r ≠ .cg
  | .indexed r _ => r.isBase
  | .symbolic _ => true
  | .absolute _ => true
  | .indirect r => r ≠ .sr && r ≠ .cg
  | .autoinc r => r.isBase
  | .immediate _ => true
  | .const _ => true

/-- An operand that RRC, RRA, SWPB and SXT can write back to: no constant and no immediate
(R118(b)). -/
def Src.isWritable : Src → Bool
  | .immediate _ => false
  | .const _ => false
  | _ => true

/-- The forms of R154; an indexed destination on register 3 is reserved (R118(a)). -/
def Dst.wf : Dst → Bool
  | .reg _ => true
  | .indexed r _ => r.isBase
  | .symbolic _ => true
  | .absolute _ => true

/-- The instructions of the hardware, the reserved rows among them (each reserved word is the word
of an instruction that raises the exception). -/
def Instr.wf : Instr → Bool
  | .mov _ s d | .add _ s d | .addc _ s d | .subc _ s d | .sub _ s d | .cmp _ s d => s.wf && d.wf
  | .bit _ s d | .bic _ s d | .bis _ s d | .xor _ s d | .and _ s d => s.wf && d.wf
  | .rrc _ o | .swpb o | .rra _ o | .sxt o => o.wf && o.isWritable
  | .push _ o | .call o => o.wf
  | .reti => true
  | .jne _ | .jeq _ | .jnc _ | .jc _ | .jn _ | .jge _ | .jl _ | .jmp _ => true
  | .illegal0xxx _ | .illegal14xx _ | .illegal18xx _ | .illegalAxxx _ => true
  | .illegalFmt2Op7 _ | .illegalSwpbB _ | .illegalSxtB _ | .illegalCallB _ => true
  | .illegalReti1340 _ | .illegalReti1320 _ | .illegalReti1310 _ | .illegalReti1308 _ => true
  | .illegalReti1304 _ | .illegalReti1302 _ | .illegalReti1301 => true

/-- One of the 15 reserved rows of the opcode table (R115 to R117). -/
def Instr.isReserved : Instr → Bool
  | .mov .. | .add .. | .addc .. | .subc .. | .sub .. | .cmp .. => false
  | .bit .. | .bic .. | .bis .. | .xor .. | .and .. => false
  | .rrc .. | .swpb _ | .rra .. | .sxt _ | .push .. | .call _ | .reti => false
  | .jne _ | .jeq _ | .jnc _ | .jc _ | .jn _ | .jge _ | .jl _ | .jmp _ => false
  | .illegal0xxx _ | .illegal14xx _ | .illegal18xx _ | .illegalAxxx _ => true
  | .illegalFmt2Op7 _ | .illegalSwpbB _ | .illegalSxtB _ | .illegalCallB _ => true
  | .illegalReti1340 _ | .illegalReti1320 _ | .illegalReti1310 _ | .illegalReti1308 _ => true
  | .illegalReti1304 _ | .illegalReti1302 _ | .illegalReti1301 => true

end Sys2Proof
end

