-- ==== Sys2Proof/Decode.lean ====
section
/-! DEFINITION. The decoder, total on any words and any bytes, and the encoder, both from the bit
positions of `30_encoding.md` R101 to R107 and the operand pairs of R126, R145 and R154. An
instruction is its first word and the extension words that follow it, source first (R100, R109). -/

namespace Sys2Proof

/-- Why no instruction is read. -/
inductive DecodeError where
  /-- The stream is empty. -/
  | noWord
  /-- The stream ends before an extension word of the instruction that begins with `w`. -/
  | missingExtension (w : Word)
  /-- R118(a): Format I with Ad = 1 and rd = 3. The step raises IllegalInstruction. -/
  | reservedDestination (w : Word)
  /-- R118(b): RRC, RRA, SWPB or SXT on a constant or an immediate. The step raises
  IllegalInstruction. -/
  | reservedOperand (w : Word)
  deriving DecidableEq, Repr

/-! ## Fields -/

/-- `w[k]` (R7). -/
def bitOf (w : Word) (k : Nat) : Bool := w.getLsbD k

/-- The register a 4-bit field selects (R20). -/
def Reg.ofField (f : BitVec 4) : Reg :=
  if h : 4 ≤ f.toNat then .gpr ⟨f.toNat - 4, by omega⟩
  else if f.toNat = 0 then .pc
  else if f.toNat = 1 then .sp
  else if f.toNat = 2 then .sr
  else .cg

/-- The 4-bit field of a register (R20). -/
def Reg.field : Reg → BitVec 4
  | .pc => 0#4
  | .sp => 1#4
  | .sr => 2#4
  | .cg => 3#4
  | .gpr i => BitVec.ofNat 4 (i.val + 4)

/-- The BW bit: 1 for a byte operation (R101, R102). -/
def Size.bw : Size → BitVec 1
  | .byte => 1#1
  | .word => 0#1

/-- The size the BW bit selects. -/
def Size.ofBW (b : Bool) : Size := if b then .byte else .word

/-- The As field of a constant (R145). -/
def Const.as : Const → BitVec 2
  | .zero => 0#2
  | .one => 1#2
  | .two => 2#2
  | .minusOne => 3#2
  | .four => 2#2
  | .eight => 3#2

/-- The register of a constant (R145). -/
def Const.reg : Const → Reg
  | .zero | .one | .two | .minusOne => .cg
  | .four | .eight => .sr

/-- The As field of a source operand (R126). -/
def Src.as : Src → BitVec 2
  | .reg _ => 0#2
  | .indexed _ _ | .symbolic _ | .absolute _ => 1#2
  | .indirect _ => 2#2
  | .autoinc _ | .immediate _ => 3#2
  | .const c => c.as

/-- The register field of a source operand (R126). -/
def Src.field : Src → BitVec 4
  | .reg r | .indexed r _ | .indirect r | .autoinc r => r.field
  | .symbolic _ | .immediate _ => Reg.pc.field
  | .absolute _ => Reg.sr.field
  | .const c => c.reg.field

/-- The extension word of a source operand, if it has one (R109, R126). -/
def Src.ext : Src → List Word
  | .indexed _ x | .symbolic x | .absolute x | .immediate x => [x]
  | .reg _ | .indirect _ | .autoinc _ | .const _ => []

/-- The Ad field of a destination operand (R126). -/
def Dst.ad : Dst → BitVec 1
  | .reg _ => 0#1
  | .indexed _ _ | .symbolic _ | .absolute _ => 1#1

/-- The register field of a destination operand (R126). -/
def Dst.field : Dst → BitVec 4
  | .reg r | .indexed r _ => r.field
  | .symbolic _ => Reg.pc.field
  | .absolute _ => Reg.sr.field

/-- The extension word of a destination operand, if it has one (R109, R126). -/
def Dst.ext : Dst → List Word
  | .reg _ => []
  | .indexed _ x | .symbolic x | .absolute x => [x]

/-- R118(b), on the fields: the operand is a constant or an immediate. -/
def operandReserved (as : BitVec 2) (r : BitVec 4) : Bool :=
  r == 3#4 || (r == 2#4 && (as == 2#2 || as == 3#2)) || (r == 0#4 && as == 3#2)

/-- R118(a), on the fields: an indexed destination on the constant generator. -/
def destinationReserved (ad : Bool) (rd : BitVec 4) : Bool :=
  ad && rd == 3#4

/-! ## The decoder -/

/-- Take the extension word of an operand from the stream (R141). -/
def takeExtension {α : Type} (w : Word) (ws : List Word) (mk : Word → α) :
    Except DecodeError (α × List Word) :=
  match ws with
  | [] => .error (.missingExtension w)
  | x :: rest => .ok (mk x, rest)

/-- The source operand the pair (As, r) selects (R144, R145). -/
def decodeSrc (w : Word) (as : BitVec 2) (r : BitVec 4) (ws : List Word) :
    Except DecodeError (Src × List Word) :=
  match as.getLsbD 1, as.getLsbD 0, Reg.ofField r with
  | false, false, .cg => .ok (.const .zero, ws)
  | false, true, .cg => .ok (.const .one, ws)
  | true, false, .cg => .ok (.const .two, ws)
  | true, true, .cg => .ok (.const .minusOne, ws)
  | true, false, .sr => .ok (.const .four, ws)
  | true, true, .sr => .ok (.const .eight, ws)
  | false, false, q => .ok (.reg q, ws)
  | false, true, .pc => takeExtension w ws .symbolic
  | false, true, .sr => takeExtension w ws .absolute
  | false, true, q => takeExtension w ws (.indexed q)
  | true, false, q => .ok (.indirect q, ws)
  | true, true, .pc => takeExtension w ws .immediate
  | true, true, q => .ok (.autoinc q, ws)

/-- The destination operand the pair (Ad, rd) selects (R154). -/
def decodeDst (w : Word) (ad : Bool) (rd : BitVec 4) (ws : List Word) :
    Except DecodeError (Dst × List Word) :=
  match ad, Reg.ofField rd with
  | false, q => .ok (.reg q, ws)
  | true, .pc => takeExtension w ws .symbolic
  | true, .sr => takeExtension w ws .absolute
  | true, q => takeExtension w ws (.indexed q)

/-- Format I (R101): source and destination operands, source extension word first (R109). -/
def decodeFormatI (mk : Size → Src → Dst → Instr) (w : Word) (ws : List Word) :
    Except DecodeError (Instr × List Word) :=
  if destinationReserved (bitOf w 7) (w.extractLsb' 0 4) then .error (.reservedDestination w)
  else
    match decodeSrc w (w.extractLsb' 4 2) (w.extractLsb' 8 4) ws with
    | .error e => .error e
    | .ok (src, ws1) =>
      match decodeDst w (bitOf w 7) (w.extractLsb' 0 4) ws1 with
      | .error e => .error e
      | .ok (dst, ws2) => .ok (mk (Size.ofBW (bitOf w 6)) src dst, ws2)

/-- A Format II instruction that takes every operand: PUSH and CALL (R102, R118). -/
def decodeOperand (mk : Src → Instr) (w : Word) (ws : List Word) :
    Except DecodeError (Instr × List Word) :=
  match decodeSrc w (w.extractLsb' 4 2) (w.extractLsb' 0 4) ws with
  | .error e => .error e
  | .ok (opd, ws1) => .ok (mk opd, ws1)

/-- A Format II instruction that writes its operand back: RRC, RRA, SWPB, SXT (R102, R118(b)). -/
def decodeModify (mk : Src → Instr) (w : Word) (ws : List Word) :
    Except DecodeError (Instr × List Word) :=
  if operandReserved (w.extractLsb' 4 2) (w.extractLsb' 0 4) then .error (.reservedOperand w)
  else decodeOperand mk w ws

/-- RETI is the one word 0x1300; the words up to 0x137F are reserved (R117(c)), each in the table's
row of its highest set bit. -/
def decodeReti (w : Word) : Instr :=
  if bitOf w 6 then .illegalReti1340 (w.extractLsb' 0 6)
  else if bitOf w 5 then .illegalReti1320 (w.extractLsb' 0 5)
  else if bitOf w 4 then .illegalReti1310 (w.extractLsb' 0 4)
  else if bitOf w 3 then .illegalReti1308 (w.extractLsb' 0 3)
  else if bitOf w 2 then .illegalReti1304 (w.extractLsb' 0 2)
  else if bitOf w 1 then .illegalReti1302 (w.extractLsb' 0 1)
  else if bitOf w 0 then .illegalReti1301
  else .reti

/-- Format II (R102, R106, R117): the words 0x1000 to 0x13FF, by op = w[9:7] (the last alternative
is op = 0b111). -/
def decodeFormatII (w : Word) (ws : List Word) : Except DecodeError (Instr × List Word) :=
  match (w.extractLsb' 7 3).toNat with
  | 0 => decodeModify (.rrc (Size.ofBW (bitOf w 6))) w ws
  | 1 => if bitOf w 6 then .ok (.illegalSwpbB (w.extractLsb' 0 6), ws) else decodeModify .swpb w ws
  | 2 => decodeModify (.rra (Size.ofBW (bitOf w 6))) w ws
  | 3 => if bitOf w 6 then .ok (.illegalSxtB (w.extractLsb' 0 6), ws) else decodeModify .sxt w ws
  | 4 => decodeOperand (.push (Size.ofBW (bitOf w 6))) w ws
  | 5 => if bitOf w 6 then .ok (.illegalCallB (w.extractLsb' 0 6), ws) else decodeOperand .call w ws
  | 6 => .ok (decodeReti w, ws)
  | _ => .ok (.illegalFmt2Op7 (w.extractLsb' 0 7), ws)

/-- The words 0x1000 to 0x1FFF (R104, R115): Format II where w[15:10] = 0b000100, else reserved. -/
def decodeOne (w : Word) (ws : List Word) : Except DecodeError (Instr × List Word) :=
  if bitOf w 11 then .ok (.illegal18xx (w.extractLsb' 0 11), ws)
  else if bitOf w 10 then .ok (.illegal14xx (w.extractLsb' 0 10), ws)
  else decodeFormatII w ws

/-- The jumps (R103, R107), by cond = w[12:10] (the last alternative is cond = 0b111). -/
def decodeJump (w : Word) : Instr :=
  match (w.extractLsb' 10 3).toNat with
  | 0 => .jne (w.extractLsb' 0 10)
  | 1 => .jeq (w.extractLsb' 0 10)
  | 2 => .jnc (w.extractLsb' 0 10)
  | 3 => .jc (w.extractLsb' 0 10)
  | 4 => .jn (w.extractLsb' 0 10)
  | 5 => .jge (w.extractLsb' 0 10)
  | 6 => .jl (w.extractLsb' 0 10)
  | _ => .jmp (w.extractLsb' 0 10)

/-- The decoder (R104): one instruction and the words after it. By w[15:12] (the last alternative
is 0xF). -/
def decode (stream : List Word) : Except DecodeError (Instr × List Word) :=
  match stream with
  | [] => .error .noWord
  | w :: ws =>
    match (w.extractLsb' 12 4).toNat with
    | 0 => .ok (.illegal0xxx (w.extractLsb' 0 12), ws)
    | 1 => decodeOne w ws
    | 2 => .ok (decodeJump w, ws)
    | 3 => .ok (decodeJump w, ws)
    | 4 => decodeFormatI .mov w ws
    | 5 => decodeFormatI .add w ws
    | 6 => decodeFormatI .addc w ws
    | 7 => decodeFormatI .subc w ws
    | 8 => decodeFormatI .sub w ws
    | 9 => decodeFormatI .cmp w ws
    | 10 => .ok (.illegalAxxx (w.extractLsb' 0 12), ws)
    | 11 => decodeFormatI .bit w ws
    | 12 => decodeFormatI .bic w ws
    | 13 => decodeFormatI .bis w ws
    | 14 => decodeFormatI .xor w ws
    | _ => decodeFormatI .and w ws

/-- Bytes of the instruction stream, lowest address first, as little-endian words (R68). A last odd
byte is no word. -/
def wordsOfBytes : List Byte → List Word
  | lo :: hi :: rest => (hi ++ lo) :: wordsOfBytes rest
  | _ => []

/-- The decoder on bytes as memory holds them. -/
def decodeBytes (bytes : List Byte) : Except DecodeError (Instr × List Word) :=
  decode (wordsOfBytes bytes)

/-! ## The encoder -/

/-- The word of a Format I instruction (R101). -/
def wordI (op : BitVec 4) (n : Size) (src : Src) (dst : Dst) : Word :=
  op ++ src.field ++ dst.ad ++ n.bw ++ src.as ++ dst.field

/-- The word of a Format II instruction (R102). -/
def wordII (op : BitVec 3) (n : Size) (opd : Src) : Word :=
  0b000100#6 ++ op ++ n.bw ++ opd.as ++ opd.field

/-- The word of a jump (R103). -/
def wordJ (cond : BitVec 3) (off : BitVec 10) : Word :=
  0b001#3 ++ cond ++ off

/-- The instruction word, with the opcode numbers of R105 to R107 and the patterns of the reserved
rows of the table. -/
def firstWord : Instr → Word
  | .mov n s d => wordI 0x4#4 n s d
  | .add n s d => wordI 0x5#4 n s d
  | .addc n s d => wordI 0x6#4 n s d
  | .subc n s d => wordI 0x7#4 n s d
  | .sub n s d => wordI 0x8#4 n s d
  | .cmp n s d => wordI 0x9#4 n s d
  | .bit n s d => wordI 0xB#4 n s d
  | .bic n s d => wordI 0xC#4 n s d
  | .bis n s d => wordI 0xD#4 n s d
  | .xor n s d => wordI 0xE#4 n s d
  | .and n s d => wordI 0xF#4 n s d
  | .rrc n o => wordII 0b000#3 n o
  | .swpb o => wordII 0b001#3 .word o
  | .rra n o => wordII 0b010#3 n o
  | .sxt o => wordII 0b011#3 .word o
  | .push n o => wordII 0b100#3 n o
  | .call o => wordII 0b101#3 .word o
  | .reti => 0x1300#16
  | .jne off => wordJ 0b000#3 off
  | .jeq off => wordJ 0b001#3 off
  | .jnc off => wordJ 0b010#3 off
  | .jc off => wordJ 0b011#3 off
  | .jn off => wordJ 0b100#3 off
  | .jge off => wordJ 0b101#3 off
  | .jl off => wordJ 0b110#3 off
  | .jmp off => wordJ 0b111#3 off
  | .illegal0xxx low => 0b0000#4 ++ low
  | .illegal14xx low => 0b000101#6 ++ low
  | .illegal18xx low => 0b00011#5 ++ low
  | .illegalAxxx low => 0b1010#4 ++ low
  | .illegalFmt2Op7 low => 0b000100111#9 ++ low
  | .illegalSwpbB low => 0b0001000011#10 ++ low
  | .illegalSxtB low => 0b0001000111#10 ++ low
  | .illegalCallB low => 0b0001001011#10 ++ low
  | .illegalReti1340 low => 0b0001001101#10 ++ low
  | .illegalReti1320 low => 0b00010011001#11 ++ low
  | .illegalReti1310 low => 0b000100110001#12 ++ low
  | .illegalReti1308 low => 0b0001001100001#13 ++ low
  | .illegalReti1304 low => 0b00010011000001#14 ++ low
  | .illegalReti1302 low => 0b000100110000001#15 ++ low
  | .illegalReti1301 => 0x1301#16

/-- The extension words, source first (R109). -/
def extensionWords : Instr → List Word
  | .mov _ s d | .add _ s d | .addc _ s d | .subc _ s d | .sub _ s d | .cmp _ s d => s.ext ++ d.ext
  | .bit _ s d | .bic _ s d | .bis _ s d | .xor _ s d | .and _ s d => s.ext ++ d.ext
  | .rrc _ o | .swpb o | .rra _ o | .sxt o | .push _ o | .call o => o.ext
  | .reti => []
  | .jne _ | .jeq _ | .jnc _ | .jc _ | .jn _ | .jge _ | .jl _ | .jmp _ => []
  | .illegal0xxx _ | .illegal14xx _ | .illegal18xx _ | .illegalAxxx _ => []
  | .illegalFmt2Op7 _ | .illegalSwpbB _ | .illegalSxtB _ | .illegalCallB _ => []
  | .illegalReti1340 _ | .illegalReti1320 _ | .illegalReti1310 _ | .illegalReti1308 _ => []
  | .illegalReti1304 _ | .illegalReti1302 _ | .illegalReti1301 => []

/-- The encoder: the words of an instruction as they follow each other in memory (R100). -/
def encode (i : Instr) : List Word :=
  firstWord i :: extensionWords i

/-- A word as memory holds it: low byte first (R68). -/
def bytesOfWord (w : Word) : List Byte :=
  [w.extractLsb' 0 8, w.extractLsb' 8 8]

/-- The bytes of an instruction, lowest address first. -/
def encodeBytes (i : Instr) : List Byte :=
  (encode i).flatMap bytesOfWord

/-! ## The host's numbering of an instruction's bits -/

/-- The three words of an instruction whose bits are `w`, bit 0 the least significant bit of the
first word; the bits from `nbits` up are 0 (operand words of zeros). -/
def tableWords (nbits w : Nat) : List Word :=
  let v := w % 2 ^ nbits
  [BitVec.ofNat 16 v, BitVec.ofNat 16 (v / 2 ^ 16), BitVec.ofNat 16 (v / 2 ^ 32)]

/-- What the decoder reads from those words laid out as memory holds them. -/
def decodeTableWord (nbits w : Nat) : Option Instr :=
  match decodeBytes ((tableWords nbits w).flatMap bytesOfWord) with
  | .ok (i, _) => some i
  | .error _ => none

end Sys2Proof
end

