-- ==== Sys2Proof/Config.lean ====
section
/-! DEFINITION. The fixed parameters of `00_scope.md` R5, and the open parameters of R6 that are
fixed for one machine: the addresses of the mapped registers, the GPIO port number and the
cycle-cost table. A `Config` is plain data; State holds one, and no step changes it, so that a
statement about every state is a statement about every choice of them. -/

namespace Sys2Proof

/-- `FW_BASE`, the firmware load address (R5, R343). -/
def fwBase : Word := 0xC000#16

/-- `BOOT_BASE`, the bootloader stub's address (R5, R344). -/
def bootBase : Word := 0x0C00#16

/-- `TICK_CYCLES`: every executed instruction ticks the peripherals by 4 (R5, R290). -/
def tickCycles : Nat := 4

/-- One row of the Format I cycle table of R356, by destination: a register, the program counter,
memory. -/
structure CyclesI where
  toReg : Nat
  toPc  : Nat
  toMem : Nat
  deriving DecidableEq, Repr

/-- One row of the Format II cycle table of R356: the four read-modify-write instructions, PUSH,
CALL. -/
structure CyclesII where
  modify : Nat
  push   : Nat
  call   : Nat
  deriving DecidableEq, Repr

/-- The "static table lookup keyed by addressing mode combination" of R356. The document does not
give the table: it is a parameter (log 8). Only `cycle_count` depends on it. -/
structure CycleTable where
  regI        : CyclesI
  indirectI   : CyclesI
  autoincI    : CyclesI
  immediateI  : CyclesI
  indexedI    : CyclesI
  regII       : CyclesII
  indirectII  : CyclesII
  autoincII   : CyclesII
  immediateII : CyclesII
  indexedII   : CyclesII
  reti        : Nat
  jump        : Nat
  deriving DecidableEq, Repr

/-- The family's table as R356 prints it. UNVERIFIED: whether the emulator's table equals it is
unknown (log 8). R356 marks the read-modify-write cell of an immediate operand "reserved here": no
instruction reads that 0. -/
def CycleTable.family : CycleTable where
  regI        := ⟨1, 2, 4⟩
  indirectI   := ⟨2, 2, 5⟩
  autoincI    := ⟨2, 3, 5⟩
  immediateI  := ⟨2, 3, 5⟩
  indexedI    := ⟨3, 3, 6⟩
  regII       := ⟨1, 3, 4⟩
  indirectII  := ⟨3, 4, 4⟩
  autoincII   := ⟨3, 5, 5⟩
  immediateII := ⟨0, 4, 5⟩
  indexedII   := ⟨4, 5, 5⟩
  reti        := 5
  jump        := 2

/-- The open parameters that are fixed for one machine (R6): `ADDR_<name>` of the twelve mapped
registers (R75), `GPIO_PORT_NUMBER` (R302), the cycle-cost table (R356). -/
structure Config where
  addrIFG2      : Word
  addrP1IN      : Word
  addrP1OUT     : Word
  addrP1DIR     : Word
  addrDCOCTL    : Word
  addrBCSCTL1   : Word
  addrBCSCTL2   : Word
  addrUCA0RXBUF : Word
  addrUCA0TXBUF : Word
  addrTACTL     : Word
  addrTAR       : Word
  addrTACCR0    : Word
  gpioPort      : Nat
  cycles        : CycleTable
  deriving DecidableEq, Repr

/-- The default addresses of R75 and the default port number of R6. -/
def Config.default : Config where
  addrIFG2      := 0x0003#16
  addrP1IN      := 0x0020#16
  addrP1OUT     := 0x0021#16
  addrP1DIR     := 0x0022#16
  addrDCOCTL    := 0x0056#16
  addrBCSCTL1   := 0x0057#16
  addrBCSCTL2   := 0x0058#16
  addrUCA0RXBUF := 0x0066#16
  addrUCA0TXBUF := 0x0067#16
  addrTACTL     := 0x0160#16
  addrTAR       := 0x0170#16
  addrTACCR0    := 0x0172#16
  gpioPort      := 1
  cycles        := CycleTable.family

end Sys2Proof
end

