-- ==== Sys2Proof/Machine/State.lean ====
section
/-! DEFINITION. The state of the machine (`10_state.md`), module by module, as plain data; the
reasons a step can stop; and the state after reset (R45, R340). -/

namespace Sys2Proof.Machine

/-- Backing storage (R29): the listed bytes, addresses strictly rising, none equal to what an
unlisted address reads as (`Memory.wf`). -/
abbrev Memory := List Host.Cell

/-- Clock module state (R30). -/
structure Clock where
  dcoctl    : Byte
  bcsctl1   : Byte
  bcsctl2   : Byte
  clkCycles : Nat
  deriving DecidableEq, Repr

/-- Timer module state (R31). -/
structure Timer where
  tactl  : Word
  tar    : Word
  taccr0 : Word
  taOut  : Bool
  deriving DecidableEq, Repr

/-- GPIO port module state (R32), and `pinIn`, the levels driven from outside (`PIN_IN`, R6, R304,
log 7). P1IN is computed and holds no state. -/
structure Gpio where
  p1dir : Byte
  p1out : Byte
  pinIn : Byte
  deriving DecidableEq, Repr

/-- Serial module state (R33). `ifg2` is the stored bits 7:2 of IFG2. -/
structure Serial where
  uca0txbuf : Byte
  ifg2      : BitVec 6
  deriving DecidableEq, Repr

/-- The records of the output trace (R38). -/
inductive Event where
  | gpio (port : Nat) (pin : Fin 8) (dir value : Bool) (pc : Word)
  | serialTx (byte : Byte) (pc : Word)
  deriving DecidableEq, Repr

/-- The run state (R34, R280). -/
inductive RunState where
  | halted
  | running
  deriving DecidableEq, Repr

/-- A breakpoint record (R35). -/
structure Breakpoint where
  address : Word
  enabled : Bool
  deriving DecidableEq, Repr

/-- The pair an illegal instruction reports to the host (R270, R271). -/
structure IllegalReport where
  ia : Word
  w  : Word
  deriving DecidableEq, Repr

/-- Run control (R34 to R36, R40). `breakpoints` is the set of R35 in rising order of address;
`report` is the pair reported to the host, held while the block stands halted by an illegal
instruction (log 3). -/
structure RunControl where
  runState    : RunState
  breakpoints : List Breakpoint
  stepPending : Bool
  haltRequest : Bool
  report      : Option IllegalReport
  cycleCount  : Nat
  deriving DecidableEq, Repr

/-- The state of the block. `gpr` is x[4]..x[15]; x[3] holds no state (R28). `cfg` holds the open
parameters of R6 that are fixed for one machine; no step changes it. -/
structure State where
  pc           : Word
  sp           : Word
  sr           : Word
  gpr          : Vector Word 12
  mem          : Memory
  clock        : Clock
  timer        : Timer
  gpio         : Gpio
  serial       : Serial
  events       : List Event
  serialStream : List Byte
  ctl          : RunControl
  cfg          : Config
  deriving DecidableEq, Repr

/-- Why the machine stops with a fault. -/
inductive Fault where
  /-- Raised by `step` of a block that stands halted with an illegal instruction's report: the
  outcome R9 and U19 call a fault. The exception itself is a next state (R270, log 3). Safe. -/
  | illegalInstruction (ia w : Word)
  deriving DecidableEq, Repr

/-- Why there is no next state and no fault. -/
inductive Refusal where
  /-- Raised by an arm of `exec` for an instruction without a meaning; no arm of this model raises
  it. Safe. -/
  | notModelled (mnemonic : String)
  /-- Raised by `step` of a halted block without a report: R9's "no step (the block is halted and
  waits for the host)". Safe. -/
  | haltedAwaitingHost
  deriving DecidableEq, Repr

/-- Run control at reset (R45). -/
def RunControl.reset : RunControl where
  runState    := .halted
  breakpoints := []
  stepPending := false
  haltRequest := false
  report      := none
  cycleCount  := 0

/-- The state after reset (R340) of a machine with the parameters `cfg`, the register values
`regInit` (`REG_INIT`: x[1], then x[4]..x[15]), the memory `mem` that the two images and `MEM_INIT`
leave, and the pin levels `pins`. -/
def State.resetWith (cfg : Config) (spInit : Word) (gprInit : Vector Word 12) (mem : Memory)
    (pins : Byte) : State where
  pc           := fwBase
  sp           := spInit
  sr           := 0#16
  gpr          := gprInit
  mem          := mem
  clock        := ⟨0#8, 0#8, 0#8, 0⟩
  timer        := ⟨0#16, 0#16, 0#16, false⟩
  gpio         := ⟨0#8, 0#8, pins⟩
  serial       := ⟨0#8, 0#6⟩
  events       := []
  serialStream := []
  ctl          := RunControl.reset
  cfg          := cfg

/-- The machine right after reset, with the values the model names where the spec leaves them open
(DESIGN CHOICE: sp and x[4]..x[15] hold 0, log 2; memory lists nothing, log 1; default addresses and
pins low, R6). -/
def State.reset : State :=
  State.resetWith Config.default 0#16 (Vector.replicate 12 0#16) [] 0#8

end Sys2Proof.Machine
end

