-- ==== Sys2Proof/Machine/Peripherals.lean ====
section
/-! DEFINITION. The four peripheral modules: which byte address belongs to which register lane
(`20_memory.md` R62, R75, R76), the read and write handlers, and the ticks (`60_exceptions.md`
R290 to R312). -/

namespace Sys2Proof.Machine

/-- The byte lanes of the mapped registers (R75, R76): nine 8-bit registers, and the low and high
lane of three 16-bit registers. -/
inductive Lane where
  | ifg2
  | p1in
  | p1out
  | p1dir
  | dcoctl
  | bcsctl1
  | bcsctl2
  | uca0rxbuf
  | uca0txbuf
  | tactlLow
  | tactlHigh
  | tarLow
  | tarHigh
  | taccr0Low
  | taccr0High
  deriving DecidableEq, Repr

/-- The byte address of each lane (R75); the high lane stands one above the low one (R76). -/
def laneTable (c : Config) : List (Word × Lane) :=
  [(c.addrIFG2, .ifg2), (c.addrP1IN, .p1in), (c.addrP1OUT, .p1out), (c.addrP1DIR, .p1dir),
   (c.addrDCOCTL, .dcoctl), (c.addrBCSCTL1, .bcsctl1), (c.addrBCSCTL2, .bcsctl2),
   (c.addrUCA0RXBUF, .uca0rxbuf), (c.addrUCA0TXBUF, .uca0txbuf),
   (c.addrTACTL, .tactlLow), (c.addrTACTL + 1#16, .tactlHigh),
   (c.addrTAR, .tarLow), (c.addrTAR + 1#16, .tarHigh),
   (c.addrTACCR0, .taccr0Low), (c.addrTACCR0 + 1#16, .taccr0High)]

/-- The lane mapped at an address, if any (R62). -/
def laneAt (c : Config) (a : Word) : Option Lane :=
  (laneTable c).lookup a

/-- The parameter sets U10 accepts: no two lanes share an address, a 16-bit register stands at an
even address, and every mapped address lies below 0x0C00. -/
def configOk (c : Config) : Bool :=
  decide ((laneTable c).map Prod.fst).Nodup
    && (c.addrTACTL &&& 1#16) == 0#16 && (c.addrTAR &&& 1#16) == 0#16
    && (c.addrTACCR0 &&& 1#16) == 0#16
    && (laneTable c).all fun p => decide (p.1.toNat < bootBase.toNat)

/-- The low byte of a word. -/
def lowByte (v : Word) : Byte := v.extractLsb' 0 8

/-- The high byte of a word. -/
def highByte (v : Word) : Byte := v.extractLsb' 8 8

/-- A word from its high and low byte. -/
def mkWord (hi lo : Byte) : Word := hi ++ lo

/-- Read of P1IN (R304): the output latch of an output pin, the outside level of an input pin. -/
def Gpio.p1in (g : Gpio) : Byte := (g.p1out &&& g.p1dir) ||| (g.pinIn &&& ~~~g.p1dir)

/-- Read of IFG2 (R33, R75): the stored bits, then 1 (transmitter ready), then 0 (no byte
received). -/
def Serial.readIFG2 (p : Serial) : Byte := p.ifg2 ++ 0b10#2

/-- The read handlers (R75). No read has a side effect (R74). -/
def periphRead (l : Lane) (s : State) : Byte :=
  match l with
  | .ifg2 => s.serial.readIFG2
  | .p1in => s.gpio.p1in
  | .p1out => s.gpio.p1out
  | .p1dir => s.gpio.p1dir
  | .dcoctl => s.clock.dcoctl
  | .bcsctl1 => s.clock.bcsctl1
  | .bcsctl2 => s.clock.bcsctl2
  | .uca0rxbuf => 0#8
  | .uca0txbuf => s.serial.uca0txbuf
  | .tactlLow => lowByte s.timer.tactl
  | .tactlHigh => highByte s.timer.tactl
  | .tarLow => lowByte s.timer.tar
  | .tarHigh => highByte s.timer.tar
  | .taccr0Low => lowByte s.timer.taccr0
  | .taccr0High => highByte s.timer.taccr0

/-- The events of a write of `new` to P1OUT (R303): one per pin whose bit changes, in ascending
pin order, for pins of either direction, with the address of the writing instruction (R312). -/
def pinEvents (port : Nat) (dir old new : Byte) (ia : Word) : List Event :=
  [0, 1, 2, 3, 4, 5, 6, 7].filterMap fun i : Fin 8 =>
    if new.getLsbD i != old.getLsbD i
    then some (.gpio port i (dir.getLsbD i) (new.getLsbD i) ia)
    else none

/-- Write of P1OUT (R303). -/
def writeP1OUT (ia : Word) (v : Byte) (s : State) : State :=
  { s with
    gpio := { s.gpio with p1out := v }
    events := s.events ++ pinEvents s.cfg.gpioPort s.gpio.p1dir s.gpio.p1out v ia }

/-- Write of UCA0TXBUF (R308): every write transmits, also a repeated value. -/
def writeUCA0TXBUF (ia : Word) (v : Byte) (s : State) : State :=
  { s with
    serial := { s.serial with uca0txbuf := v }
    events := s.events ++ [.serialTx v ia]
    serialStream := s.serialStream ++ [v] }

/-- The write handlers (R75): `ia` is the address of the writing instruction (R312). Writes to the
read-only registers and to IFG2 bits 1:0 are dropped (R292). -/
def periphWrite (ia : Word) (l : Lane) (v : Byte) (s : State) : State :=
  match l with
  | .ifg2 => { s with serial := { s.serial with ifg2 := v.extractLsb' 2 6 } }
  | .p1in => s
  | .p1out => writeP1OUT ia v s
  | .p1dir => { s with gpio := { s.gpio with p1dir := v } }
  | .dcoctl => { s with clock := { s.clock with dcoctl := v } }
  | .bcsctl1 => { s with clock := { s.clock with bcsctl1 := v } }
  | .bcsctl2 => { s with clock := { s.clock with bcsctl2 := v } }
  | .uca0rxbuf => s
  | .uca0txbuf => writeUCA0TXBUF ia v s
  | .tactlLow => { s with timer := { s.timer with tactl := mkWord (highByte s.timer.tactl) v } }
  | .tactlHigh => { s with timer := { s.timer with tactl := mkWord v (lowByte s.timer.tactl) } }
  | .tarLow => { s with timer := { s.timer with tar := mkWord (highByte s.timer.tar) v } }
  | .tarHigh => { s with timer := { s.timer with tar := mkWord v (lowByte s.timer.tar) } }
  | .taccr0Low => { s with timer := { s.timer with taccr0 := mkWord (highByte s.timer.taccr0) v } }
  | .taccr0High => { s with timer := { s.timer with taccr0 := mkWord v (lowByte s.timer.taccr0) } }

/-! ## The clock module's fields -/

/-- The clock-source selection SELM of BCSCTL2 (R30): "tracked", that is stored and readable; no
rule reads it (R294). -/
def Clock.selm (c : Clock) : BitVec 2 := c.bcsctl2.extractLsb' 6 2

/-- The divider 2^DIVM of BCSCTL2 (R30): tracked likewise (R294). -/
def Clock.divider (c : Clock) : Nat := 2 ^ (c.bcsctl2.extractLsb' 4 2).toNat

/-! ## The ticks -/

/-- R294. -/
def clockTick (e : Nat) (c : Clock) : Clock := { c with clkCycles := c.clkCycles + e }

/-- The mode control field MC of TACTL (R31). -/
def Timer.mc (t : Timer) : BitVec 2 := t.tactl.extractLsb' 4 2

/-- The period (R296): 0x10000 in the continuous mode, else TACCR0; MC = 11 acts as 01. -/
def Timer.period (t : Timer) : Nat := if t.mc = 0b10#2 then 0x10000 else t.taccr0.toNat

/-- The overflow of R296: the remainder stays in TAR, the output toggles, and TAIE gates TAIFG
(R298, R299). `c` is the counter after the elapsed amount. -/
def Timer.overflow (c : Nat) (t : Timer) : Timer :=
  { t with
    tar := BitVec.ofNat 16 (c - t.period)
    taOut := !t.taOut
    tactl := if t.tactl.getLsbD 1 then t.tactl ||| 1#16 else t.tactl }

/-- R296. A stopped timer and a timer of period 0 do not count; at most one overflow a tick. -/
def timerTick (e : Nat) (t : Timer) : Timer :=
  if t.mc = 0b00#2 then t
  else if t.period = 0 then t
  else if t.period ≤ t.tar.toNat + e then t.overflow (t.tar.toNat + e)
  else { t with tar := BitVec.ofNat 16 (t.tar.toNat + e) }

/-- R305: the GPIO tick changes nothing. -/
def gpioTick (_e : Nat) (g : Gpio) : Gpio := g

/-- R310: the serial tick changes nothing. -/
def serialTick (_e : Nat) (p : Serial) : Serial := p

/-- R290: the four modules are ticked once each. -/
def tickAll (e : Nat) (s : State) : State :=
  { s with
    clock := clockTick e s.clock
    timer := timerTick e s.timer
    gpio := gpioTick e s.gpio
    serial := serialTick e s.serial }

end Sys2Proof.Machine
end

