-- ==== Sys2Proof/Machine/Ops.lean ====
section
/-! DEFINITION. The named operations over memory and registers: backing storage, the four access
primitives of `20_memory.md`, the register file, the stack, and taking the exception. -/

namespace Sys2Proof.Machine

/-! ## Backing storage -/

/-- What an unlisted address reads as. DESIGN CHOICE, unsafe (log 1): the spec leaves the byte open
(`MEM_INIT`, R45). -/
def unlistedByte : Byte := 0x00#8

/-- The byte of backing storage at an address. -/
def readCell (m : Memory) (a : Nat) : Byte :=
  match m with
  | [] => unlistedByte
  | (b, v) :: rest => if b = a then v else readCell rest a

/-- A byte put before the list `rest`, or left unlisted when it is what an unlisted address reads
as. -/
def consCell (a : Nat) (v : Byte) (rest : Memory) : Memory :=
  if v = unlistedByte then rest else (a, v) :: rest

/-- Store a byte, in the canonical form. -/
def writeCell (m : Memory) (a : Nat) (v : Byte) : Memory :=
  match m with
  | [] => consCell a v []
  | (b, w) :: rest =>
    if a < b then consCell a v ((b, w) :: rest)
    else if a = b then consCell a v rest
    else (b, w) :: writeCell rest a v

/-- The canonical form of a list whose addresses are all at or above `low`: strictly rising, below
65536, and no byte equal to what an unlisted address reads as. -/
def Memory.wfFrom (low : Nat) (m : Memory) : Bool :=
  match m with
  | [] => true
  | (a, v) :: rest =>
    decide (low ≤ a) && decide (a < 65536) && v != unlistedByte && Memory.wfFrom (a + 1) rest

/-- The canonical form: equal memories are equal lists. -/
def Memory.wf (m : Memory) : Bool := Memory.wfFrom 0 m

/-- Bytes stored one after another from an address upward, directly into backing storage (R78). -/
def loadCells (m : Memory) (a : Nat) (bytes : List Byte) : Memory :=
  match bytes with
  | [] => m
  | v :: rest => loadCells (writeCell m a v) (a + 1) rest

/-! ## The access primitives -/

/-- `ReadByte` (R63): a mapped address reads its peripheral register, every other one the backing
storage. -/
def readByte (a : Word) (s : State) : Byte :=
  match laneAt s.cfg a with
  | some l => periphRead l s
  | none => readCell s.mem a.toNat

/-- `WriteByte` (R63), by the instruction at `ia`. -/
def writeByte (ia a : Word) (v : Byte) (s : State) : State :=
  match laneAt s.cfg a with
  | some l => periphWrite ia l v s
  | none => { s with mem := writeCell s.mem a.toNat v }

/-- `MemRead(a, 2)` (R65): two byte reads, little-endian (R68), at an odd address too (R69). -/
def readWord (a : Word) (s : State) : Word :=
  mkWord (readByte (a + 1#16) s) (readByte a s)

/-- `MemRead(a, n)` (R64, R65); a byte is zero-extended. -/
def readMem (n : Size) (a : Word) (s : State) : Word :=
  match n with
  | .byte => (readByte a s).setWidth 16
  | .word => readWord a s

/-- `MemWrite(a, 2, v)` (R67): the low byte first, then the high byte at the next address. -/
def writeWord (ia a v : Word) (s : State) : State :=
  writeByte ia (a + 1#16) (highByte v) (writeByte ia a (lowByte v) s)

/-- `MemWrite(a, n, v)` (R66, R67). -/
def writeMem (ia : Word) (n : Size) (a v : Word) (s : State) : State :=
  match n with
  | .byte => writeByte ia a (lowByte v) s
  | .word => writeWord ia a v s

/-- The byte addresses `c` that a store of `n` bytes at `a` covers (R66, R67, R70). -/
def covers (n : Size) (a c : Word) : Prop :=
  match n with
  | .byte => c = a
  | .word => c = a ∨ c = a + 1#16

/-! ## The register file -/

/-- Set pc; bit 0 is dropped (R23). -/
def setPc (v : Word) (s : State) : State := { s with pc := v &&& 0xFFFE#16 }

/-- Set sp (R24). -/
def setSp (v : Word) (s : State) : State := { s with sp := v }

/-- Set sr; bits 15:9 ignore writes (R25). -/
def setSr (v : Word) (s : State) : State := { s with sr := v &&& 0x01FF#16 }

/-- Set a general register (R21). -/
def setGpr (i : Fin 12) (v : Word) (s : State) : State :=
  { s with gpr := s.gpr.set i v }

/-- `x[r]` (R8); register 3 reads 0 (R28). -/
def readReg (r : Reg) (s : State) : Word :=
  match r with
  | .pc => s.pc
  | .sp => s.sp
  | .sr => s.sr
  | .cg => 0#16
  | .gpr i => s.gpr[i]

/-- `WriteReg` (R160): pc drops bit 0, sr drops bits 15:9, register 3 drops everything. A byte
result comes zero-extended. -/
def writeReg (r : Reg) (v : Word) (s : State) : State :=
  match r with
  | .pc => setPc v s
  | .sp => setSp v s
  | .sr => setSr v s
  | .cg => s
  | .gpr i => setGpr i v s

/-- pc after one more word of the instruction stream (R22, R141). -/
def consumeWord (s : State) : State := { s with pc := s.pc + 2#16 }

/-! ## The stack -/

/-- `sp <- sp - 2`, then a store of `n` bytes at sp (R224, R225): always 2, also for a byte. -/
def pushValue (ia : Word) (n : Size) (v : Word) (s : State) : State :=
  writeMem ia n (s.sp - 2#16) v (setSp (s.sp - 2#16) s)

/-! ## The exception -/

/-- Taking `IllegalInstruction(ia, w)` (R270), the only exception: every register, flag, memory byte
and peripheral register keeps its value, pc stays at ia, the block halts, and the pair is reported
to the host. `s` is the state before the instruction, so ia is its pc. -/
def takeIllegal (w : Word) (s : State) : State :=
  { s with
    ctl := { s.ctl with
      runState := .halted
      stepPending := false
      report := some ⟨s.pc, w⟩ } }

/-- The return (R287): no handler exists to return from; the host resumes the block, and the report
it was handed is dropped (log 3). `single` is the `step` command's bit (R284). -/
def resumeRun (single : Bool) (s : State) : State :=
  { s with
    ctl := { s.ctl with
      runState := .running
      stepPending := single
      report := none } }

/-- RETI's two pops (R226): sr, then pc. -/
def popStatusAndPc (s : State) : State :=
  let s1 := setSr (readWord s.sp s) s
  let s2 := setSp (s1.sp + 2#16) s1
  let s3 := setPc (readWord s2.sp s2) s2
  setSp (s3.sp + 2#16) s3

end Sys2Proof.Machine
end

