-- ==== Sys2Proof/Machine/Operands.lean ====
section
/-! DEFINITION. Operands (`40_fetch_and_operands.md`): every source mode of R144 to R150, every
destination mode of R154 and R155, in the order of R156, and the location writes of R160, R161. -/

namespace Sys2Proof.Machine

/-- `v mod M` (R8, R143): a byte operation uses bits 7:0. -/
def trunc (n : Size) (v : Word) : Word :=
  match n with
  | .byte => v &&& 0x00FF#16
  | .word => v

/-- The value of a constant (R145). -/
def constValue (c : Const) : Word :=
  match c with
  | .zero => 0x0000#16
  | .one => 0x0001#16
  | .two => 0x0002#16
  | .four => 0x0004#16
  | .eight => 0x0008#16
  | .minusOne => 0xFFFF#16

/-- The location an operand came from, or a result goes to (R146, R155). -/
inductive Loc where
  | const
  | reg (r : Reg)
  | mem (ea : Word)
  deriving DecidableEq, Repr

/-- A resolved source operand: its value (below M), its location, the state after it. -/
structure SrcOut where
  value : Word
  loc   : Loc
  state : State

/-- A resolved destination: its location, the state after it. -/
structure DstOut where
  loc   : Loc
  state : State

/-- The autoincrement amount (R150): 2 for pc and sp, else the operand's bytes. -/
def incAmount (r : Reg) (n : Size) : Word :=
  match r, n with
  | .pc, _ => 2#16
  | .sp, _ => 2#16
  | _, .byte => 1#16
  | _, .word => 2#16

/-- The autoincrement's write (R150): "a plain 16-bit register write", without the byte clearing or
the masking of R160. -/
def setRegPlain (r : Reg) (v : Word) (s : State) : State :=
  match r with
  | .pc => { s with pc := v }
  | .sp => { s with sp := v }
  | .sr => { s with sr := v }
  | .cg => s
  | .gpr i => setGpr i v s

/-- An operand in memory at `ea`. -/
def memoryOperand (n : Size) (ea : Word) (s : State) : SrcOut :=
  ⟨readMem n ea s, .mem ea, s⟩

/-- `Src(As, r, n)` (R146). The base register is read before the extension word is consumed, so
the base of the symbolic mode is the address of the extension word (R147). An immediate is the
autoincrement mode on register 0 (R149): its location is where the extension word stands. -/
def resolveSrc (src : Src) (n : Size) (s : State) : SrcOut :=
  match src with
  | .reg r => ⟨trunc n (readReg r s), .reg r, s⟩
  | .indexed r x => memoryOperand n (readReg r s + x) (consumeWord s)
  | .symbolic x => memoryOperand n (s.pc + x) (consumeWord s)
  | .absolute x => memoryOperand n x (consumeWord s)
  | .indirect r => memoryOperand n (readReg r s) s
  | .autoinc r =>
    ⟨readMem n (readReg r s) s, .mem (readReg r s),
      setRegPlain r (readReg r s + incAmount r n) s⟩
  | .immediate v => ⟨trunc n v, .mem s.pc, consumeWord s⟩
  | .const c => ⟨trunc n (constValue c), .const, s⟩

/-- `Dst(Ad, rd)` (R155). -/
def resolveDst (dst : Dst) (s : State) : DstOut :=
  match dst with
  | .reg r => ⟨.reg r, s⟩
  | .indexed r x => ⟨.mem (readReg r s + x), consumeWord s⟩
  | .symbolic x => ⟨.mem (s.pc + x), consumeWord s⟩
  | .absolute x => ⟨.mem x, consumeWord s⟩

/-- `ReadLoc` (R155). -/
def readLoc (n : Size) (l : Loc) (s : State) : Word :=
  match l with
  | .const => 0#16
  | .reg r => trunc n (readReg r s)
  | .mem ea => readMem n ea s

/-- `WriteLoc` (R161), by the instruction at `ia`. Nothing is written to a constant: R118 reserves
the words that would. -/
def writeLoc (ia : Word) (n : Size) (l : Loc) (v : Word) (s : State) : State :=
  match l with
  | .const => s
  | .reg r => writeReg r v s
  | .mem ea => writeMem ia n ea v s

/-- The source value, the destination location and the state of a Format I instruction that stands
at `s.pc`, after steps 1 to 3 of R156. -/
structure Operands where
  value : Word
  loc   : Loc
  state : State

/-- Steps 1 to 3 of R156: the instruction word, then the source, then the destination. -/
def resolveOperands (n : Size) (src : Src) (dst : Dst) (s : State) : Operands :=
  let a := resolveSrc src n (consumeWord s)
  let b := resolveDst dst a.state
  ⟨a.value, b.loc, b.state⟩

/-- R118(a) on the syntax: a destination whose fields are Ad = 1 and rd = 3. -/
def dstReserved (dst : Dst) : Bool :=
  destinationReserved (dst.ad == 1#1) dst.field

/-- R118(b) on the syntax: an operand whose fields are a constant's or an immediate's. -/
def srcReserved (opd : Src) : Bool :=
  operandReserved opd.as opd.field

end Sys2Proof.Machine
end

