-- ==== Sys2Proof/Machine/Flags.lean ====
section
/-! DEFINITION. The flags of the status register (`10_state.md` R26) and every flag computation
(`40_fetch_and_operands.md` R164 to R168). -/

namespace Sys2Proof.Machine

/-- C, bit 0 of sr (R26). -/
def carry (s : State) : Bool := s.sr.getLsbD 0

/-- Z, bit 1 of sr (R26). -/
def zero (s : State) : Bool := s.sr.getLsbD 1

/-- N, bit 2 of sr (R26). -/
def negative (s : State) : Bool := s.sr.getLsbD 2

/-- GIE, bit 3 of sr (R26): storage that no rule reads (R276). -/
def gie (s : State) : Bool := s.sr.getLsbD 3

/-- The low-power-mode bits SCG1, SCG0, OSCOFF, CPUOFF, bits 7:4 of sr (R26): storage only (R330). -/
def lowPower (s : State) : BitVec 4 := s.sr.extractLsb' 4 4

/-- V, bit 8 of sr (R26). -/
def overflow (s : State) : Bool := s.sr.getLsbD 8

/-- The four arithmetic flags. -/
structure Flags where
  c : Bool
  z : Bool
  n : Bool
  v : Bool
  deriving DecidableEq, Repr

/-- A bit value at a bit position of sr. -/
def flagBit (b : Bool) (mask : Word) : Word := if b then mask else 0#16

/-- sr with C, Z, N, V overwritten and every other bit kept (R162). -/
def withFlags (f : Flags) (sr : Word) : Word :=
  (sr &&& 0xFEF8#16) ||| flagBit f.c 0x0001#16 ||| flagBit f.z 0x0002#16 |||
    flagBit f.n 0x0004#16 ||| flagBit f.v 0x0100#16

/-- Write C, Z, N, V (step 7 of R156, R162). -/
def setFlags (f : Flags) (s : State) : State := { s with sr := withFlags f s.sr }

/-- `M = 2^W` (R8). -/
def modulus (n : Size) : Nat :=
  match n with
  | .byte => 256
  | .word => 65536

/-- `msb(v) = v[W-1]` (R8). -/
def msb (n : Size) (v : Word) : Bool :=
  match n with
  | .byte => v.getLsbD 7
  | .word => v.getLsbD 15

/-- The word with only bit W-1 set. -/
def signBit (n : Size) : Word :=
  match n with
  | .byte => 0x0080#16
  | .word => 0x8000#16

/-- A result and the flags it sets. -/
structure Result where
  res   : Word
  flags : Flags
  deriving DecidableEq, Repr

/-- `AddCore(a, b, cin, n)` and `SetNZ` (R164, R165). -/
def addCore (n : Size) (a b : Word) (cin : Bool) : Result :=
  let full := a.toNat + b.toNat + cin.toNat
  let res := BitVec.ofNat 16 (full % modulus n)
  ⟨res,
    { c := decide (modulus n ≤ full)
      z := res == 0#16
      n := msb n res
      v := msb n a == msb n b && msb n res != msb n a }⟩

/-- `(~src) mod M` (R166). -/
def complement (n : Size) (v : Word) : Word := trunc n (~~~v)

/-- The flags of AND, BIT and SXT (R167): C is the complement of Z, V is cleared. -/
def logicFlags (n : Size) (res : Word) : Flags :=
  { c := res != 0#16, z := res == 0#16, n := msb n res, v := false }

/-- The flags of XOR (R167, R189): V when both operands are negative. -/
def xorFlags (n : Size) (a b res : Word) : Flags :=
  { logicFlags n res with v := msb n a && msb n b }

/-- The flags of RRC and RRA (R167): C is the bit shifted out, V is cleared. -/
def shiftFlags (n : Size) (v res : Word) : Flags :=
  { c := v.getLsbD 0, z := res == 0#16, n := msb n res, v := false }

end Sys2Proof.Machine
end

