-- ==== Sys2Proof/Machine/Jumps.lean ====
section
/-! DEFINITION. The jumps (`43_jumps.md`). Each meaning starts from the state before the
instruction, whose pc is ia. -/

namespace Sys2Proof.Machine

/-- The target (R110, R250): the offset counts words from the address after the jump. -/
def jumpTarget (ia : Word) (off : BitVec 10) : Word :=
  BitVec.ofInt 16 (ia.toNat + 2 + 2 * off.toInt)

/-- The template of a jump (R250). -/
def jumpIf (taken : Bool) (off : BitVec 10) (s : State) : State :=
  if taken then setPc (jumpTarget s.pc off) (consumeWord s) else consumeWord s

/-- JNE (R251). -/
def execJne (off : BitVec 10) (s : State) : Host.Outcome State Fault Refusal :=
  .next (jumpIf (!zero s) off s)

/-- JEQ (R252). -/
def execJeq (off : BitVec 10) (s : State) : Host.Outcome State Fault Refusal :=
  .next (jumpIf (zero s) off s)

/-- JNC (R253). -/
def execJnc (off : BitVec 10) (s : State) : Host.Outcome State Fault Refusal :=
  .next (jumpIf (!carry s) off s)

/-- JC (R254). -/
def execJc (off : BitVec 10) (s : State) : Host.Outcome State Fault Refusal :=
  .next (jumpIf (carry s) off s)

/-- JN (R255). -/
def execJn (off : BitVec 10) (s : State) : Host.Outcome State Fault Refusal :=
  .next (jumpIf (negative s) off s)

/-- JGE (R256): (N xor V) = 0. -/
def execJge (off : BitVec 10) (s : State) : Host.Outcome State Fault Refusal :=
  .next (jumpIf (!(xor (negative s) (overflow s))) off s)

/-- JL (R257): (N xor V) = 1. -/
def execJl (off : BitVec 10) (s : State) : Host.Outcome State Fault Refusal :=
  .next (jumpIf (xor (negative s) (overflow s)) off s)

/-- JMP (R258). -/
def execJmp (off : BitVec 10) (s : State) : Host.Outcome State Fault Refusal :=
  .next (jumpIf true off s)

end Sys2Proof.Machine
end

