-- ==== Sys2Proof/Machine/OneOperand.lean ====
section
/-! DEFINITION. Format II, the single-operand instructions (`42_format2_single_operand.md`). Each
meaning starts from the state before the instruction, whose pc is ia; the operand is resolved once
(R151, R227). -/

namespace Sys2Proof.Machine

/-- R227: the exception of R118(b) comes before any effect; else the body runs. -/
def guardOperand (i : Instr) (opd : Src) (body : State) (s : State) :
    Host.Outcome State Fault Refusal :=
  if srcReserved opd then .next (takeIllegal (firstWord i) s) else .next body

/-- R151: the result is written back to the location the operand came from; no flags. -/
def oneOpWrite (n : Size) (opd : Src) (f : Word → Word) (s : State) : State :=
  let o := resolveSrc opd n (consumeWord s)
  writeLoc s.pc n o.loc (f o.value) o.state

/-- R151 with flags, written after the result (R162). -/
def oneOpWriteFlags (n : Size) (opd : Src) (f : Word → Result) (s : State) : State :=
  let o := resolveSrc opd n (consumeWord s)
  setFlags (f o.value).flags (writeLoc s.pc n o.loc (f o.value).res o.state)

/-- The rotation of RRC (R220): the old C enters at bit W-1. -/
def rotateRight (n : Size) (cin : Bool) (v : Word) : Word :=
  (v >>> 1) ||| (if cin then signBit n else 0#16)

/-- The shift of RRA (R222): bit W-1 is kept. -/
def shiftRight (n : Size) (v : Word) : Word :=
  (v >>> 1) ||| (v &&& signBit n)

/-- SWPB's exchange of the two bytes (R221). -/
def swapBytes (v : Word) : Word := mkWord (lowByte v) (highByte v)

/-- SXT's extension of the low byte (R223). -/
def signExtend (v : Word) : Word :=
  if v.getLsbD 7 then 0xFF00#16 ||| (v &&& 0x00FF#16) else v &&& 0x00FF#16

/-- RRC (R220): C as it was before the instruction enters. -/
def execRrc (n : Size) (opd : Src) (s : State) : Host.Outcome State Fault Refusal :=
  guardOperand (.rrc n opd) opd
    (oneOpWriteFlags n opd
      (fun v => ⟨rotateRight n (carry s) v, shiftFlags n v (rotateRight n (carry s) v)⟩) s) s

/-- SWPB (R221). -/
def execSwpb (opd : Src) (s : State) : Host.Outcome State Fault Refusal :=
  guardOperand (.swpb opd) opd (oneOpWrite .word opd swapBytes s) s

/-- RRA (R222). -/
def execRra (n : Size) (opd : Src) (s : State) : Host.Outcome State Fault Refusal :=
  guardOperand (.rra n opd) opd
    (oneOpWriteFlags n opd (fun v => ⟨shiftRight n v, shiftFlags n v (shiftRight n v)⟩) s) s

/-- SXT (R223). -/
def execSxt (opd : Src) (s : State) : Host.Outcome State Fault Refusal :=
  guardOperand (.sxt opd) opd
    (oneOpWriteFlags .word opd (fun v => ⟨signExtend v, logicFlags .word (signExtend v)⟩) s) s

/-- PUSH (R224): the operand is resolved with the old sp. -/
def execPush (n : Size) (opd : Src) (s : State) : Host.Outcome State Fault Refusal :=
  let o := resolveSrc opd n (consumeWord s)
  .next (pushValue s.pc n o.value o.state)

/-- CALL (R225): the operand's value is the target, resolved first; the return address is the
address of the next instruction. -/
def execCall (opd : Src) (s : State) : Host.Outcome State Fault Refusal :=
  let o := resolveSrc opd .word (consumeWord s)
  .next (setPc o.value (pushValue s.pc .word o.state.pc o.state))

/-- RETI (R226). -/
def execReti (s : State) : Host.Outcome State Fault Refusal :=
  .next (popStatusAndPc (consumeWord s))

end Sys2Proof.Machine
end

