-- ==== Sys2Proof/Machine/Reserved.lean ====
section
/-! DEFINITION. The reserved rows of the opcode table (`30_encoding.md` R115 to R117). Executing a
reserved word raises `IllegalInstruction(ia, w)`: each meaning takes the exception of R270 from the
state before the instruction, whose pc is ia. -/

namespace Sys2Proof.Machine

/-- ILLEGAL_0xxx (R115): words 0x0000-0x0FFF. -/
def execIllegal0xxx (low : BitVec 12) (s : State) : Host.Outcome State Fault Refusal :=
  .next (takeIllegal (firstWord (.illegal0xxx low)) s)

/-- ILLEGAL_14xx (R115): words 0x1400-0x17FF. -/
def execIllegal14xx (low : BitVec 10) (s : State) : Host.Outcome State Fault Refusal :=
  .next (takeIllegal (firstWord (.illegal14xx low)) s)

/-- ILLEGAL_18xx (R115): words 0x1800-0x1FFF. -/
def execIllegal18xx (low : BitVec 11) (s : State) : Host.Outcome State Fault Refusal :=
  .next (takeIllegal (firstWord (.illegal18xx low)) s)

/-- ILLEGAL_Axxx (R116): words 0xA000-0xAFFF, the family's DADD, absent from the document's operation list. -/
def execIllegalAxxx (low : BitVec 12) (s : State) : Host.Outcome State Fault Refusal :=
  .next (takeIllegal (firstWord (.illegalAxxx low)) s)

/-- ILLEGAL_FMT2_OP7 (R117): format II op = 0b111, words 0x1380-0x13FF. -/
def execIllegalFmt2Op7 (low : BitVec 7) (s : State) : Host.Outcome State Fault Refusal :=
  .next (takeIllegal (firstWord (.illegalFmt2Op7 low)) s)

/-- ILLEGAL_SWPB_B (R117): SWPB with BW = 1, words 0x10C0-0x10FF. -/
def execIllegalSwpbB (low : BitVec 6) (s : State) : Host.Outcome State Fault Refusal :=
  .next (takeIllegal (firstWord (.illegalSwpbB low)) s)

/-- ILLEGAL_SXT_B (R117): SXT with BW = 1, words 0x11C0-0x11FF. -/
def execIllegalSxtB (low : BitVec 6) (s : State) : Host.Outcome State Fault Refusal :=
  .next (takeIllegal (firstWord (.illegalSxtB low)) s)

/-- ILLEGAL_CALL_B (R117): CALL with BW = 1, words 0x12C0-0x12FF. -/
def execIllegalCallB (low : BitVec 6) (s : State) : Host.Outcome State Fault Refusal :=
  .next (takeIllegal (firstWord (.illegalCallB low)) s)

/-- ILLEGAL_RETI_1340 (R117): RETI with a low bit set, words 0x1340-0x137F. -/
def execIllegalReti1340 (low : BitVec 6) (s : State) : Host.Outcome State Fault Refusal :=
  .next (takeIllegal (firstWord (.illegalReti1340 low)) s)

/-- ILLEGAL_RETI_1320 (R117): RETI with a low bit set, words 0x1320-0x133F. -/
def execIllegalReti1320 (low : BitVec 5) (s : State) : Host.Outcome State Fault Refusal :=
  .next (takeIllegal (firstWord (.illegalReti1320 low)) s)

/-- ILLEGAL_RETI_1310 (R117): RETI with a low bit set, words 0x1310-0x131F. -/
def execIllegalReti1310 (low : BitVec 4) (s : State) : Host.Outcome State Fault Refusal :=
  .next (takeIllegal (firstWord (.illegalReti1310 low)) s)

/-- ILLEGAL_RETI_1308 (R117): RETI with a low bit set, words 0x1308-0x130F. -/
def execIllegalReti1308 (low : BitVec 3) (s : State) : Host.Outcome State Fault Refusal :=
  .next (takeIllegal (firstWord (.illegalReti1308 low)) s)

/-- ILLEGAL_RETI_1304 (R117): RETI with a low bit set, words 0x1304-0x1307. -/
def execIllegalReti1304 (low : BitVec 2) (s : State) : Host.Outcome State Fault Refusal :=
  .next (takeIllegal (firstWord (.illegalReti1304 low)) s)

/-- ILLEGAL_RETI_1302 (R117): RETI with a low bit set, words 0x1302-0x1303. -/
def execIllegalReti1302 (low : BitVec 1) (s : State) : Host.Outcome State Fault Refusal :=
  .next (takeIllegal (firstWord (.illegalReti1302 low)) s)

/-- ILLEGAL_RETI_1301 (R117): RETI with a low bit set, words 0x1301-0x1301. -/
def execIllegalReti1301 (s : State) : Host.Outcome State Fault Refusal :=
  .next (takeIllegal (firstWord .illegalReti1301) s)

end Sys2Proof.Machine
end

