-- ==== Sys2Proof/Machine/TwoOperand.lean ====
section
/-! DEFINITION. Format I, the two-operand instructions (`41_format1_two_operand.md`). Each meaning
starts from the state before the instruction, whose pc is ia. The shared operations are the three
shapes of the template R191: write without reading (MOV) or without flags (BIC, BIS), write and set
flags, set flags only (CMP, BIT). -/

namespace Sys2Proof.Machine

/-- R191: the exception of R118(a) comes before any effect; else the body runs. -/
def guardDst (i : Instr) (dst : Dst) (body : State) (s : State) :
    Host.Outcome State Fault Refusal :=
  if dstReserved dst then .next (takeIllegal (firstWord i) s) else .next body

/-- R191 with a result and no flags: `f` makes the result from the source and the destination. -/
def twoOpWrite (n : Size) (src : Src) (dst : Dst) (f : Word → Word → Word) (s : State) : State :=
  let o := resolveOperands n src dst s
  writeLoc s.pc n o.loc (f o.value (readLoc n o.loc o.state)) o.state

/-- R191 with a result and flags: the result is written first, then the flags (R162). -/
def twoOpWriteFlags (n : Size) (src : Src) (dst : Dst) (f : Word → Word → Result) (s : State) :
    State :=
  let o := resolveOperands n src dst s
  let r := f o.value (readLoc n o.loc o.state)
  setFlags r.flags (writeLoc s.pc n o.loc r.res o.state)

/-- R191 with flags and no result: the destination is read, never written (R185, R186). -/
def twoOpFlags (n : Size) (src : Src) (dst : Dst) (f : Word → Word → Flags) (s : State) : State :=
  let o := resolveOperands n src dst s
  setFlags (f o.value (readLoc n o.loc o.state)) o.state

/-- MOV (R180): the destination is not read. -/
def execMov (n : Size) (src : Src) (dst : Dst) (s : State) : Host.Outcome State Fault Refusal :=
  let o := resolveOperands n src dst s
  guardDst (.mov n src dst) dst (writeLoc s.pc n o.loc o.value o.state) s

/-- ADD (R181). -/
def execAdd (n : Size) (src : Src) (dst : Dst) (s : State) : Host.Outcome State Fault Refusal :=
  guardDst (.add n src dst) dst
    (twoOpWriteFlags n src dst (fun a d => addCore n d a false) s) s

/-- ADDC (R182): adds the carry flag as it was before the instruction. -/
def execAddc (n : Size) (src : Src) (dst : Dst) (s : State) : Host.Outcome State Fault Refusal :=
  guardDst (.addc n src dst) dst
    (twoOpWriteFlags n src dst (fun a d => addCore n d a (carry s)) s) s

/-- SUBC (R183): dst + not(src) + C. -/
def execSubc (n : Size) (src : Src) (dst : Dst) (s : State) : Host.Outcome State Fault Refusal :=
  guardDst (.subc n src dst) dst
    (twoOpWriteFlags n src dst (fun a d => addCore n d (complement n a) (carry s)) s) s

/-- SUB (R184): dst + not(src) + 1. -/
def execSub (n : Size) (src : Src) (dst : Dst) (s : State) : Host.Outcome State Fault Refusal :=
  guardDst (.sub n src dst) dst
    (twoOpWriteFlags n src dst (fun a d => addCore n d (complement n a) true) s) s

/-- CMP (R185): SUB without the write. -/
def execCmp (n : Size) (src : Src) (dst : Dst) (s : State) : Host.Outcome State Fault Refusal :=
  guardDst (.cmp n src dst) dst
    (twoOpFlags n src dst (fun a d => (addCore n d (complement n a) true).flags) s) s

/-- BIT (R186): AND without the write. -/
def execBit (n : Size) (src : Src) (dst : Dst) (s : State) : Host.Outcome State Fault Refusal :=
  guardDst (.bit n src dst) dst
    (twoOpFlags n src dst (fun a d => logicFlags n (a &&& d)) s) s

/-- BIC (R187): clears in the destination the bits set in the source; no flags. -/
def execBic (n : Size) (src : Src) (dst : Dst) (s : State) : Host.Outcome State Fault Refusal :=
  guardDst (.bic n src dst) dst
    (twoOpWrite n src dst (fun a d => d &&& complement n a) s) s

/-- BIS (R188): bitwise or; no flags. -/
def execBis (n : Size) (src : Src) (dst : Dst) (s : State) : Host.Outcome State Fault Refusal :=
  guardDst (.bis n src dst) dst
    (twoOpWrite n src dst (fun a d => d ||| a) s) s

/-- XOR (R189). -/
def execXor (n : Size) (src : Src) (dst : Dst) (s : State) : Host.Outcome State Fault Refusal :=
  guardDst (.xor n src dst) dst
    (twoOpWriteFlags n src dst (fun a d => ⟨d ^^^ a, xorFlags n a d (d ^^^ a)⟩) s) s

/-- AND (R190). -/
def execAnd (n : Size) (src : Src) (dst : Dst) (s : State) : Host.Outcome State Fault Refusal :=
  guardDst (.and n src dst) dst
    (twoOpWriteFlags n src dst (fun a d => ⟨d &&& a, logicFlags n (d &&& a)⟩) s) s

end Sys2Proof.Machine
end

