-- ==== Sys2Proof/Machine/Dispatch.lean ====
section
/-! DEFINITION. One arm per instruction. `s` is the state before the instruction: its pc is ia, the
address of the instruction word, and the meaning itself moves past the words it consumes (R141). -/

namespace Sys2Proof.Machine

def exec (i : Instr) (s : State) : Host.Outcome State Fault Refusal :=
  match i with
  | .mov n src dst => Sys2Proof.Machine.execMov n src dst s
  | .add n src dst => Sys2Proof.Machine.execAdd n src dst s
  | .addc n src dst => Sys2Proof.Machine.execAddc n src dst s
  | .subc n src dst => Sys2Proof.Machine.execSubc n src dst s
  | .sub n src dst => Sys2Proof.Machine.execSub n src dst s
  | .cmp n src dst => Sys2Proof.Machine.execCmp n src dst s
  | .bit n src dst => Sys2Proof.Machine.execBit n src dst s
  | .bic n src dst => Sys2Proof.Machine.execBic n src dst s
  | .bis n src dst => Sys2Proof.Machine.execBis n src dst s
  | .xor n src dst => Sys2Proof.Machine.execXor n src dst s
  | .and n src dst => Sys2Proof.Machine.execAnd n src dst s
  | .rrc n opd => Sys2Proof.Machine.execRrc n opd s
  | .swpb opd => Sys2Proof.Machine.execSwpb opd s
  | .rra n opd => Sys2Proof.Machine.execRra n opd s
  | .sxt opd => Sys2Proof.Machine.execSxt opd s
  | .push n opd => Sys2Proof.Machine.execPush n opd s
  | .call opd => Sys2Proof.Machine.execCall opd s
  | .reti => Sys2Proof.Machine.execReti s
  | .jne off => Sys2Proof.Machine.execJne off s
  | .jeq off => Sys2Proof.Machine.execJeq off s
  | .jnc off => Sys2Proof.Machine.execJnc off s
  | .jc off => Sys2Proof.Machine.execJc off s
  | .jn off => Sys2Proof.Machine.execJn off s
  | .jge off => Sys2Proof.Machine.execJge off s
  | .jl off => Sys2Proof.Machine.execJl off s
  | .jmp off => Sys2Proof.Machine.execJmp off s
  | .illegal0xxx low => Sys2Proof.Machine.execIllegal0xxx low s
  | .illegal14xx low => Sys2Proof.Machine.execIllegal14xx low s
  | .illegal18xx low => Sys2Proof.Machine.execIllegal18xx low s
  | .illegalAxxx low => Sys2Proof.Machine.execIllegalAxxx low s
  | .illegalFmt2Op7 low => Sys2Proof.Machine.execIllegalFmt2Op7 low s
  | .illegalSwpbB low => Sys2Proof.Machine.execIllegalSwpbB low s
  | .illegalSxtB low => Sys2Proof.Machine.execIllegalSxtB low s
  | .illegalCallB low => Sys2Proof.Machine.execIllegalCallB low s
  | .illegalReti1340 low => Sys2Proof.Machine.execIllegalReti1340 low s
  | .illegalReti1320 low => Sys2Proof.Machine.execIllegalReti1320 low s
  | .illegalReti1310 low => Sys2Proof.Machine.execIllegalReti1310 low s
  | .illegalReti1308 low => Sys2Proof.Machine.execIllegalReti1308 low s
  | .illegalReti1304 low => Sys2Proof.Machine.execIllegalReti1304 low s
  | .illegalReti1302 low => Sys2Proof.Machine.execIllegalReti1302 low s
  | .illegalReti1301 => Sys2Proof.Machine.execIllegalReti1301 s

end Sys2Proof.Machine
end

