-- ==== Sys2Proof/Machine/Scheduler.lean ====
section
/-! DEFINITION. One iteration of the scheduler (`40_fetch_and_operands.md` R140, `60_exceptions.md`
R279): the breakpoint check, the fetch, the instruction, the tick, the cycle accounting and the end
of the instruction. -/

namespace Sys2Proof.Machine

/-! ## The cycle accounting (R356) -/

/-- The Format I row of a source operand; a constant costs what a register costs. -/
def cycleRowI (t : CycleTable) (src : Src) : CyclesI :=
  match src with
  | .reg _ | .const _ => t.regI
  | .indirect _ => t.indirectI
  | .autoinc _ => t.autoincI
  | .immediate _ => t.immediateI
  | .indexed _ _ | .symbolic _ | .absolute _ => t.indexedI

/-- The Format II row of an operand; a constant costs what a register costs. -/
def cycleRowII (t : CycleTable) (opd : Src) : CyclesII :=
  match opd with
  | .reg _ | .const _ => t.regII
  | .indirect _ => t.indirectII
  | .autoinc _ => t.autoincII
  | .immediate _ => t.immediateII
  | .indexed _ _ | .symbolic _ | .absolute _ => t.indexedII

/-- The Format I column of a destination operand. -/
def cyclesI (t : CycleTable) (src : Src) (dst : Dst) : Nat :=
  match dst with
  | .reg .pc => (cycleRowI t src).toPc
  | .reg _ => (cycleRowI t src).toReg
  | .indexed _ _ | .symbolic _ | .absolute _ => (cycleRowI t src).toMem

/-- The cycle cost the decoder/executor returns (R356). A reserved word returns none. -/
def cycleCost (t : CycleTable) (i : Instr) : Nat :=
  match i with
  | .mov _ s d | .add _ s d | .addc _ s d | .subc _ s d | .sub _ s d | .cmp _ s d => cyclesI t s d
  | .bit _ s d | .bic _ s d | .bis _ s d | .xor _ s d | .and _ s d => cyclesI t s d
  | .rrc _ o | .swpb o | .rra _ o | .sxt o => (cycleRowII t o).modify
  | .push _ o => (cycleRowII t o).push
  | .call o => (cycleRowII t o).call
  | .reti => t.reti
  | .jne _ | .jeq _ | .jnc _ | .jc _ | .jn _ | .jge _ | .jl _ | .jmp _ => t.jump
  | .illegal0xxx _ | .illegal14xx _ | .illegal18xx _ | .illegalAxxx _ => 0
  | .illegalFmt2Op7 _ | .illegalSwpbB _ | .illegalSxtB _ | .illegalCallB _ => 0
  | .illegalReti1340 _ | .illegalReti1320 _ | .illegalReti1310 _ | .illegalReti1308 _ => 0
  | .illegalReti1304 _ | .illegalReti1302 _ | .illegalReti1301 => 0

/-- The host adds the cost to `cycle_count` (R40, R356). -/
def addCycles (k : Nat) (s : State) : State :=
  { s with ctl := { s.ctl with cycleCount := s.ctl.cycleCount + k } }

/-! ## The iteration -/

/-- An enabled breakpoint stands at pc and the instruction is not a single step (R282, R284). -/
def breakpointHit (s : State) : Bool :=
  !s.ctl.stepPending && s.ctl.breakpoints.any fun b => b.address == s.pc && b.enabled

/-- A breakpoint halt (R282): nothing is fetched, nothing is ticked. -/
def haltAtBreakpoint (s : State) : State :=
  { s with ctl := { s.ctl with runState := .halted } }

/-- The next words of the instruction stream (R71, R141), as many as the longest instruction has. No
read has a side effect (R74), and no instruction changes memory before it has consumed its last
word, so reading them before the operands are resolved gives the words R141 fetches (log 9). -/
def fetchStream (s : State) : List Word :=
  [readWord s.pc s, readWord (s.pc + 2#16) s, readWord (s.pc + 4#16) s]

/-- The end of an instruction, after its tick (R279 step 5, R284, R285). -/
def endOfInstruction (s : State) : State :=
  if s.ctl.stepPending || s.ctl.haltRequest then
    { s with
      ctl := { s.ctl with runState := .halted, stepPending := false, haltRequest := false } }
  else s

/-- What follows an executed instruction: the tick of 4 (R290), the cycle accounting, the end. -/
def finishInstruction (i : Instr) (s : State) : State :=
  endOfInstruction (addCycles (cycleCost s.cfg.cycles i) (tickAll tickCycles s))

/-- `finishInstruction` after an execution. -/
def finishOutcome (i : Instr) (o : Host.Outcome State Fault Refusal) :
    Host.Outcome State Fault Refusal :=
  match o with
  | .next t => .next (finishInstruction i t)
  | .fault r => .fault r
  | .refused r => .refused r

/-- Fetch, decode and execute one instruction (R140). A word the decoder rejects (R118) and a word
of a reserved row (R115 to R117) raise the exception, and no tick follows (R270). -/
def runInstruction (s : State) : Host.Outcome State Fault Refusal :=
  match decode (fetchStream s) with
  | .error _ => .next (takeIllegal (readWord s.pc s) s)
  | .ok (i, _) => if i.isReserved then exec i s else finishOutcome i (exec i s)

/-- One iteration while running (R140, R279). -/
def iterate (s : State) : Host.Outcome State Fault Refusal :=
  if breakpointHit s then .next (haltAtBreakpoint s) else runInstruction s

/-- What a halted block answers (R9): the fault of the illegal instruction it stands halted by
(log 3), else "no step" (log 4). -/
def answerHalted (s : State) : Host.Outcome State Fault Refusal :=
  match s.ctl.report with
  | some r => .fault (.illegalInstruction r.ia r.w)
  | none => .refused .haltedAwaitingHost

/-! ## Placing an instruction -/

/-- Bytes stored into backing storage from an address upward, modulo 2^16. -/
def placeBytes (a : Word) (bytes : List Byte) (m : Memory) : Memory :=
  match bytes with
  | [] => m
  | v :: rest => placeBytes (a + 1#16) rest (writeCell m a.toNat v)

/-- The state in which the next step runs at pc: running, no report, and no enabled breakpoint in
the way (R282). -/
def readyToRun (s : State) : State :=
  { s with
    ctl := { s.ctl with
      runState := .running
      report := none
      breakpoints :=
        if breakpointHit s
        then s.ctl.breakpoints.filter fun b => !(b.address == s.pc && b.enabled)
        else s.ctl.breakpoints } }

/-- The instruction of the words `ws` placed in backing storage at pc. -/
def placeAtPc (ws : List Word) (s : State) : State :=
  { s with mem := placeBytes s.pc (ws.flatMap bytesOfWord) s.mem }

end Sys2Proof.Machine
end

