-- ==== Sys2Proof/Machine/Step.lean ====
section
/-! DEFINITION. One step of the block (`00_scope.md` R9, `60_exceptions.md` R279, R280). -/

namespace Sys2Proof.Machine

/-- One step: an iteration while running; a halted block waits for the host. -/
def step (s : State) : Host.Outcome State Fault Refusal :=
  match s.ctl.runState with
  | .running => iterate s
  | .halted => answerHalted s

/-- `s` with the instruction whose bits are `w` placed at pc, running (log 5). -/
def State.withFetchWord (s : State) (nbits w : Nat) : State :=
  readyToRun (placeAtPc (tableWords nbits w) s)

end Sys2Proof.Machine
end

