-- ==== Sys2Proof/Machine/HostPort.lean ====
section
/-! DEFINITION. What the host does to the block between instructions (`60_exceptions.md` R280 to
R285, `00_scope.md` R6): the commands accepted while halted, the halt request, the pin levels. A
command the block does not accept changes nothing (log 10). -/

namespace Sys2Proof.Machine

/-- The host's actions. -/
inductive HostCommand where
  | run
  | continueRun
  | singleStep
  /-- "set adds (A, enabled)" (R283). The rule does not say whether the bit is 1 or an argument, and
  no command changes it later: it is an argument here, so set can add a disabled breakpoint. DESIGN
  CHOICE, log 16. -/
  | setBreakpoint (b : Breakpoint)
  | clearBreakpoint (a : Word)
  | listBreakpoints
  | requestHalt
  | drivePins (levels : Byte)
  deriving DecidableEq, Repr

/-- Add a breakpoint unless one with its address exists (R283), in rising order of address. -/
def insertBreakpoint (b : Breakpoint) (l : List Breakpoint) : List Breakpoint :=
  match l with
  | [] => [b]
  | c :: rest =>
    if b.address.toNat < c.address.toNat then b :: c :: rest
    else if b.address = c.address then c :: rest
    else c :: insertBreakpoint b rest

/-- Remove the breakpoint with an address (R283). -/
def removeBreakpoint (a : Word) (l : List Breakpoint) : List Breakpoint :=
  l.filter fun b => b.address != a

/-- The block with another set of breakpoints. -/
def setBreakpoints (l : List Breakpoint) (s : State) : State :=
  { s with ctl := { s.ctl with breakpoints := l } }

/-- A command "accepted only while halted" (R281, R283, R284). -/
def whileHalted (f : State → State) (s : State) : State :=
  match s.ctl.runState with
  | .halted => f s
  | .running => s

/-- The effect of a host's action. `run` and `continue` have the same transition (R281). Set stores
the enabled bit it is given (log 16, DESIGN CHOICE). -/
def hostCommand (c : HostCommand) (s : State) : State :=
  match c with
  | .run => whileHalted (resumeRun false) s
  | .continueRun => whileHalted (resumeRun false) s
  | .singleStep => whileHalted (resumeRun true) s
  | .setBreakpoint b =>
    whileHalted (fun t => setBreakpoints (insertBreakpoint b t.ctl.breakpoints) t) s
  | .clearBreakpoint a =>
    whileHalted (fun t => setBreakpoints (removeBreakpoint a t.ctl.breakpoints) t) s
  | .listBreakpoints => s
  | .requestHalt => { s with ctl := { s.ctl with haltRequest := true } }
  | .drivePins levels => { s with gpio := { s.gpio with pinIn := levels } }

end Sys2Proof.Machine
end

