-- ==== Sys2Proof/Machine/Load.lean ====
section
/-! DEFINITION. Reset as the construction of the block by the host (`70_reset_and_hazards.md` R340,
R343, R344), with every open parameter as an argument. -/

namespace Sys2Proof.Machine

/-- The arguments of `Reset` (R340): the two images, `MEM_INIT` as a memory in canonical form (any
content of the 65536 bytes is one), `REG_INIT` (sp, then x[4]..x[15]), the pin levels, and the
parameters of R6 that are fixed for one machine. -/
structure ResetArgs where
  cfg      : Config
  fwImage  : List Byte
  bootStub : List Byte
  memInit  : Memory
  spInit   : Word
  gprInit  : Vector Word 12
  pins     : Byte
  deriving DecidableEq, Repr

/-- The block is created only for a firmware image of at most 16384 bytes (R343, U17), a stub of at
most 1024 bytes (R344), and parameters U10 accepts. -/
def ResetArgs.ok (a : ResetArgs) : Bool :=
  decide (a.fwImage.length ≤ 0x4000) && decide (a.bootStub.length ≤ 0x400) && a.memInit.wf
    && configOk a.cfg

/-- Memory after the two loads of R340, which never go through redirection (R78). -/
def loadedMemory (a : ResetArgs) : Memory :=
  loadCells (loadCells a.memInit bootBase.toNat a.bootStub) fwBase.toNat a.fwImage

/-- `Reset` (R340): the constructed block, or none where the load fails and no block exists. -/
def construct (a : ResetArgs) : Option State :=
  if a.ok then some (State.resetWith a.cfg a.spInit a.gprInit (loadedMemory a) a.pins) else none

end Sys2Proof.Machine
end

