-- ==== Sys2Proof/Safety.lean ====
section
/-! DEFINITION. What a run is judged by: the invariant of the block, the end of a run (R286), a run
that is not a completed run (R9, R270). -/

namespace Sys2Proof.Safety

open Sys2Proof.Machine

/-- Breakpoint addresses strictly rising from `low`, so unique (R35). -/
def breakpointsFrom (low : Nat) (l : List Breakpoint) : Bool :=
  match l with
  | [] => true
  | b :: rest => decide (low ≤ b.address.toNat) && breakpointsFrom (b.address.toNat + 1) rest

/-- The invariant of the block: pc is word-aligned (R23), bits 15:9 of sr are 0 (R25), memory is in
its canonical form, breakpoint addresses are unique (R35), and a report stands only while the block
is halted (log 3). -/
structure Inv (s : State) : Prop where
  pcAligned     : s.pc.getLsbD 0 = false
  srReserved    : s.sr &&& 0xFE00#16 = 0#16
  memCanonical  : Memory.wf s.mem = true
  breakpoints   : breakpointsFrom 0 s.ctl.breakpoints = true
  reportHalted  : s.ctl.runState = .running → s.ctl.report = none

/-- A completed run (R286): the word at pc is `JMP $`. -/
def parked (s : State) : Bool := readWord s.pc s == 0x3FFF#16

/-- A run that raised the illegal-instruction exception: not a completed run (R9). -/
def faulted (s : State) : Bool := s.ctl.report.isSome

end Sys2Proof.Safety
end

