-- ==== Sys2Proof/Certificates/Slice0/Obligations.lean ====
section
/-! DEFINITION. The statements for the provers, from the numbered rules of spec/. First the words
they are written in (`Sys2Proof.Claims`), which restate the spec's notions without the model's own
computations: signed values, the reserved words by number, which instruction has which operands.
Then one `Obligations.<Name>` per statement. -/

open Sys2Proof Sys2Proof.Machine Sys2Proof.Safety

namespace Sys2Proof.Claims

/-- `sext_W(v)` (R8). -/
def signed (n : Size) (v : Word) : Int :=
  match n with
  | .byte => (v.setWidth 8).toInt
  | .word => v.toInt

/-- Outside -2^(W-1) .. 2^(W-1) - 1 (R165). -/
abbrev outOfRange (n : Size) (x : Int) : Prop :=
  x < -((modulus n : Int) / 2) ∨ (modulus n : Int) / 2 ≤ x

/-- C as a number. -/
def carryNat (s : State) : Nat := if carry s then 1 else 0

/-- The words of R118: Format I with Ad = 1 and rd = 3; RRC, SWPB, RRA, SXT on a constant or an
immediate. -/
def reservedOperandWord (w : Word) : Prop :=
  (0x4000 ≤ w.toNat ∧ w.getLsbD 7 = true ∧ w.extractLsb' 0 4 = 3#4) ∨
  (0x1000 ≤ w.toNat ∧ w.toNat < 0x1200 ∧
    (w.extractLsb' 0 4 = 3#4 ∨
     (w.extractLsb' 0 4 = 2#4 ∧ (w.extractLsb' 4 2 = 2#2 ∨ w.extractLsb' 4 2 = 3#2)) ∨
     (w.extractLsb' 0 4 = 0#4 ∧ w.extractLsb' 4 2 = 3#2)))

/-- The words of R115 to R117, by number. -/
def reservedRowWord (w : Word) : Prop :=
  w.toNat < 0x1000 ∨
  (0x1400 ≤ w.toNat ∧ w.toNat < 0x2000) ∨
  (0xA000 ≤ w.toNat ∧ w.toNat < 0xB000) ∨
  (0x1380 ≤ w.toNat ∧ w.toNat < 0x1400) ∨
  (0x10C0 ≤ w.toNat ∧ w.toNat < 0x1100) ∨
  (0x11C0 ≤ w.toNat ∧ w.toNat < 0x1200) ∨
  (0x12C0 ≤ w.toNat ∧ w.toNat < 0x1300) ∨
  (0x1301 ≤ w.toNat ∧ w.toNat < 0x1380)

/-- A reserved word (R115 to R118). -/
def reservedWord (w : Word) : Prop := reservedRowWord w ∨ reservedOperandWord w

/-- The operands of a Format I instruction. -/
def formatI : Instr → Option (Size × Src × Dst)
  | .mov n s d | .add n s d | .addc n s d | .subc n s d | .sub n s d | .cmp n s d => some (n, s, d)
  | .bit n s d | .bic n s d | .bis n s d | .xor n s d | .and n s d => some (n, s, d)
  | _ => none

/-- CMP and BIT write no result (R185, R186). -/
def noResult : Instr → Bool
  | .cmp .. | .bit .. => true
  | _ => false

/-- MOV, BIC, BIS and SWPB set no flags (R168). -/
def keepsFlags : Instr → Bool
  | .mov .. | .bic .. | .bis .. | .swpb _ => true
  | _ => false

/-- The operand of RRC, SWPB, RRA, SXT, which is also its destination (R151). -/
def modified : Instr → Option (Size × Src)
  | .rrc n o | .rra n o => some (n, o)
  | .swpb o | .sxt o => some (.word, o)
  | _ => none

/-- The offset and the condition of a jump (R251 to R258). -/
def jump (s : State) : Instr → Option (BitVec 10 × Bool)
  | .jne off => some (off, zero s == false)
  | .jeq off => some (off, zero s == true)
  | .jnc off => some (off, carry s == false)
  | .jc off => some (off, carry s == true)
  | .jn off => some (off, negative s == true)
  | .jge off => some (off, negative s == overflow s)
  | .jl off => some (off, negative s != overflow s)
  | .jmp off => some (off, true)
  | _ => none

/-- An instruction that writes pc as its destination (R22): a jump, CALL, RETI, register 0 as the
destination of a result. -/
def writesPc : Instr → Bool
  | .mov _ _ d | .add _ _ d | .addc _ _ d | .subc _ _ d | .sub _ _ d => d == .reg .pc
  | .bic _ _ d | .bis _ _ d | .xor _ _ d | .and _ _ d => d == .reg .pc
  | .rrc _ o | .rra _ o | .swpb o | .sxt o => o == .reg .pc
  | .call _ | .reti => true
  | .jne _ | .jeq _ | .jnc _ | .jc _ | .jn _ | .jge _ | .jl _ | .jmp _ => true
  | _ => false

/-- Everything outside the register file is as before: memory, the four modules, the trace, the run
control, the parameters. -/
def onlyRegistersChange (s t : State) : Prop :=
  t = { s with pc := t.pc, sp := t.sp, sr := t.sr, gpr := t.gpr }

/-- The bits of sr that are no arithmetic flag are as before. -/
def otherStatusBitsKept (s t : State) : Prop :=
  ∀ k : Nat, k ≠ 0 → k ≠ 1 → k ≠ 2 → k ≠ 8 → t.sr.getLsbD k = s.sr.getLsbD k

/-- The byte at `c` is none a store of `n` bytes at `ea` can change: not covered by it, and, where
P1IN stands at `c`, P1OUT and P1DIR not covered either (P1IN is computed from them, R304). -/
def outsideStore (s : State) (n : Size) (ea c : Word) : Prop :=
  ¬ covers n ea c ∧
  (laneAt s.cfg c = some .p1in →
    ∀ b, covers n ea b → laneAt s.cfg b ≠ some .p1out ∧ laneAt s.cfg b ≠ some .p1dir)

/-- What no store changes, whatever its address: the run control, the parameters, the outside pin
levels, the two internal outputs of the tick. -/
def storeKeeps (s t : State) : Prop :=
  t.ctl = s.ctl ∧ t.cfg = s.cfg ∧ t.gpio.pinIn = s.gpio.pinIn ∧
  t.clock.clkCycles = s.clock.clkCycles ∧ t.timer.taOut = s.timer.taOut

/-- Every address a store covers is backing storage. -/
def plainStorage (s : State) (n : Size) (ea : Word) : Prop :=
  ∀ b, covers n ea b → laneAt s.cfg b = none

/-- The state without what the spec says no program can read: run control, the trace, the serial
stream, clk_cycles, ta_out. -/
def programView (s : State) : State :=
  { s with
    clock := { s.clock with clkCycles := 0 }
    timer := { s.timer with taOut := false }
    events := []
    serialStream := []
    ctl := RunControl.reset }

/-- The bytes of the serial-transmit records of a trace, in order. -/
def transmitted : List Event → List Byte
  | [] => []
  | .serialTx b _ :: rest => b :: transmitted rest
  | .gpio .. :: rest => transmitted rest

/-- What `PeriphRead` of a lane returns after `PeriphWrite` of `v` to it, when the lane's byte was
`old` (R75). -/
def readBack (old v : Byte) : Lane → Byte
  | .ifg2 => (v &&& 0xFC#8) ||| 0x02#8
  | .p1in | .uca0rxbuf => old
  | _ => v

/-- What a byte `v` stored at `a` reads as afterwards: itself in backing storage, what the handlers
of its lane make of it at a mapped address (R63, R75). -/
def storedByte (s : State) (a : Word) (v : Byte) : Byte :=
  match laneAt s.cfg a with
  | none => v
  | some l => readBack (readByte a s) v l

end Sys2Proof.Claims

open Sys2Proof.Claims

/-! ## Encoding -/

/-- R100 to R109, R126, R145: no bit of a well-formed instruction is lost by its encoding, as words
and as the bytes memory holds (R68). -/
def Obligations.DecodeOfEncodeIsTheInstruction : Prop :=
  ∀ i : Instr, i.wf = true →
    (∀ rest : List Word, decode (encode i ++ rest) = .ok (i, rest)) ∧
    (∀ more : List Byte, decodeBytes (encodeBytes i ++ more) = .ok (i, wordsOfBytes more))

/-- R104, R119: every word has one meaning. What the decoder reads is well-formed, and the stream is
its encoding followed by what is left. -/
def Obligations.EncodeOfDecodeIsTheStream : Prop :=
  ∀ (stream rest : List Word) (i : Instr), decode stream = .ok (i, rest) →
    i.wf = true ∧ encode i ++ rest = stream

/-- R101 to R107: nine words written out from the spec's encodings decode to their instruction. The
last two words are reserved by R118, which says only that the step raises the exception: that the
decoder rejects them by name is log 13, the model's choice. -/
def Obligations.SampleWordsDecode : Prop :=
  decode [0x4035#16, 0x1234#16] = .ok (.mov .word (.immediate 0x1234#16) (.reg (.gpr 1)), []) ∧
  decode [0x4596#16, 0x0002#16, 0x0006#16] =
    .ok (.mov .word (.indexed (.gpr 1) 0x0002#16) (.indexed (.gpr 2) 0x0006#16), []) ∧
  decode [0x9475#16] = .ok (.cmp .byte (.autoinc (.gpr 0)) (.reg (.gpr 1)), []) ∧
  decode [0xD232#16] = .ok (.bis .word (.const .eight) (.reg .sr), []) ∧
  decode [0x1045#16] = .ok (.rrc .byte (.reg (.gpr 1)), []) ∧
  decode [0x12B0#16, 0xC018#16] = .ok (.call (.immediate 0xC018#16), []) ∧
  decode [0x1300#16] = .ok (.reti, []) ∧
  decode [0x23FD#16] = .ok (.jne 0x3FD#10, []) ∧
  decode [0xA405#16] = .ok (.illegalAxxx 0x405#12, []) ∧
  decode [0x4483#16, 0x0002#16] = .error (.reservedDestination 0x4483#16) ∧
  decode [0x1033#16] = .error (.reservedOperand 0x1033#16)

/-- R115 to R118 as the model's decoder splits them (log 13, the model's choice: R140 checks all four
rules after decoding and treats their words alike): on a stream long enough for every instruction,
the decoder rejects exactly the words of R118 that no reserved row holds, and reads a reserved row
exactly on the words of R115 to R117. -/
def Obligations.DecoderSeparatesReservedWords : Prop :=
  ∀ (w x y : Word) (more : List Word),
    ((∃ e, decode (w :: x :: y :: more) = .error e) ↔
      reservedOperandWord w ∧ ¬ reservedRowWord w) ∧
    ((∃ i rest, decode (w :: x :: y :: more) = .ok (i, rest) ∧ i.isReserved = true) ↔
      reservedRowWord w)

/-! ## The step -/

/-- R140, R279: a step runs the instruction the decoder reads at pc; what is added around `exec` is
`finishInstruction`, and nothing after a reserved row's exception. That the stream is read three
words ahead (log 9) and that the exception is a next state (log 3) is the model's choice. -/
def Obligations.StepRunsTheDecodedInstruction : Prop :=
  ∀ (s t : State) (i : Instr) (rest : List Word),
    s.ctl.runState = .running → breakpointHit s = false →
    decode [readWord s.pc s, readWord (s.pc + 2#16) s, readWord (s.pc + 4#16) s] = .ok (i, rest) →
    exec i s = .next t →
    step s = .next (if i.isReserved then t else finishInstruction i t)

/-- R290, R294, R356, R279 step 5: after an executed instruction the peripherals are ticked by 4,
the cycle cost is added, and the block halts if a step or a halt request was pending; nothing else
changes. That both bits are cleared where both were pending is log 14, the model's choice. -/
def Obligations.FinishTicksOnceAndHonoursHalts : Prop :=
  ∀ (i : Instr) (s : State),
    let t := finishInstruction i s
    let stop := s.ctl.stepPending || s.ctl.haltRequest
    t = { s with
      clock := { s.clock with clkCycles := s.clock.clkCycles + 4 }
      timer := timerTick 4 s.timer
      ctl :=
        { s.ctl with
          cycleCount := s.ctl.cycleCount + cycleCost s.cfg.cycles i
          runState := if stop then .halted else s.ctl.runState
          stepPending := if stop then false else s.ctl.stepPending
          haltRequest := if stop then false else s.ctl.haltRequest } }

/-- R115 to R118, R142, R270, R290: at a running block without a breakpoint in the way, a reserved
word raises `IllegalInstruction(ia, w)`, with no state change but the halt and the report and no
tick; every other word is executed to completion and ticked. R9 and R270 call the exception a fault:
that the step taking it is a next state, with the pair in the field `report`, is log 3, the model's
choice. -/
def Obligations.StepRaisesIllegalExactlyOnReservedWords : Prop :=
  ∀ s : State, s.ctl.runState = .running → breakpointHit s = false →
    (reservedWord (readWord s.pc s) →
      step s = .next { s with
        ctl := { s.ctl with
          runState := .halted
          stepPending := false
          report := some ⟨s.pc, readWord s.pc s⟩ } }) ∧
    (¬ reservedWord (readWord s.pc s) →
      ∃ (i : Instr) (u : State), i.wf = true ∧ i.isReserved = false ∧
        firstWord i = readWord s.pc s ∧ exec i s = .next u ∧
        step s = .next (finishInstruction i u))

/-- R282: an enabled breakpoint at pc halts the running block before the instruction; nothing else
changes. -/
def Obligations.BreakpointHaltsBeforeExecution : Prop :=
  ∀ (s : State) (b : Breakpoint), s.ctl.runState = .running → s.ctl.stepPending = false →
    b ∈ s.ctl.breakpoints → b.address = s.pc → b.enabled = true →
    step s = .next { s with ctl := { s.ctl with runState := .halted } }

/-- R284: `step` from a halted block executes exactly one instruction, the one that stands at pc,
whatever the breakpoints, and ticks after it; the block is halted again with step_pending 0. A
reserved word raises the exception instead. That the exception is a next state with the field
`report`, and that the `step` command drops an earlier report, is log 3, the model's choice. -/
def Obligations.SingleStepRunsOneInstruction : Prop :=
  ∀ s : State, s.ctl.runState = .halted →
    ∃ t, step (hostCommand .singleStep s) = .next t ∧
      t.ctl.runState = .halted ∧ t.ctl.stepPending = false ∧
      t.ctl.breakpoints = s.ctl.breakpoints ∧
      (reservedWord (readWord s.pc s) → t = { s with
        ctl := { s.ctl with
          stepPending := false
          report := some ⟨s.pc, readWord s.pc s⟩ } }) ∧
      (¬ reservedWord (readWord s.pc s) →
        ∃ (i : Instr) (rest : List Word) (u : State),
          decode [readWord s.pc s, readWord (s.pc + 2#16) s, readWord (s.pc + 4#16) s] =
            .ok (i, rest) ∧
          i.wf = true ∧ i.isReserved = false ∧ firstWord i = readWord s.pc s ∧
          exec i (hostCommand .singleStep s) = .next u ∧ t = finishInstruction i u ∧
          t.clock.clkCycles = s.clock.clkCycles + 4 ∧ t.ctl.report = none)

/-- R287: after the exception a later `step` fetches the same word and raises the same exception
again, and so does `run` or `continue` where no breakpoint stands at pc. R9 and R270 call the outcome
a fault: that it is the next state `f`, with the pair in the field `report`, is log 3, the model's
choice. -/
def Obligations.ResumeAfterIllegalRaisesItAgain : Prop :=
  ∀ s : State, reservedWord (readWord s.pc s) →
    let f := takeIllegal (readWord s.pc s) s
    step (hostCommand .singleStep f) = .next f ∧
    ((∀ b ∈ s.ctl.breakpoints, ¬ (b.address = s.pc ∧ b.enabled = true)) →
      step (hostCommand .run f) = .next f ∧ step (hostCommand .continueRun f) = .next f)

/-- R280, R270, R282, R284, R285: a step of a running block leaves the running state exactly at a
breakpoint, on a reserved word (a next state, log 3, the model's choice), at the end of a single
step, or on a halt request. -/
def Obligations.RunningIsLeftOnlyAsListed : Prop :=
  ∀ s t : State, s.ctl.runState = .running → step s = .next t →
    (t.ctl.runState = .halted ↔
      breakpointHit s = true ∨ reservedWord (readWord s.pc s) ∨ s.ctl.stepPending = true ∨
        s.ctl.haltRequest = true)

/-- R9 (and log 3, the model's choice, for the fault): a halted block makes no step; where it stands
halted by an illegal instruction it answers that fault. -/
def Obligations.HaltedBlockMakesNoStep : Prop :=
  ∀ s : State, s.ctl.runState = .halted →
    (s.ctl.report = none → step s = .refused .haltedAwaitingHost) ∧
    (∀ r, s.ctl.report = some r → step s = .fault (.illegalInstruction r.ia r.w))

/-- R281, R284, R285: what the host's run commands and the halt request write. Two clauses are the
model's choice: run, continue and step drop the field `report` (log 3; R281 changes nothing else),
and one of them given while running changes nothing (log 10). -/
def Obligations.HostRunCommands : Prop :=
  ∀ s : State,
    (s.ctl.runState = .halted →
      hostCommand .run s = { s with
        ctl := { s.ctl with runState := .running, stepPending := false, report := none } } ∧
      hostCommand .continueRun s = hostCommand .run s ∧
      hostCommand .singleStep s = { s with
        ctl := { s.ctl with runState := .running, stepPending := true, report := none } }) ∧
    (s.ctl.runState = .running →
      hostCommand .run s = s ∧ hostCommand .continueRun s = s ∧ hostCommand .singleStep s = s) ∧
    hostCommand .requestHalt s = { s with ctl := { s.ctl with haltRequest := true } }

/-- R283: set adds a breakpoint unless one with its address exists, clear removes it, neither
changes anything but the set, list changes nothing. That set takes the enabled bit as an argument, so
that it can add a disabled breakpoint, is log 16, the model's choice. The premise on the set is R35's unique
addresses, kept by `StepKeepsTheInvariant` and `HostActionsKeepTheInvariant`. -/
def Obligations.BreakpointCommands : Prop :=
  ∀ (s : State) (b c : Breakpoint) (a : Word), s.ctl.runState = .halted →
    breakpointsFrom 0 s.ctl.breakpoints = true →
    (c ∈ (hostCommand (.setBreakpoint b) s).ctl.breakpoints ↔
      c ∈ s.ctl.breakpoints ∨ (c = b ∧ ∀ d ∈ s.ctl.breakpoints, d.address ≠ b.address)) ∧
    (c ∈ (hostCommand (.clearBreakpoint a) s).ctl.breakpoints ↔
      c ∈ s.ctl.breakpoints ∧ c.address ≠ a) ∧
    hostCommand (.setBreakpoint b) s = { s with
      ctl := { s.ctl with
        breakpoints := (hostCommand (.setBreakpoint b) s).ctl.breakpoints } } ∧
    hostCommand (.clearBreakpoint a) s = { s with
      ctl := { s.ctl with
        breakpoints := (hostCommand (.clearBreakpoint a) s).ctl.breakpoints } } ∧
    hostCommand .listBreakpoints s = s

/-! ## Invariants and rules of the whole machine -/

/-- R142, R77, R271: no instruction stops part-way; `exec` answers a next state for every instruction,
in every state. Two kinds of term rest on the model's choice: a reserved row, whose fault of R9 is a
next state with a report (log 3), and a term that stands for no word of the hardware (log 12). -/
def Obligations.EveryInstructionGivesANextState : Prop :=
  ∀ (i : Instr) (s : State), ∃ t, exec i s = .next t

/-- The state the model names for reset meets the invariant; its clause on the field `report` is log
3, the model's choice. -/
def Obligations.ResetMeetsTheInvariant : Prop := Inv State.reset

/-- Every block the host can construct meets the invariant (R340); its clause on the field `report`
is log 3, the model's choice. -/
def Obligations.ConstructedBlockMeetsTheInvariant : Prop :=
  ∀ (a : ResetArgs) (s : State), construct a = some s → Inv s

/-- R23, R25, R35: pc stays word-aligned, bits 15:9 of sr stay 0, memory keeps its canonical form,
breakpoint addresses stay unique, a report stands only while the block is halted (log 3, the model's
choice): every step keeps the invariant, from every state that meets it. -/
def Obligations.StepKeepsTheInvariant : Prop :=
  ∀ s t : State, Inv s → step s = .next t → Inv t

/-- R35, R283: every action of the host keeps the invariant, the breakpoint commands its unique
addresses. Its clause that no report stands while the block runs survives run, continue and step only
because they drop the report: log 3, the model's choice. -/
def Obligations.HostActionsKeepTheInvariant : Prop :=
  ∀ (c : HostCommand) (s : State), Inv s → Inv (hostCommand c s)

/-- R35, R6, R304: no step changes the breakpoints, the open parameters or the outside pin levels. -/
def Obligations.StepKeepsWhatTheHostOwns : Prop :=
  ∀ s t : State, step s = .next t →
    t.cfg = s.cfg ∧ t.ctl.breakpoints = s.ctl.breakpoints ∧ t.gpio.pinIn = s.gpio.pinIn

/-- R38, R39, R308: the event list and the serial stream are append-only, and a step appends to the
stream exactly the bytes of the serial records it appends to the trace, in order. -/
def Obligations.StepAppendsToTheTrace : Prop :=
  ∀ s t : State, step s = .next t →
    ∃ new : List Event, t.events = s.events ++ new ∧
      t.serialStream = s.serialStream ++ transmitted new

/-- R325, R38, R39, R294, R299: what an instruction computes does not depend on breakpoints, run
control, the trace, the serial stream, clk_cycles or ta_out: two states that agree but for these
give next states that agree but for these. (A reserved row changes run control only.) -/
def Obligations.ProgramCannotSeeHostState : Prop :=
  ∀ (i : Instr) (s1 s2 t1 t2 : State), programView s1 = programView s2 →
    exec i s1 = .next t1 → exec i s2 = .next t2 → programView t1 = programView t2

/-- R22: after a non-reserved instruction that does not write pc as a destination, pc is ia + 2 *
(number of words of the instruction). -/
def Obligations.PcMovesPastTheWords : Prop :=
  ∀ (i : Instr) (s t : State), i.wf = true → i.isReserved = false → writesPc i = false →
    exec i s = .next t → t.pc = s.pc + BitVec.ofNat 16 (2 * (encode i).length)

/-! ## Reset and load -/

/-- R45, R340: the values the spec states for reset, for every choice of the open parameters. -/
def Obligations.ConstructedBlockHasTheResetValues : Prop :=
  ∀ (a : ResetArgs) (s : State), construct a = some s →
    s.pc = 0xC000#16 ∧ s.sr = 0#16 ∧
    s.sp = a.spInit ∧ s.gpr = a.gprInit ∧
    s.clock = ⟨0#8, 0#8, 0#8, 0⟩ ∧ s.timer = ⟨0#16, 0#16, 0#16, false⟩ ∧
    s.gpio.p1dir = 0#8 ∧ s.gpio.p1out = 0#8 ∧
    s.serial = ⟨0#8, 0#6⟩ ∧ s.serial.readIFG2 = 0x02#8 ∧
    s.ctl.runState = .halted ∧ s.ctl.breakpoints = [] ∧ s.events = [] ∧ s.serialStream = [] ∧
    s.ctl.stepPending = false ∧ s.ctl.haltRequest = false ∧ s.ctl.cycleCount = 0

/-- R343, R344, R78: byte k of the firmware image stands at 0xC000 + k and byte k of the stub at
0x0C00 + k, as `ReadByte` gives it; every other byte is `MEM_INIT`'s; an image that does not fit is
refused and no block exists. -/
def Obligations.ImagesStandAtTheirAddresses : Prop :=
  ∀ a : ResetArgs,
    (∀ s, construct a = some s →
      (∀ k (h : k < a.fwImage.length), readByte (0xC000#16 + BitVec.ofNat 16 k) s = a.fwImage[k]) ∧
      (∀ k (h : k < a.bootStub.length),
        readByte (0x0C00#16 + BitVec.ofNat 16 k) s = a.bootStub[k]) ∧
      (∀ b : Nat, (b < 0x0C00 ∨ 0x0C00 + a.bootStub.length ≤ b) →
        (b < 0xC000 ∨ 0xC000 + a.fwImage.length ≤ b) → readCell s.mem b = readCell a.memInit b)) ∧
    (16384 < a.fwImage.length → construct a = none)

/-! ## Memory -/

/-- R66, R67, R68, R69, R70: a word stored in backing storage, at any address, leaves its low byte at
the address and its high byte at the next one modulo 2^16, and reads back; a byte store writes the
one byte. The premise on memory is its canonical form (`StepKeepsTheInvariant`). -/
def Obligations.StoresAreLittleEndian : Prop :=
  ∀ (ia a v : Word) (s : State), Memory.wf s.mem = true →
    (laneAt s.cfg a = none → laneAt s.cfg (a + 1#16) = none →
      readMem .byte a (writeMem ia .word a v s) = v &&& 0x00FF#16 ∧
      readMem .byte (a + 1#16) (writeMem ia .word a v s) = v >>> 8 ∧
      readMem .word a (writeMem ia .word a v s) = v) ∧
    (laneAt s.cfg a = none → readMem .byte a (writeMem ia .byte a v s) = v &&& 0x00FF#16)

/-- R63, R161: a store of n bytes changes no byte but the n it covers, mapped or not, P1IN excepted
where P1OUT or P1DIR is stored to (R304). -/
def Obligations.StoresChangeOnlyTheirBytes : Prop :=
  ∀ (ia a c v : Word) (n : Size) (s : State), outsideStore s n a c →
    readByte c (writeMem ia n a v s) = readByte c s

/-- R75, R33: what a byte written to a mapped address reads as afterwards: IFG2 keeps bits 7:2 and
reads 10 below them, P1IN and UCA0RXBUF ignore the write, every other lane returns the byte. Backing
storage is not touched (R63). -/
def Obligations.MappedBytesReadBackAsTheirHandlersSay : Prop :=
  ∀ (ia a : Word) (v : Byte) (l : Lane) (s : State), laneAt s.cfg a = some l →
    readByte a (writeByte ia a v s) = readBack (readByte a s) v l ∧
    (writeByte ia a v s).mem = s.mem

/-- R75 with the default addresses, R62: the fifteen mapped byte addresses and their lanes. -/
def Obligations.DefaultAddressesOfTheMappedRegisters : Prop :=
  (∀ p ∈ [(0x0003#16, Lane.ifg2), (0x0020#16, .p1in), (0x0021#16, .p1out), (0x0022#16, .p1dir),
      (0x0056#16, .dcoctl), (0x0057#16, .bcsctl1), (0x0058#16, .bcsctl2),
      (0x0066#16, .uca0rxbuf), (0x0067#16, .uca0txbuf), (0x0160#16, .tactlLow),
      (0x0161#16, .tactlHigh), (0x0170#16, .tarLow), (0x0171#16, .tarHigh),
      (0x0172#16, .taccr0Low), (0x0173#16, .taccr0High)],
    laneAt Config.default p.1 = some p.2) ∧
  (∀ a l, laneAt Config.default a = some l →
    a ∈ [0x0003#16, 0x0020#16, 0x0021#16, 0x0022#16, 0x0056#16, 0x0057#16, 0x0058#16, 0x0066#16,
      0x0067#16, 0x0160#16, 0x0161#16, 0x0170#16, 0x0171#16, 0x0172#16, 0x0173#16])

/-! ## Peripherals -/

/-- R303, R312: a write to P1OUT appends one event per pin whose output bit changes, in ascending pin
order, with the pin's direction, its new value and the address of the writing instruction, and none
for an unchanged pin. -/
def Obligations.P1OutWriteReportsEachChangedPin : Prop :=
  ∀ (ia a : Word) (v : Byte) (s : State), laneAt s.cfg a = some .p1out →
    ∃ pins : List (Fin 8),
      (pins.map Fin.val).Pairwise (· < ·) ∧
      (∀ i : Fin 8, i ∈ pins ↔ v.getLsbD i ≠ s.gpio.p1out.getLsbD i) ∧
      writeByte ia a v s = { s with
        gpio := { s.gpio with p1out := v }
        events := s.events ++ pins.map fun i =>
          .gpio s.cfg.gpioPort i (s.gpio.p1dir.getLsbD i) (v.getLsbD i) ia }

/-- R304: bit i of P1IN is P1OUT[i] for an output pin, the outside level for an input pin; a write
to P1IN is ignored. -/
def Obligations.P1InReadsEachPin : Prop :=
  ∀ (ia a : Word) (v : Byte) (s : State) (i : Fin 8), laneAt s.cfg a = some .p1in →
    (readByte a s).getLsbD i =
      (if s.gpio.p1dir.getLsbD i then s.gpio.p1out.getLsbD i else s.gpio.pinIn.getLsbD i) ∧
    writeByte ia a v s = s

/-- R308, R312: every write to UCA0TXBUF transmits its byte at once, a repeated one too. -/
def Obligations.TxBufWriteTransmits : Prop :=
  ∀ (ia a : Word) (v : Byte) (s : State), laneAt s.cfg a = some .uca0txbuf →
    writeByte ia a v s = { s with
      serial := { s.serial with uca0txbuf := v }
      events := s.events ++ [.serialTx v ia]
      serialStream := s.serialStream ++ [v] }

/-- R296, R298, R299: the timer's tick. Stopped and period 0: nothing. Overflow: the remainder stays
in TAR, ta_out toggles, TAIFG is set exactly if TAIE is 1. Else TAR counts up by the amount. -/
def Obligations.TimerTickCountsAndOverflows : Prop :=
  ∀ (e : Nat) (t : Timer),
    let mc := t.tactl.extractLsb' 4 2
    let p := if mc = 0b10#2 then 0x10000 else t.taccr0.toNat
    (mc = 0b00#2 ∨ p = 0 → timerTick e t = t) ∧
    (mc ≠ 0b00#2 → p ≠ 0 → p ≤ t.tar.toNat + e →
      (timerTick e t).tar.toNat = (t.tar.toNat + e - p) % 65536 ∧
      (timerTick e t).taOut = !t.taOut ∧ (timerTick e t).taccr0 = t.taccr0 ∧
      (timerTick e t).tactl.getLsbD 0 = (t.tactl.getLsbD 0 || t.tactl.getLsbD 1) ∧
      (∀ k, k ≠ 0 → (timerTick e t).tactl.getLsbD k = t.tactl.getLsbD k)) ∧
    (mc ≠ 0b00#2 → p ≠ 0 → t.tar.toNat + e < p →
      (timerTick e t).tar.toNat = t.tar.toNat + e ∧
      timerTick e t = { t with tar := (timerTick e t).tar })

/-! ## Operands -/

/-- R144 to R150: value, location and effect of every source mode, from the state in which the
operand is resolved (pc past the instruction word). The clauses for `reg`, `indexed` and `indirect`
range over all registers: on a register whose fields mean another mode or a constant (R144, R145) the
term stands for no word, and what the clause says of it is log 12, the model's choice. -/
def Obligations.SourceModes : Prop :=
  ∀ (n : Size) (s : State),
    (∀ r, resolveSrc (.reg r) n s = ⟨trunc n (readReg r s), .reg r, s⟩) ∧
    (∀ r x, resolveSrc (.indexed r x) n s =
      ⟨readMem n (readReg r s + x) s, .mem (readReg r s + x), { s with pc := s.pc + 2#16 }⟩) ∧
    (∀ x, resolveSrc (.symbolic x) n s =
      ⟨readMem n (s.pc + x) s, .mem (s.pc + x), { s with pc := s.pc + 2#16 }⟩) ∧
    (∀ x, resolveSrc (.absolute x) n s = ⟨readMem n x s, .mem x, { s with pc := s.pc + 2#16 }⟩) ∧
    (∀ r, resolveSrc (.indirect r) n s =
      ⟨readMem n (readReg r s) s, .mem (readReg r s), s⟩) ∧
    (resolveSrc (.autoinc .sp) n s = ⟨readMem n s.sp s, .mem s.sp, { s with sp := s.sp + 2#16 }⟩) ∧
    (∀ i : Fin 12, resolveSrc (.autoinc (.gpr i)) n s =
      ⟨readMem n s.gpr[i] s, .mem s.gpr[i],
        { s with gpr := s.gpr.set i (s.gpr[i] + (if n = .byte then 1#16 else 2#16)) }⟩) ∧
    (∀ v, resolveSrc (.immediate v) n s =
      ⟨if n = .byte then v &&& 0x00FF#16 else v, .mem s.pc, { s with pc := s.pc + 2#16 }⟩) ∧
    (resolveSrc (.const .zero) n s = ⟨0#16, .const, s⟩) ∧
    (resolveSrc (.const .one) n s = ⟨1#16, .const, s⟩) ∧
    (resolveSrc (.const .two) n s = ⟨2#16, .const, s⟩) ∧
    (resolveSrc (.const .four) n s = ⟨4#16, .const, s⟩) ∧
    (resolveSrc (.const .eight) n s = ⟨8#16, .const, s⟩) ∧
    (resolveSrc (.const .minusOne) n s =
      ⟨if n = .byte then 0x00FF#16 else 0xFFFF#16, .const, s⟩)

/-- R154, R155: location of every destination mode, and what reading each location gives. The clause
for `indexed` ranges over all registers: on pc and sr its fields mean another mode, on register 3 they
are reserved (R154, R118), and what the clause says there is log 12, the model's choice. -/
def Obligations.DestinationModes : Prop :=
  ∀ (n : Size) (s : State),
    (∀ r, resolveDst (.reg r) s = ⟨.reg r, s⟩) ∧
    (∀ r x, resolveDst (.indexed r x) s =
      ⟨.mem (readReg r s + x), { s with pc := s.pc + 2#16 }⟩) ∧
    (∀ x, resolveDst (.symbolic x) s = ⟨.mem (s.pc + x), { s with pc := s.pc + 2#16 }⟩) ∧
    (∀ x, resolveDst (.absolute x) s = ⟨.mem x, { s with pc := s.pc + 2#16 }⟩) ∧
    (readLoc n (.reg .cg) s = 0#16) ∧
    (∀ r, readLoc .word (.reg r) s = readReg r s) ∧
    (∀ r, readLoc .byte (.reg r) s = readReg r s &&& 0x00FF#16) ∧
    (∀ ea, readLoc n (.mem ea) s = readMem n ea s)

/-- R160, R161: what a result written to each register leaves there, a byte result (below 256)
zero-extended, with nothing else changed; a result written to memory is `MemWrite` at the location, a
mapped address runs its write handler with ia; the n bytes read as stored and no other byte changes,
the neighbour of a byte store neither (P1IN excepted, which is computed from P1OUT and P1DIR, R304),
nor any register, the run control, the parameters. The premise on memory is its canonical form
(`StepKeepsTheInvariant`). -/
def Obligations.WritingAResult : Prop :=
  ∀ (ia v : Word) (n : Size) (s : State),
    (writeLoc ia n (.reg .pc) v s = { s with pc := v &&& 0xFFFE#16 }) ∧
    (writeLoc ia n (.reg .sp) v s = { s with sp := v }) ∧
    (writeLoc ia n (.reg .sr) v s = { s with sr := v &&& 0x01FF#16 }) ∧
    (writeLoc ia n (.reg .cg) v s = s) ∧
    (∀ i : Fin 12, writeLoc ia n (.reg (.gpr i)) v s = { s with gpr := s.gpr.set i v }) ∧
    (n = .byte → v.toNat < 256 → ∀ r, (readReg r (writeLoc ia n (.reg r) v s)).toNat < 256) ∧
    (∀ ea, writeLoc ia .byte (.mem ea) v s = writeByte ia ea (v.setWidth 8) s) ∧
    (∀ ea, writeLoc ia .word (.mem ea) v s =
      writeByte ia (ea + 1#16) ((v >>> 8).setWidth 8) (writeByte ia ea (v.setWidth 8) s)) ∧
    (∀ ea l, laneAt s.cfg ea = some l →
      writeLoc ia .byte (.mem ea) v s = periphWrite ia l (v.setWidth 8) s) ∧
    (Memory.wf s.mem = true → ∀ ea,
      (n = .byte ∨ laneAt s.cfg ea ≠ some .p1in →
        readByte ea (writeLoc ia n (.mem ea) v s) = storedByte s ea (v.setWidth 8)) ∧
      (n = .word → laneAt s.cfg (ea + 1#16) ≠ some .p1in →
        readByte (ea + 1#16) (writeLoc ia n (.mem ea) v s) =
          storedByte s (ea + 1#16) ((v >>> 8).setWidth 8))) ∧
    (∀ ea c, outsideStore s n ea c →
      readByte c (writeLoc ia n (.mem ea) v s) = readByte c s) ∧
    (∀ ea r, readReg r (writeLoc ia n (.mem ea) v s) = readReg r s) ∧
    (∀ ea, storeKeeps s (writeLoc ia n (.mem ea) v s))

/-- R26, R162, R164: writing the flags sets bits 0, 1, 2 and 8 of sr to C, Z, N, V and keeps every
other bit; nothing else changes. -/
def Obligations.FlagsAreTheirStatusBits : Prop :=
  ∀ (f : Flags) (s : State),
    carry (setFlags f s) = f.c ∧ zero (setFlags f s) = f.z ∧ negative (setFlags f s) = f.n ∧
    Machine.overflow (setFlags f s) = f.v ∧ otherStatusBitsKept s (setFlags f s) ∧
    setFlags f s = { s with sr := (setFlags f s).sr }

/-! ## Format I -/

/-- R180: MOV completes on every form; the destination receives the source value, no flag is set. -/
def Obligations.MovWritesTheSourceValue : Prop :=
  ∀ (n : Size) (src : Src) (dst : Dst) (s : State), (Instr.mov n src dst).wf = true →
    let o := resolveOperands n src dst s
    exec (.mov n src dst) s = .next (writeLoc s.pc n o.loc o.value o.state)

/-- R156, R191: the order of a Format I instruction's operands: the instruction word, the source,
then the destination, each from the state the one before leaves. -/
def Obligations.OperandsAreResolvedInOrder : Prop :=
  ∀ (n : Size) (src : Src) (dst : Dst) (s : State),
    let a := resolveSrc src n { s with pc := s.pc + 2#16 }
    let o := resolveOperands n src dst s
    o.value = a.value ∧ o.loc = (resolveDst dst a.state).loc ∧
    o.state = (resolveDst dst a.state).state

/-- R181, R182, R165: ADD and ADDC complete on every form with the sum modulo 2^W (with the old
carry, for ADDC); C is the unsigned overflow, V the signed overflow, Z and N the result's. -/
def Obligations.AdditionsWriteSumAndFlags : Prop :=
  ∀ (n : Size) (src : Src) (dst : Dst) (s : State) (i : Instr) (cin : Nat),
    (i = .add n src dst ∧ cin = 0) ∨ (i = .addc n src dst ∧ cin = carryNat s) → i.wf = true →
    let o := resolveOperands n src dst s
    let d := readLoc n o.loc o.state
    let full := d.toNat + o.value.toNat + cin
    let res := full % modulus n
    exec i s = .next (setFlags
      { c := decide (modulus n ≤ full)
        z := decide (res = 0)
        n := decide (modulus n ≤ 2 * res)
        v := decide (outOfRange n (signed n d + signed n o.value + cin)) }
      (writeLoc s.pc n o.loc (BitVec.ofNat 16 res) o.state))

/-- R184, R183, R166: SUB and SUBC complete on every form with dst - src modulo 2^W (less the borrow
1 - C, for SUBC); C = 1 means no borrow, V is the signed overflow, Z and N the result's. -/
def Obligations.SubtractionsWriteDifferenceAndFlags : Prop :=
  ∀ (n : Size) (src : Src) (dst : Dst) (s : State) (i : Instr) (borrow : Nat),
    (i = .sub n src dst ∧ borrow = 0) ∨ (i = .subc n src dst ∧ borrow = 1 - carryNat s) →
    i.wf = true →
    let o := resolveOperands n src dst s
    let d := readLoc n o.loc o.state
    let res := (((d.toNat : Int) - o.value.toNat - borrow) % modulus n).toNat
    exec i s = .next (setFlags
      { c := decide (o.value.toNat + borrow ≤ d.toNat)
        z := decide (res = 0)
        n := decide (modulus n ≤ 2 * res)
        v := decide (outOfRange n (signed n d - signed n o.value - borrow)) }
      (writeLoc s.pc n o.loc (BitVec.ofNat 16 res) o.state))

/-- R185: CMP completes on every form with SUB's flags and writes no result: Z exactly if equal, C
exactly if dst >= src unsigned, N xor V exactly if dst < src signed. -/
def Obligations.CmpComparesAndWritesNothing : Prop :=
  ∀ (n : Size) (src : Src) (dst : Dst) (s : State), (Instr.cmp n src dst).wf = true →
    let o := resolveOperands n src dst s
    let d := readLoc n o.loc o.state
    ∃ f : Flags, exec (.cmp n src dst) s = .next (setFlags f o.state) ∧
      f.z = decide (d = o.value) ∧ f.c = decide (o.value.toNat ≤ d.toNat) ∧
      (xor f.n f.v) = decide (signed n d < signed n o.value) ∧
      f.v = decide (outOfRange n (signed n d - signed n o.value))

/-- R186, R190, R167: BIT and AND complete on every form with the bitwise and; C is not Z, V is
cleared, N is the top bit; BIT writes no result. -/
def Obligations.AndAndBitSetLogicFlags : Prop :=
  ∀ (n : Size) (src : Src) (dst : Dst) (s : State), (Instr.and n src dst).wf = true →
    let o := resolveOperands n src dst s
    let res := readLoc n o.loc o.state &&& o.value
    let f : Flags :=
      { c := decide (res ≠ 0#16), z := decide (res = 0#16)
        n := decide (signed n res < 0), v := false }
    exec (.and n src dst) s = .next (setFlags f (writeLoc s.pc n o.loc res o.state)) ∧
    exec (.bit n src dst) s = .next (setFlags f o.state)

/-- R189, R167: XOR completes on every form; C is not Z, V exactly if both operands are negative. -/
def Obligations.XorSetsVWhenBothAreNegative : Prop :=
  ∀ (n : Size) (src : Src) (dst : Dst) (s : State), (Instr.xor n src dst).wf = true →
    let o := resolveOperands n src dst s
    let d := readLoc n o.loc o.state
    let res := d ^^^ o.value
    exec (.xor n src dst) s = .next (setFlags
      { c := decide (res ≠ 0#16), z := decide (res = 0#16), n := decide (signed n res < 0)
        v := decide (signed n d < 0 ∧ signed n o.value < 0) }
      (writeLoc s.pc n o.loc res o.state))

/-- R187, R188: BIC clears in the destination the bits set in the source, BIS sets them; no flag is
set; both complete on every form. -/
def Obligations.BicAndBisWriteBits : Prop :=
  ∀ (n : Size) (src : Src) (dst : Dst) (s : State), (Instr.bic n src dst).wf = true →
    let o := resolveOperands n src dst s
    let d := readLoc n o.loc o.state
    exec (.bic n src dst) s = .next (writeLoc s.pc n o.loc (d &&& ~~~o.value) o.state) ∧
    exec (.bis n src dst) s = .next (writeLoc s.pc n o.loc (d ||| o.value) o.state)

/-! ## Format II -/

/-- R220, R167: RRC completes on every operand it may have: the old C enters at the top, bit 0 leaves
into C, N is the old C, V is cleared. -/
def Obligations.RrcRotatesThroughCarry : Prop :=
  ∀ (n : Size) (opd : Src) (s : State), (Instr.rrc n opd).wf = true →
    let o := resolveSrc opd n { s with pc := s.pc + 2#16 }
    ∃ res : Word,
      2 * res.toNat + o.value.toNat % 2 = o.value.toNat + carryNat s * modulus n ∧
      exec (.rrc n opd) s = .next (setFlags
        { c := decide (o.value.toNat % 2 = 1), z := decide (res = 0#16), n := carry s, v := false }
        (writeLoc s.pc n o.loc res o.state))

/-- R222, R167: RRA completes on every operand it may have: the signed half, rounded toward minus
infinity; bit 0 leaves into C, N is the sign, V is cleared. -/
def Obligations.RraHalvesSigned : Prop :=
  ∀ (n : Size) (opd : Src) (s : State), (Instr.rra n opd).wf = true →
    let o := resolveSrc opd n { s with pc := s.pc + 2#16 }
    ∃ res : Word,
      res.toNat < modulus n ∧ signed n res = signed n o.value / 2 ∧
      exec (.rra n opd) s = .next (setFlags
        { c := decide (o.value.toNat % 2 = 1), z := decide (res = 0#16)
          n := decide (signed n o.value < 0), v := false }
        (writeLoc s.pc n o.loc res o.state))

/-- R221, R223: SWPB exchanges the two bytes and sets no flag; SXT sign-extends the low byte, C is
not Z, V is cleared; both complete on every operand they may have. -/
def Obligations.SwpbAndSxtTransformTheWord : Prop :=
  ∀ (opd : Src) (s : State), (Instr.swpb opd).wf = true →
    let o := resolveSrc opd .word { s with pc := s.pc + 2#16 }
    let ext := (o.value.setWidth 8).signExtend 16
    exec (.swpb opd) s =
      .next (writeLoc s.pc .word o.loc ((o.value <<< 8) ||| (o.value >>> 8)) o.state) ∧
    exec (.sxt opd) s = .next (setFlags
      { c := decide (ext ≠ 0#16), z := decide (ext = 0#16), n := o.value.getLsbD 7, v := false }
      (writeLoc s.pc .word o.loc ext o.state))

/-- R224: PUSH completes on every operand: resolved with the old sp, then sp - 2 (also for a byte),
then a store of n bytes at the new sp. -/
def Obligations.PushStoresBelowTheOldSp : Prop :=
  ∀ (n : Size) (opd : Src) (s : State), (Instr.push n opd).wf = true →
    let o := resolveSrc opd n { s with pc := s.pc + 2#16 }
    exec (.push n opd) s = .next
      (writeMem s.pc n (o.state.sp - 2#16) o.value { o.state with sp := o.state.sp - 2#16 })

/-- R225: CALL completes on every operand: the operand's value is the target, the address of the next
instruction is pushed, pc takes the target without its bit 0. -/
def Obligations.CallPushesTheReturnAddress : Prop :=
  ∀ (opd : Src) (s : State), (Instr.call opd).wf = true →
    let o := resolveSrc opd .word { s with pc := s.pc + 2#16 }
    o.state.pc = s.pc + BitVec.ofNat 16 (2 * (encode (.call opd)).length) ∧
    ∃ t, exec (.call opd) s = .next t ∧
      t = { writeMem s.pc .word (o.state.sp - 2#16) o.state.pc
              { o.state with sp := o.state.sp - 2#16 } with
            pc := o.value &&& 0xFFFE#16 }

/-- R226: RETI completes in every state: sr and pc are popped, sp + 4; nothing else changes. -/
def Obligations.RetiPopsStatusAndPc : Prop :=
  ∀ s : State,
    exec .reti s = .next { s with
      sr := readWord s.sp s &&& 0x01FF#16
      pc := readWord (s.sp + 2#16) s &&& 0xFFFE#16
      sp := s.sp + 4#16 }

/-- R224, R225, R226, R180 composed: in backing storage, CALL followed by RET (`MOV @SP+, PC`)
returns to the instruction after the CALL with sp as it was, when that address is even. -/
def Obligations.CallThenRetReturns : Prop :=
  ∀ (opd : Src) (s t u : State), (Instr.call opd).wf = true → Memory.wf s.mem = true →
    s.pc.getLsbD 0 = false → opd ≠ .autoinc .sp →
    laneAt s.cfg (s.sp - 2#16) = none → laneAt s.cfg (s.sp - 1#16) = none →
    exec (.call opd) s = .next t → exec (.mov .word (.autoinc .sp) (.reg .pc)) t = .next u →
    u.pc = s.pc + BitVec.ofNat 16 (2 * (encode (.call opd)).length) ∧ u.sp = s.sp

/-! ## Jumps and the reserved rows -/

/-- R250 to R258, R110: each jump completes in every state: pc takes ia + 2 + 2 * off modulo 2^16
(without bit 0) where its condition holds, else ia + 2; nothing else changes. -/
def Obligations.JumpsGoToTheirTarget : Prop :=
  ∀ (i : Instr) (off : BitVec 10) (taken : Bool) (s : State), jump s i = some (off, taken) →
    exec i s = .next { s with
      pc := if taken then (s.pc + 2#16 + (off.signExtend 16 <<< 1)) &&& 0xFFFE#16
            else s.pc + 2#16 }

/-- R270, R115 to R117: each reserved row raises `IllegalInstruction(ia, w)`: every register, flag,
memory byte and peripheral register keeps its value, pc stays at ia, the block halts, step_pending is
0, and the pair is reported. R9 and R270 call this outcome a fault: that `exec` answers it as a next
state, with the pair in the field `report`, is log 3, the model's choice. -/
def Obligations.ReservedRowsRaiseIllegalInstruction : Prop :=
  ∀ (i : Instr) (s : State), i.isReserved = true →
    exec i s = .next { s with
      ctl := { s.ctl with
        runState := .halted
        stepPending := false
        report := some ⟨s.pc, firstWord i⟩ } }

/-- R286: `JMP $` parks: a step leaves the registers, the flags, memory, the GPIO and serial modules,
the clock's registers, the trace and the serial stream as they are; clk_cycles grows by 4, the timer
ticks, and the run control is that of the end of any instruction
(`FinishTicksOnceAndHonoursHalts`). -/
def Obligations.ParkedProgramOnlyTicks : Prop :=
  ∀ s : State, s.ctl.runState = .running → breakpointHit s = false → s.pc.getLsbD 0 = false →
    parked s = true →
    step s = .next { s with
      clock := { s.clock with clkCycles := s.clock.clkCycles + 4 }
      timer := timerTick 4 s.timer
      ctl := (finishInstruction (.jmp 0x3FF#10) s).ctl }

/-! ## Frames -/

/-- R160, R168, R185, R186: a Format I instruction that writes no result, or whose destination is a
register, changes nothing outside the register file and no byte of memory; of the registers, only pc,
sr, an autoincremented source register and the destination; of sr, only C, Z, N, V, and not even
those for MOV, BIC, BIS, unless sr is the destination. -/
def Obligations.FrameOfRegisterResults : Prop :=
  ∀ (i : Instr) (n : Size) (src : Src) (dst : Dst) (s t : State),
    formatI i = some (n, src, dst) → i.wf = true →
    (noResult i = true ∨ ∃ r, dst = .reg r) → exec i s = .next t →
    onlyRegistersChange s t ∧
    (∀ a, readByte a t = readByte a s) ∧
    (∀ r, r ≠ .pc → r ≠ .sr → src ≠ .autoinc r → (noResult i = false → dst ≠ .reg r) →
      readReg r t = readReg r s) ∧
    (noResult i = true ∨ dst ≠ .reg .sr →
      otherStatusBitsKept s t ∧ (keepsFlags i = true → t.sr = s.sr))

/-- R161, R168: a Format I instruction whose result goes to memory changes no byte outside the n it
stores at the address its operands resolve to (P1IN excepted where P1OUT or P1DIR is stored to); of
the registers, only pc, sr and an autoincremented source register; of sr, only C, Z, N, V, and not
even those for MOV, BIC, BIS; the trace only where the store reaches a mapped register. -/
def Obligations.FrameOfMemoryResults : Prop :=
  ∀ (i : Instr) (n : Size) (src : Src) (dst : Dst) (s t : State) (ea : Word),
    formatI i = some (n, src, dst) → i.wf = true → noResult i = false →
    (resolveOperands n src dst s).loc = .mem ea → exec i s = .next t →
    (∀ c, outsideStore s n ea c → readByte c t = readByte c s) ∧
    storeKeeps s t ∧
    (plainStorage s n ea → t.events = s.events ∧ t.serialStream = s.serialStream) ∧
    (∀ r, r ≠ .pc → r ≠ .sr → src ≠ .autoinc r → readReg r t = readReg r s) ∧
    otherStatusBitsKept s t ∧ (keepsFlags i = true → t.sr = s.sr)

/-- R151, R161, R168: RRC, RRA, SWPB and SXT change, with a register operand, nothing outside the
register file; with a memory operand, no byte outside the n they store at the address the operand
resolves to; of the registers, only pc, sr, the operand's register or the autoincremented one; of sr,
only C, Z, N, V, and not even those for SWPB, unless sr is the operand. -/
def Obligations.FrameOfModifyInstructions : Prop :=
  ∀ (i : Instr) (n : Size) (opd : Src) (s t : State),
    modified i = some (n, opd) → i.wf = true → exec i s = .next t →
    let o := resolveSrc opd n { s with pc := s.pc + 2#16 }
    ((∃ r, opd = .reg r) → onlyRegistersChange s t ∧ ∀ a, readByte a t = readByte a s) ∧
    (∀ ea, o.loc = .mem ea →
      (∀ c, outsideStore s n ea c → readByte c t = readByte c s) ∧
      (plainStorage s n ea → t.events = s.events ∧ t.serialStream = s.serialStream)) ∧
    storeKeeps s t ∧
    (∀ r, r ≠ .pc → r ≠ .sr → opd ≠ .autoinc r → opd ≠ .reg r → readReg r t = readReg r s) ∧
    (opd ≠ .reg .sr → otherStatusBitsKept s t ∧ (keepsFlags i = true → t.sr = s.sr))

/-- R224, R225, R168: PUSH and CALL change no byte outside the n they store at the new sp, which is
the sp their operand leaves less 2; of the registers, only pc, sp and an autoincremented register;
sr not at all. -/
def Obligations.FrameOfPushAndCall : Prop :=
  ∀ (i : Instr) (n : Size) (opd : Src) (s t : State),
    i = .push n opd ∨ (i = .call opd ∧ n = .word) → i.wf = true → exec i s = .next t →
    let o := resolveSrc opd n { s with pc := s.pc + 2#16 }
    let ea := o.state.sp - 2#16
    (∀ c, outsideStore s n ea c → readByte c t = readByte c s) ∧
    storeKeeps s t ∧
    (plainStorage s n ea → t.events = s.events ∧ t.serialStream = s.serialStream) ∧
    (∀ r, r ≠ .pc → r ≠ .sp → opd ≠ .autoinc r → readReg r t = readReg r s) ∧
    t.sp = ea ∧ t.sr = s.sr

/-- R226, R250: RETI changes only pc, sp and sr; a jump only pc; neither changes a byte of memory or
anything outside the register file. -/
def Obligations.FrameOfRetiAndJumps : Prop :=
  ∀ (i : Instr) (s t : State), i = .reti ∨ (jump s i).isSome = true → exec i s = .next t →
    onlyRegistersChange s t ∧
    (∀ a, readByte a t = readByte a s) ∧
    t.gpr = s.gpr ∧
    (i ≠ .reti → t.sp = s.sp ∧ t.sr = s.sr)
end

