-- ==== Sys2Proof/Laws/Bytes.lean ====
section
/-! SUPPORT. A word and its two bytes, and the bits of two peripheral registers. -/

namespace Sys2Proof.Machine

@[simp] theorem lowByte_mkWord (hi lo : Byte) : lowByte (mkWord hi lo) = lo := by
  apply BitVec.eq_of_getLsbD_eq
  intro i h
  simp only [lowByte, mkWord, BitVec.getLsbD_extractLsb', BitVec.getLsbD_append]
  simp [h]

@[simp] theorem highByte_mkWord (hi lo : Byte) : highByte (mkWord hi lo) = hi := by
  apply BitVec.eq_of_getLsbD_eq
  intro i h
  simp only [highByte, mkWord, BitVec.getLsbD_extractLsb', BitVec.getLsbD_append]
  simp [h]

@[simp] theorem mkWord_bytes (v : Word) : mkWord (highByte v) (lowByte v) = v := by
  apply BitVec.eq_of_getLsbD_eq
  intro i h
  simp only [highByte, lowByte, mkWord, BitVec.getLsbD_extractLsb', BitVec.getLsbD_append]
  by_cases h8 : i < 8
  · simp [h8]
  · have h2 : i - 8 < 8 := by omega
    have h3 : 8 + (i - 8) = i := by omega
    simp [h8, h2, h3]

theorem lowByte_eq (v : Word) : lowByte v = v.setWidth 8 := by
  apply BitVec.eq_of_getLsbD_eq
  intro i h
  simp [lowByte]

theorem highByte_eq (v : Word) : highByte v = (v >>> 8).setWidth 8 := by
  apply BitVec.eq_of_getLsbD_eq
  intro i h
  simp [highByte]

theorem lowByte_setWidth (v : Word) : (lowByte v).setWidth 16 = v &&& 0x00FF#16 := by
  apply BitVec.eq_of_toNat_eq
  simp only [lowByte_eq, BitVec.toNat_setWidth, BitVec.toNat_and, BitVec.toNat_ofNat]
  rw [show 255 % 2 ^ 16 = 2 ^ 8 - 1 from rfl, Nat.and_two_pow_sub_one_eq_mod]
  omega

theorem highByte_setWidth (v : Word) : (highByte v).setWidth 16 = v >>> 8 := by
  apply BitVec.eq_of_toNat_eq
  have := v.isLt
  simp only [highByte_eq, BitVec.toNat_setWidth, BitVec.toNat_ushiftRight,
    Nat.shiftRight_eq_div_pow]
  omega

/-- IFG2 (R33): the stored bits, then 10. -/
theorem readIFG2_write (p : Serial) (v : Byte) :
    ({ p with ifg2 := v.extractLsb' 2 6 } : Serial).readIFG2 = (v &&& 0xFC#8) ||| 0x02#8 := by
  apply BitVec.eq_of_getLsbD_eq
  intro i h
  simp only [Serial.readIFG2, BitVec.getLsbD_append, BitVec.getLsbD_extractLsb',
    BitVec.getLsbD_or, BitVec.getLsbD_and]
  interval_cases i <;> simp

/-- The overflow's write of TACTL (R296): only TAIFG may be set. -/
theorem overflow_tactl_bit (c : Nat) (t : Timer) (k : Nat) :
    (t.overflow c).tactl.getLsbD k =
      (t.tactl.getLsbD k || (decide (k = 0) && t.tactl.getLsbD 1)) := by
  have h1 : (1#16).getLsbD k = decide (k = 0) := by
    by_cases hk : k < 16
    · interval_cases k <;> rfl
    · rw [BitVec.getLsbD_of_ge _ k (by omega)]
      simp; omega
  simp only [Timer.overflow]
  cases t.tactl.getLsbD 1 <;> simp [BitVec.getLsbD_or, h1]

end Sys2Proof.Machine
end

