-- ==== Sys2Proof/Laws/Memory.lean ====
section
/-! SUPPORT. Backing storage: what a store does to a read, and that every memory operation keeps
the canonical form. -/

namespace Sys2Proof.Machine

theorem readCell_consCell (a b : Nat) (v : Byte) (m : Memory) (hb : a ≠ b) :
    readCell (consCell a v m) b = readCell m b := by
  unfold consCell
  split
  · rfl
  · simp [readCell, hb]

/-- A store leaves every other byte alone. -/
theorem readCell_writeCell_other (m : Memory) (a b : Nat) (v : Byte) (h : a ≠ b) :
    readCell (writeCell m a v) b = readCell m b := by
  induction m with
  | nil => exact readCell_consCell a b v [] h
  | cons c rest ih =>
    obtain ⟨k, w⟩ := c
    simp only [writeCell]
    split
    · exact readCell_consCell a b v _ h
    · split
      · next hk => subst hk; rw [readCell_consCell a b v rest h]; simp [readCell, h]
      · simp only [readCell, ih]

/-- Below the lowest listed address nothing is listed. -/
theorem readCell_below (m : Memory) (low a : Nat) (h : Memory.wfFrom low m = true) (ha : a < low) :
    readCell m a = unlistedByte := by
  induction m generalizing low with
  | nil => rfl
  | cons c rest ih =>
    obtain ⟨k, w⟩ := c
    simp only [Memory.wfFrom, Bool.and_eq_true, decide_eq_true_eq] at h
    simp only [readCell]
    rw [if_neg (by omega)]
    exact ih (k + 1) h.2 (by omega)

theorem wfFrom_weaken (m : Memory) (low low' : Nat) (hl : low' ≤ low)
    (h : Memory.wfFrom low m = true) : Memory.wfFrom low' m = true := by
  cases m with
  | nil => rfl
  | cons c rest =>
    obtain ⟨k, w⟩ := c
    simp only [Memory.wfFrom, Bool.and_eq_true, decide_eq_true_eq] at h ⊢
    exact ⟨⟨⟨by omega, h.1.1.2⟩, h.1.2⟩, h.2⟩

theorem readCell_consCell_same (a : Nat) (v : Byte) (m : Memory)
    (h : Memory.wfFrom (a + 1) m = true) : readCell (consCell a v m) a = v := by
  unfold consCell
  split
  · next hv => rw [readCell_below m (a + 1) a h (by omega), hv]
  · simp [readCell]

/-- The byte stored is the byte read, in a memory in canonical form. -/
theorem readCell_writeCell_same (m : Memory) (low a : Nat) (v : Byte)
    (h : Memory.wfFrom low m = true) : readCell (writeCell m a v) a = v := by
  induction m generalizing low with
  | nil => exact readCell_consCell_same a v [] rfl
  | cons c rest ih =>
    obtain ⟨k, w⟩ := c
    have h' := h
    simp only [Memory.wfFrom, Bool.and_eq_true, decide_eq_true_eq] at h
    simp only [writeCell]
    split
    · next hk =>
      apply readCell_consCell_same
      simp only [Memory.wfFrom, Bool.and_eq_true, decide_eq_true_eq]
      exact ⟨⟨⟨by omega, h.1.1.2⟩, h.1.2⟩, h.2⟩
    · split
      · next hk => subst hk; exact readCell_consCell_same a v rest h.2
      · next h1 h2 =>
        simp only [readCell]
        rw [if_neg (Ne.symm h2)]
        exact ih (k + 1) h.2

theorem consCell_wf (low a : Nat) (v : Byte) (m : Memory) (hl : low ≤ a) (ha : a < 65536)
    (h : Memory.wfFrom (a + 1) m = true) : Memory.wfFrom low (consCell a v m) = true := by
  unfold consCell
  split
  · exact wfFrom_weaken m (a + 1) low (by omega) h
  · next hv =>
    simp only [Memory.wfFrom, Bool.and_eq_true, decide_eq_true_eq]
    exact ⟨⟨⟨hl, ha⟩, by simpa using hv⟩, h⟩

/-- A store keeps the canonical form. -/
theorem writeCell_wfFrom (m : Memory) (low a : Nat) (v : Byte) (hl : low ≤ a) (ha : a < 65536)
    (h : Memory.wfFrom low m = true) : Memory.wfFrom low (writeCell m a v) = true := by
  induction m generalizing low with
  | nil => exact consCell_wf low a v [] hl ha rfl
  | cons c rest ih =>
    obtain ⟨k, w⟩ := c
    have h' := h
    simp only [Memory.wfFrom, Bool.and_eq_true, decide_eq_true_eq] at h
    simp only [writeCell]
    split
    · next hk =>
      apply consCell_wf low a v _ hl ha
      simp only [Memory.wfFrom, Bool.and_eq_true, decide_eq_true_eq]
      exact ⟨⟨⟨by omega, h.1.1.2⟩, h.1.2⟩, h.2⟩
    · split
      · next hk => subst hk; exact consCell_wf low a v rest hl ha h.2
      · next h1 h2 =>
        simp only [Memory.wfFrom, Bool.and_eq_true, decide_eq_true_eq]
        exact ⟨h.1, ih (k + 1) (by omega) h.2⟩

theorem writeCell_wf (m : Memory) (a : Word) (v : Byte) (h : Memory.wf m = true) :
    Memory.wf (writeCell m a.toNat v) = true :=
  writeCell_wfFrom m 0 a.toNat v (Nat.zero_le _) a.isLt h

/-- Loading keeps the canonical form where the bytes fit below 65536. -/
theorem loadCells_wf (bytes : List Byte) (m : Memory) (a : Nat) (ha : a + bytes.length ≤ 65536)
    (h : Memory.wf m = true) : Memory.wf (loadCells m a bytes) = true := by
  induction bytes generalizing m a with
  | nil => exact h
  | cons v rest ih =>
    simp only [List.length_cons] at ha
    exact ih _ (a + 1) (by omega) (writeCell_wfFrom m 0 a v (Nat.zero_le _) (by omega) h)

/-- Loading leaves every byte outside the load alone. -/
theorem readCell_loadCells_outside (bytes : List Byte) (m : Memory) (a b : Nat)
    (hb : b < a ∨ a + bytes.length ≤ b) : readCell (loadCells m a bytes) b = readCell m b := by
  induction bytes generalizing m a with
  | nil => rfl
  | cons v rest ih =>
    simp only [List.length_cons] at hb
    simp only [loadCells]
    rw [ih _ (a + 1) (by omega), readCell_writeCell_other m a b v (by omega)]

/-- Byte k of a load stands at its address. -/
theorem readCell_loadCells_inside (bytes : List Byte) (m : Memory) (a k : Nat)
    (ha : a + bytes.length ≤ 65536) (h : Memory.wf m = true) (hk : k < bytes.length) :
    readCell (loadCells m a bytes) (a + k) = bytes[k] := by
  induction bytes generalizing m a k with
  | nil => simp at hk
  | cons v rest ih =>
    simp only [List.length_cons] at ha hk
    simp only [loadCells]
    cases k with
    | zero =>
      rw [readCell_loadCells_outside rest _ (a + 1) (a + 0) (by omega)]
      simpa using readCell_writeCell_same m 0 a v h
    | succ j =>
      have := ih (writeCell m a v) (a + 1) j (by omega)
        (writeCell_wfFrom m 0 a v (Nat.zero_le _) (by omega) h) (by omega)
      rw [show a + 1 + j = a + (j + 1) from by omega] at this
      simpa using this

/-- Placing bytes keeps the canonical form. -/
theorem placeBytes_wf (bytes : List Byte) (m : Memory) (a : Word) (h : Memory.wf m = true) :
    Memory.wf (placeBytes a bytes m) = true := by
  induction bytes generalizing m a with
  | nil => exact h
  | cons v rest ih => exact ih _ (a + 1#16) (writeCell_wf m a v h)

end Sys2Proof.Machine
end

