-- ==== Sys2Proof/Laws/State.lean ====
section
/-! SUPPORT. One lemma per field of State per update of State, true by rfl, so that no later proof
unfolds a record update. -/

namespace Sys2Proof.Machine

variable (s : State)

/-! ## setPc -/

@[simp] theorem setPc_pc (v : Word) : (setPc v s).pc = v &&& 0xFFFE#16 := rfl
@[simp] theorem setPc_sp (v : Word) : (setPc v s).sp = s.sp := rfl
@[simp] theorem setPc_sr (v : Word) : (setPc v s).sr = s.sr := rfl
@[simp] theorem setPc_gpr (v : Word) : (setPc v s).gpr = s.gpr := rfl
@[simp] theorem setPc_mem (v : Word) : (setPc v s).mem = s.mem := rfl
@[simp] theorem setPc_clock (v : Word) : (setPc v s).clock = s.clock := rfl
@[simp] theorem setPc_timer (v : Word) : (setPc v s).timer = s.timer := rfl
@[simp] theorem setPc_gpio (v : Word) : (setPc v s).gpio = s.gpio := rfl
@[simp] theorem setPc_serial (v : Word) : (setPc v s).serial = s.serial := rfl
@[simp] theorem setPc_events (v : Word) : (setPc v s).events = s.events := rfl
@[simp] theorem setPc_serialStream (v : Word) : (setPc v s).serialStream = s.serialStream := rfl
@[simp] theorem setPc_ctl (v : Word) : (setPc v s).ctl = s.ctl := rfl
@[simp] theorem setPc_cfg (v : Word) : (setPc v s).cfg = s.cfg := rfl

/-! ## setSp -/

@[simp] theorem setSp_pc (v : Word) : (setSp v s).pc = s.pc := rfl
@[simp] theorem setSp_sp (v : Word) : (setSp v s).sp = v := rfl
@[simp] theorem setSp_sr (v : Word) : (setSp v s).sr = s.sr := rfl
@[simp] theorem setSp_gpr (v : Word) : (setSp v s).gpr = s.gpr := rfl
@[simp] theorem setSp_mem (v : Word) : (setSp v s).mem = s.mem := rfl
@[simp] theorem setSp_clock (v : Word) : (setSp v s).clock = s.clock := rfl
@[simp] theorem setSp_timer (v : Word) : (setSp v s).timer = s.timer := rfl
@[simp] theorem setSp_gpio (v : Word) : (setSp v s).gpio = s.gpio := rfl
@[simp] theorem setSp_serial (v : Word) : (setSp v s).serial = s.serial := rfl
@[simp] theorem setSp_events (v : Word) : (setSp v s).events = s.events := rfl
@[simp] theorem setSp_serialStream (v : Word) : (setSp v s).serialStream = s.serialStream := rfl
@[simp] theorem setSp_ctl (v : Word) : (setSp v s).ctl = s.ctl := rfl
@[simp] theorem setSp_cfg (v : Word) : (setSp v s).cfg = s.cfg := rfl

/-! ## setSr -/

@[simp] theorem setSr_pc (v : Word) : (setSr v s).pc = s.pc := rfl
@[simp] theorem setSr_sp (v : Word) : (setSr v s).sp = s.sp := rfl
@[simp] theorem setSr_sr (v : Word) : (setSr v s).sr = v &&& 0x01FF#16 := rfl
@[simp] theorem setSr_gpr (v : Word) : (setSr v s).gpr = s.gpr := rfl
@[simp] theorem setSr_mem (v : Word) : (setSr v s).mem = s.mem := rfl
@[simp] theorem setSr_clock (v : Word) : (setSr v s).clock = s.clock := rfl
@[simp] theorem setSr_timer (v : Word) : (setSr v s).timer = s.timer := rfl
@[simp] theorem setSr_gpio (v : Word) : (setSr v s).gpio = s.gpio := rfl
@[simp] theorem setSr_serial (v : Word) : (setSr v s).serial = s.serial := rfl
@[simp] theorem setSr_events (v : Word) : (setSr v s).events = s.events := rfl
@[simp] theorem setSr_serialStream (v : Word) : (setSr v s).serialStream = s.serialStream := rfl
@[simp] theorem setSr_ctl (v : Word) : (setSr v s).ctl = s.ctl := rfl
@[simp] theorem setSr_cfg (v : Word) : (setSr v s).cfg = s.cfg := rfl

/-! ## setGpr -/

@[simp] theorem setGpr_pc (i : Fin 12) (v : Word) : (setGpr i v s).pc = s.pc := rfl
@[simp] theorem setGpr_sp (i : Fin 12) (v : Word) : (setGpr i v s).sp = s.sp := rfl
@[simp] theorem setGpr_sr (i : Fin 12) (v : Word) : (setGpr i v s).sr = s.sr := rfl
@[simp] theorem setGpr_gpr (i : Fin 12) (v : Word) : (setGpr i v s).gpr = s.gpr.set i v := rfl
@[simp] theorem setGpr_mem (i : Fin 12) (v : Word) : (setGpr i v s).mem = s.mem := rfl
@[simp] theorem setGpr_clock (i : Fin 12) (v : Word) : (setGpr i v s).clock = s.clock := rfl
@[simp] theorem setGpr_timer (i : Fin 12) (v : Word) : (setGpr i v s).timer = s.timer := rfl
@[simp] theorem setGpr_gpio (i : Fin 12) (v : Word) : (setGpr i v s).gpio = s.gpio := rfl
@[simp] theorem setGpr_serial (i : Fin 12) (v : Word) : (setGpr i v s).serial = s.serial := rfl
@[simp] theorem setGpr_events (i : Fin 12) (v : Word) : (setGpr i v s).events = s.events := rfl
@[simp] theorem setGpr_serialStream (i : Fin 12) (v : Word) :
    (setGpr i v s).serialStream =
      s.serialStream := rfl
@[simp] theorem setGpr_ctl (i : Fin 12) (v : Word) : (setGpr i v s).ctl = s.ctl := rfl
@[simp] theorem setGpr_cfg (i : Fin 12) (v : Word) : (setGpr i v s).cfg = s.cfg := rfl

/-! ## consumeWord -/

@[simp] theorem consumeWord_pc : (consumeWord s).pc = s.pc + 2#16 := rfl
@[simp] theorem consumeWord_sp : (consumeWord s).sp = s.sp := rfl
@[simp] theorem consumeWord_sr : (consumeWord s).sr = s.sr := rfl
@[simp] theorem consumeWord_gpr : (consumeWord s).gpr = s.gpr := rfl
@[simp] theorem consumeWord_mem : (consumeWord s).mem = s.mem := rfl
@[simp] theorem consumeWord_clock : (consumeWord s).clock = s.clock := rfl
@[simp] theorem consumeWord_timer : (consumeWord s).timer = s.timer := rfl
@[simp] theorem consumeWord_gpio : (consumeWord s).gpio = s.gpio := rfl
@[simp] theorem consumeWord_serial : (consumeWord s).serial = s.serial := rfl
@[simp] theorem consumeWord_events : (consumeWord s).events = s.events := rfl
@[simp] theorem consumeWord_serialStream : (consumeWord s).serialStream = s.serialStream := rfl
@[simp] theorem consumeWord_ctl : (consumeWord s).ctl = s.ctl := rfl
@[simp] theorem consumeWord_cfg : (consumeWord s).cfg = s.cfg := rfl

/-! ## setFlags -/

@[simp] theorem setFlags_pc (f : Flags) : (setFlags f s).pc = s.pc := rfl
@[simp] theorem setFlags_sp (f : Flags) : (setFlags f s).sp = s.sp := rfl
@[simp] theorem setFlags_sr (f : Flags) : (setFlags f s).sr = withFlags f s.sr := rfl
@[simp] theorem setFlags_gpr (f : Flags) : (setFlags f s).gpr = s.gpr := rfl
@[simp] theorem setFlags_mem (f : Flags) : (setFlags f s).mem = s.mem := rfl
@[simp] theorem setFlags_clock (f : Flags) : (setFlags f s).clock = s.clock := rfl
@[simp] theorem setFlags_timer (f : Flags) : (setFlags f s).timer = s.timer := rfl
@[simp] theorem setFlags_gpio (f : Flags) : (setFlags f s).gpio = s.gpio := rfl
@[simp] theorem setFlags_serial (f : Flags) : (setFlags f s).serial = s.serial := rfl
@[simp] theorem setFlags_events (f : Flags) : (setFlags f s).events = s.events := rfl
@[simp] theorem setFlags_serialStream (f : Flags) :
    (setFlags f s).serialStream =
      s.serialStream := rfl
@[simp] theorem setFlags_ctl (f : Flags) : (setFlags f s).ctl = s.ctl := rfl
@[simp] theorem setFlags_cfg (f : Flags) : (setFlags f s).cfg = s.cfg := rfl

/-! ## takeIllegal -/

@[simp] theorem takeIllegal_pc (w : Word) : (takeIllegal w s).pc = s.pc := rfl
@[simp] theorem takeIllegal_sp (w : Word) : (takeIllegal w s).sp = s.sp := rfl
@[simp] theorem takeIllegal_sr (w : Word) : (takeIllegal w s).sr = s.sr := rfl
@[simp] theorem takeIllegal_gpr (w : Word) : (takeIllegal w s).gpr = s.gpr := rfl
@[simp] theorem takeIllegal_mem (w : Word) : (takeIllegal w s).mem = s.mem := rfl
@[simp] theorem takeIllegal_clock (w : Word) : (takeIllegal w s).clock = s.clock := rfl
@[simp] theorem takeIllegal_timer (w : Word) : (takeIllegal w s).timer = s.timer := rfl
@[simp] theorem takeIllegal_gpio (w : Word) : (takeIllegal w s).gpio = s.gpio := rfl
@[simp] theorem takeIllegal_serial (w : Word) : (takeIllegal w s).serial = s.serial := rfl
@[simp] theorem takeIllegal_events (w : Word) : (takeIllegal w s).events = s.events := rfl
@[simp] theorem takeIllegal_serialStream (w : Word) :
    (takeIllegal w s).serialStream =
      s.serialStream := rfl
@[simp] theorem takeIllegal_ctl (w : Word) :
    (takeIllegal w s).ctl =
      { s.ctl with runState := .halted, stepPending := false, report := some ⟨s.pc, w⟩ } := rfl
@[simp] theorem takeIllegal_cfg (w : Word) : (takeIllegal w s).cfg = s.cfg := rfl

/-! ## resumeRun -/

@[simp] theorem resumeRun_pc (b : Bool) : (resumeRun b s).pc = s.pc := rfl
@[simp] theorem resumeRun_sp (b : Bool) : (resumeRun b s).sp = s.sp := rfl
@[simp] theorem resumeRun_sr (b : Bool) : (resumeRun b s).sr = s.sr := rfl
@[simp] theorem resumeRun_gpr (b : Bool) : (resumeRun b s).gpr = s.gpr := rfl
@[simp] theorem resumeRun_mem (b : Bool) : (resumeRun b s).mem = s.mem := rfl
@[simp] theorem resumeRun_clock (b : Bool) : (resumeRun b s).clock = s.clock := rfl
@[simp] theorem resumeRun_timer (b : Bool) : (resumeRun b s).timer = s.timer := rfl
@[simp] theorem resumeRun_gpio (b : Bool) : (resumeRun b s).gpio = s.gpio := rfl
@[simp] theorem resumeRun_serial (b : Bool) : (resumeRun b s).serial = s.serial := rfl
@[simp] theorem resumeRun_events (b : Bool) : (resumeRun b s).events = s.events := rfl
@[simp] theorem resumeRun_serialStream (b : Bool) :
    (resumeRun b s).serialStream =
      s.serialStream := rfl
@[simp] theorem resumeRun_ctl (b : Bool) :
    (resumeRun b s).ctl =
      { s.ctl with runState := .running, stepPending := b, report := none } := rfl
@[simp] theorem resumeRun_cfg (b : Bool) : (resumeRun b s).cfg = s.cfg := rfl

/-! ## tickAll -/

@[simp] theorem tickAll_pc (e : Nat) : (tickAll e s).pc = s.pc := rfl
@[simp] theorem tickAll_sp (e : Nat) : (tickAll e s).sp = s.sp := rfl
@[simp] theorem tickAll_sr (e : Nat) : (tickAll e s).sr = s.sr := rfl
@[simp] theorem tickAll_gpr (e : Nat) : (tickAll e s).gpr = s.gpr := rfl
@[simp] theorem tickAll_mem (e : Nat) : (tickAll e s).mem = s.mem := rfl
@[simp] theorem tickAll_clock (e : Nat) : (tickAll e s).clock = clockTick e s.clock := rfl
@[simp] theorem tickAll_timer (e : Nat) : (tickAll e s).timer = timerTick e s.timer := rfl
@[simp] theorem tickAll_gpio (e : Nat) : (tickAll e s).gpio = s.gpio := rfl
@[simp] theorem tickAll_serial (e : Nat) : (tickAll e s).serial = s.serial := rfl
@[simp] theorem tickAll_events (e : Nat) : (tickAll e s).events = s.events := rfl
@[simp] theorem tickAll_serialStream (e : Nat) : (tickAll e s).serialStream = s.serialStream := rfl
@[simp] theorem tickAll_ctl (e : Nat) : (tickAll e s).ctl = s.ctl := rfl
@[simp] theorem tickAll_cfg (e : Nat) : (tickAll e s).cfg = s.cfg := rfl

/-! ## addCycles -/

@[simp] theorem addCycles_pc (k : Nat) : (addCycles k s).pc = s.pc := rfl
@[simp] theorem addCycles_sp (k : Nat) : (addCycles k s).sp = s.sp := rfl
@[simp] theorem addCycles_sr (k : Nat) : (addCycles k s).sr = s.sr := rfl
@[simp] theorem addCycles_gpr (k : Nat) : (addCycles k s).gpr = s.gpr := rfl
@[simp] theorem addCycles_mem (k : Nat) : (addCycles k s).mem = s.mem := rfl
@[simp] theorem addCycles_clock (k : Nat) : (addCycles k s).clock = s.clock := rfl
@[simp] theorem addCycles_timer (k : Nat) : (addCycles k s).timer = s.timer := rfl
@[simp] theorem addCycles_gpio (k : Nat) : (addCycles k s).gpio = s.gpio := rfl
@[simp] theorem addCycles_serial (k : Nat) : (addCycles k s).serial = s.serial := rfl
@[simp] theorem addCycles_events (k : Nat) : (addCycles k s).events = s.events := rfl
@[simp] theorem addCycles_serialStream (k : Nat) :
    (addCycles k s).serialStream =
      s.serialStream := rfl
@[simp] theorem addCycles_ctl (k : Nat) :
    (addCycles k s).ctl =
      { s.ctl with cycleCount := s.ctl.cycleCount + k } := rfl
@[simp] theorem addCycles_cfg (k : Nat) : (addCycles k s).cfg = s.cfg := rfl

/-! ## haltAtBreakpoint -/

@[simp] theorem haltAtBreakpoint_pc : (haltAtBreakpoint s).pc = s.pc := rfl
@[simp] theorem haltAtBreakpoint_sp : (haltAtBreakpoint s).sp = s.sp := rfl
@[simp] theorem haltAtBreakpoint_sr : (haltAtBreakpoint s).sr = s.sr := rfl
@[simp] theorem haltAtBreakpoint_gpr : (haltAtBreakpoint s).gpr = s.gpr := rfl
@[simp] theorem haltAtBreakpoint_mem : (haltAtBreakpoint s).mem = s.mem := rfl
@[simp] theorem haltAtBreakpoint_clock : (haltAtBreakpoint s).clock = s.clock := rfl
@[simp] theorem haltAtBreakpoint_timer : (haltAtBreakpoint s).timer = s.timer := rfl
@[simp] theorem haltAtBreakpoint_gpio : (haltAtBreakpoint s).gpio = s.gpio := rfl
@[simp] theorem haltAtBreakpoint_serial : (haltAtBreakpoint s).serial = s.serial := rfl
@[simp] theorem haltAtBreakpoint_events : (haltAtBreakpoint s).events = s.events := rfl
@[simp] theorem haltAtBreakpoint_serialStream :
    (haltAtBreakpoint s).serialStream =
      s.serialStream := rfl
@[simp] theorem haltAtBreakpoint_ctl :
    (haltAtBreakpoint s).ctl =
      { s.ctl with runState := .halted } := rfl
@[simp] theorem haltAtBreakpoint_cfg : (haltAtBreakpoint s).cfg = s.cfg := rfl

/-! ## writeP1OUT -/

@[simp] theorem writeP1OUT_pc (ia : Word) (v : Byte) : (writeP1OUT ia v s).pc = s.pc := rfl
@[simp] theorem writeP1OUT_sp (ia : Word) (v : Byte) : (writeP1OUT ia v s).sp = s.sp := rfl
@[simp] theorem writeP1OUT_sr (ia : Word) (v : Byte) : (writeP1OUT ia v s).sr = s.sr := rfl
@[simp] theorem writeP1OUT_gpr (ia : Word) (v : Byte) : (writeP1OUT ia v s).gpr = s.gpr := rfl
@[simp] theorem writeP1OUT_mem (ia : Word) (v : Byte) : (writeP1OUT ia v s).mem = s.mem := rfl
@[simp] theorem writeP1OUT_clock (ia : Word) (v : Byte) : (writeP1OUT ia v s).clock = s.clock := rfl
@[simp] theorem writeP1OUT_timer (ia : Word) (v : Byte) : (writeP1OUT ia v s).timer = s.timer := rfl
@[simp] theorem writeP1OUT_gpio (ia : Word) (v : Byte) :
    (writeP1OUT ia v s).gpio =
      { s.gpio with p1out := v } := rfl
@[simp] theorem writeP1OUT_serial (ia : Word) (v : Byte) :
    (writeP1OUT ia v s).serial =
      s.serial := rfl
@[simp] theorem writeP1OUT_events (ia : Word) (v : Byte) :
    (writeP1OUT ia v s).events =
      s.events ++ pinEvents s.cfg.gpioPort s.gpio.p1dir s.gpio.p1out v ia := rfl
@[simp] theorem writeP1OUT_serialStream (ia : Word) (v : Byte) :
    (writeP1OUT ia v s).serialStream =
      s.serialStream := rfl
@[simp] theorem writeP1OUT_ctl (ia : Word) (v : Byte) : (writeP1OUT ia v s).ctl = s.ctl := rfl
@[simp] theorem writeP1OUT_cfg (ia : Word) (v : Byte) : (writeP1OUT ia v s).cfg = s.cfg := rfl

/-! ## writeUCA0TXBUF -/

@[simp] theorem writeUCA0TXBUF_pc (ia : Word) (v : Byte) : (writeUCA0TXBUF ia v s).pc = s.pc := rfl
@[simp] theorem writeUCA0TXBUF_sp (ia : Word) (v : Byte) : (writeUCA0TXBUF ia v s).sp = s.sp := rfl
@[simp] theorem writeUCA0TXBUF_sr (ia : Word) (v : Byte) : (writeUCA0TXBUF ia v s).sr = s.sr := rfl
@[simp] theorem writeUCA0TXBUF_gpr (ia : Word) (v : Byte) :
    (writeUCA0TXBUF ia v s).gpr =
      s.gpr := rfl
@[simp] theorem writeUCA0TXBUF_mem (ia : Word) (v : Byte) :
    (writeUCA0TXBUF ia v s).mem =
      s.mem := rfl
@[simp] theorem writeUCA0TXBUF_clock (ia : Word) (v : Byte) :
    (writeUCA0TXBUF ia v s).clock =
      s.clock := rfl
@[simp] theorem writeUCA0TXBUF_timer (ia : Word) (v : Byte) :
    (writeUCA0TXBUF ia v s).timer =
      s.timer := rfl
@[simp] theorem writeUCA0TXBUF_gpio (ia : Word) (v : Byte) :
    (writeUCA0TXBUF ia v s).gpio =
      s.gpio := rfl
@[simp] theorem writeUCA0TXBUF_serial (ia : Word) (v : Byte) :
    (writeUCA0TXBUF ia v s).serial =
      { s.serial with uca0txbuf := v } := rfl
@[simp] theorem writeUCA0TXBUF_events (ia : Word) (v : Byte) :
    (writeUCA0TXBUF ia v s).events =
      s.events ++ [.serialTx v ia] := rfl
@[simp] theorem writeUCA0TXBUF_serialStream (ia : Word) (v : Byte) :
    (writeUCA0TXBUF ia v s).serialStream =
      s.serialStream ++ [v] := rfl
@[simp] theorem writeUCA0TXBUF_ctl (ia : Word) (v : Byte) :
    (writeUCA0TXBUF ia v s).ctl =
      s.ctl := rfl
@[simp] theorem writeUCA0TXBUF_cfg (ia : Word) (v : Byte) :
    (writeUCA0TXBUF ia v s).cfg =
      s.cfg := rfl

end Sys2Proof.Machine
end

