-- ==== Sys2Proof/Laws/Access.lean ====
section
/-! SUPPORT. The access primitives: which lane an address reaches, what a byte or word store leaves
alone, what it stores, and that no access changes the rest of the machine. -/

namespace Sys2Proof.Machine

/-! ## Lanes -/

/-- The address the table gives a lane (R75, R76). -/
def laneAddress (c : Config) (l : Lane) : Word :=
  match l with
  | .ifg2 => c.addrIFG2
  | .p1in => c.addrP1IN
  | .p1out => c.addrP1OUT
  | .p1dir => c.addrP1DIR
  | .dcoctl => c.addrDCOCTL
  | .bcsctl1 => c.addrBCSCTL1
  | .bcsctl2 => c.addrBCSCTL2
  | .uca0rxbuf => c.addrUCA0RXBUF
  | .uca0txbuf => c.addrUCA0TXBUF
  | .tactlLow => c.addrTACTL
  | .tactlHigh => c.addrTACTL + 1#16
  | .tarLow => c.addrTAR
  | .tarHigh => c.addrTAR + 1#16
  | .taccr0Low => c.addrTACCR0
  | .taccr0High => c.addrTACCR0 + 1#16

theorem lookup_mem {α β : Type} [DecidableEq α] (l : List (α × β)) (a : α) (b : β)
    (h : l.lookup a = some b) : (a, b) ∈ l := by
  induction l with
  | nil => simp at h
  | cons p rest ih =>
    obtain ⟨k, v⟩ := p
    rw [List.lookup_cons] at h
    by_cases hk : a = k
    · subst hk; simp at h; subst h; simp
    · have hf : (a == k) = false := by simpa using hk
      rw [hf] at h
      exact List.mem_cons_of_mem _ (ih h)

theorem laneAt_address (c : Config) (a : Word) (l : Lane) (h : laneAt c a = some l) :
    a = laneAddress c l := by
  have hm := lookup_mem (laneTable c) a l h
  simp only [laneTable, List.mem_cons, Prod.mk.injEq, List.not_mem_nil, or_false] at hm
  rcases hm with h | h | h | h | h | h | h | h | h | h | h | h | h | h | h <;>
    (obtain ⟨h1, h2⟩ := h; subst h2; exact h1)

/-- Two addresses never reach one lane. -/
theorem laneAt_injective (c : Config) (a b : Word) (l : Lane) (ha : laneAt c a = some l)
    (hb : laneAt c b = some l) : a = b :=
  (laneAt_address c a l ha).trans (laneAt_address c b l hb).symm

/-! ## One byte -/

theorem readByte_mapped (a : Word) (l : Lane) (s : State) (h : laneAt s.cfg a = some l) :
    readByte a s = periphRead l s := by simp [readByte, h]

theorem readByte_unmapped (a : Word) (s : State) (h : laneAt s.cfg a = none) :
    readByte a s = readCell s.mem a.toNat := by simp [readByte, h]

/-- A handler's write changes no other lane but P1IN, which is computed from P1OUT and P1DIR. -/
theorem periphRead_periphWrite_other (ia : Word) (l k : Lane) (v : Byte) (s : State) (h : k ≠ l)
    (hk : k ≠ .p1in) : periphRead k (periphWrite ia l v s) = periphRead k s := by
  cases l <;> cases k <;>
    first
    | rfl
    | exact absurd rfl h
    | exact absurd rfl hk
    | simp [periphRead, periphWrite]

@[simp] theorem periphWrite_mem (ia : Word) (l : Lane) (v : Byte) (s : State) :
    (periphWrite ia l v s).mem = s.mem := by cases l <;> rfl

/-! What a store leaves alone, whatever the address: the register file, the run control, the
parameters, the outside pin levels, the counters. -/

theorem periphWrite_registers (ia : Word) (l : Lane) (v : Byte) (s : State) :
    (periphWrite ia l v s).pc = s.pc ∧ (periphWrite ia l v s).sp = s.sp ∧
    (periphWrite ia l v s).sr = s.sr ∧ (periphWrite ia l v s).gpr = s.gpr ∧
    (periphWrite ia l v s).ctl = s.ctl ∧ (periphWrite ia l v s).cfg = s.cfg ∧
    (periphWrite ia l v s).gpio.pinIn = s.gpio.pinIn ∧
    (periphWrite ia l v s).clock.clkCycles = s.clock.clkCycles ∧
    (periphWrite ia l v s).timer.taOut = s.timer.taOut := by
  cases l <;> exact ⟨rfl, rfl, rfl, rfl, rfl, rfl, rfl, rfl, rfl⟩

theorem writeByte_registers (ia a : Word) (v : Byte) (s : State) :
    (writeByte ia a v s).pc = s.pc ∧ (writeByte ia a v s).sp = s.sp ∧
    (writeByte ia a v s).sr = s.sr ∧ (writeByte ia a v s).gpr = s.gpr ∧
    (writeByte ia a v s).ctl = s.ctl ∧ (writeByte ia a v s).cfg = s.cfg ∧
    (writeByte ia a v s).gpio.pinIn = s.gpio.pinIn ∧
    (writeByte ia a v s).clock.clkCycles = s.clock.clkCycles ∧
    (writeByte ia a v s).timer.taOut = s.timer.taOut := by
  unfold writeByte
  split
  · exact periphWrite_registers ia _ v s
  · exact ⟨rfl, rfl, rfl, rfl, rfl, rfl, rfl, rfl, rfl⟩

variable (ia a : Word) (b : Byte) (n : Size) (v : Word) (s : State)

@[simp] theorem writeByte_pc : (writeByte ia a b s).pc = s.pc := (writeByte_registers ia a b s).1
@[simp] theorem writeByte_sp : (writeByte ia a b s).sp = s.sp := (writeByte_registers ia a b s).2.1
@[simp] theorem writeByte_sr : (writeByte ia a b s).sr = s.sr :=
  (writeByte_registers ia a b s).2.2.1
@[simp] theorem writeByte_gpr : (writeByte ia a b s).gpr = s.gpr :=
  (writeByte_registers ia a b s).2.2.2.1
@[simp] theorem writeByte_ctl : (writeByte ia a b s).ctl = s.ctl :=
  (writeByte_registers ia a b s).2.2.2.2.1
@[simp] theorem writeByte_cfg : (writeByte ia a b s).cfg = s.cfg :=
  (writeByte_registers ia a b s).2.2.2.2.2.1
@[simp] theorem writeByte_pinIn : (writeByte ia a b s).gpio.pinIn = s.gpio.pinIn :=
  (writeByte_registers ia a b s).2.2.2.2.2.2.1
@[simp] theorem writeByte_clkCycles : (writeByte ia a b s).clock.clkCycles = s.clock.clkCycles :=
  (writeByte_registers ia a b s).2.2.2.2.2.2.2.1
@[simp] theorem writeByte_taOut : (writeByte ia a b s).timer.taOut = s.timer.taOut :=
  (writeByte_registers ia a b s).2.2.2.2.2.2.2.2

@[simp] theorem writeMem_pc : (writeMem ia n a v s).pc = s.pc := by cases n <;> simp [writeMem, writeWord]
@[simp] theorem writeMem_sp : (writeMem ia n a v s).sp = s.sp := by cases n <;> simp [writeMem, writeWord]
@[simp] theorem writeMem_sr : (writeMem ia n a v s).sr = s.sr := by cases n <;> simp [writeMem, writeWord]
@[simp] theorem writeMem_gpr : (writeMem ia n a v s).gpr = s.gpr := by
  cases n <;> simp [writeMem, writeWord]
@[simp] theorem writeMem_ctl : (writeMem ia n a v s).ctl = s.ctl := by
  cases n <;> simp [writeMem, writeWord]
@[simp] theorem writeMem_cfg : (writeMem ia n a v s).cfg = s.cfg := by
  cases n <;> simp [writeMem, writeWord]
@[simp] theorem writeMem_pinIn : (writeMem ia n a v s).gpio.pinIn = s.gpio.pinIn := by
  cases n <;> simp [writeMem, writeWord]
@[simp] theorem writeMem_clkCycles :
    (writeMem ia n a v s).clock.clkCycles = s.clock.clkCycles := by
  cases n <;> simp [writeMem, writeWord]
@[simp] theorem writeMem_taOut : (writeMem ia n a v s).timer.taOut = s.timer.taOut := by
  cases n <;> simp [writeMem, writeWord]

/-- A byte store leaves every other byte alone, but for P1IN, which P1OUT and P1DIR decide. -/
theorem readByte_writeByte_other (ia a c : Word) (b : Byte) (s : State) (h : c ≠ a)
    (hp : laneAt s.cfg c ≠ some .p1in) : readByte c (writeByte ia a b s) = readByte c s := by
  simp only [readByte, writeByte_cfg]
  cases hc : laneAt s.cfg c with
  | some k =>
    cases ha : laneAt s.cfg a with
    | some l =>
      have hkl : k ≠ l := fun e => h (laneAt_injective s.cfg c a k hc (e ▸ ha))
      have hk : k ≠ .p1in := fun e => hp (e ▸ hc)
      simpa [writeByte, ha] using periphRead_periphWrite_other ia l k b s hkl hk
    | none => cases k <;> simp [writeByte, ha, periphRead]
  | none =>
    cases ha : laneAt s.cfg a with
    | some l => simp [writeByte, ha]
    | none =>
      simp only [writeByte, ha]
      exact readCell_writeCell_other s.mem a.toNat c.toNat b
        (fun e => h (BitVec.eq_of_toNat_eq e).symm)

/-- A byte store to an unmapped address is read back, in a memory in canonical form. -/
theorem readByte_writeByte_same (ia a : Word) (b : Byte) (s : State)
    (hu : laneAt s.cfg a = none) (hm : Memory.wf s.mem = true) :
    readByte a (writeByte ia a b s) = b := by
  simp only [readByte, writeByte_cfg, hu]
  simpa [writeByte, hu] using readCell_writeCell_same s.mem 0 a.toNat b hm

/-- A byte store keeps memory in canonical form. -/
theorem writeByte_memWf (ia a : Word) (b : Byte) (s : State) (hm : Memory.wf s.mem = true) :
    Memory.wf (writeByte ia a b s).mem = true := by
  unfold writeByte
  split
  · simpa using hm
  · exact writeCell_wf s.mem a b hm

/-- A store of `n` bytes leaves every byte it does not cover alone, but for P1IN. -/
theorem readByte_writeMem_other (ia a c : Word) (n : Size) (v : Word) (s : State)
    (h : ¬ covers n a c) (hp : laneAt s.cfg c ≠ some .p1in) :
    readByte c (writeMem ia n a v s) = readByte c s := by
  cases n with
  | byte => exact readByte_writeByte_other ia a c _ s h hp
  | word =>
    simp only [covers, not_or] at h
    simp only [writeMem, writeWord]
    rw [readByte_writeByte_other ia _ c _ _ h.2 (by simpa using hp)]
    exact readByte_writeByte_other ia a c _ s h.1 hp

/-- A store keeps memory in canonical form. -/
theorem writeMem_memWf (ia a : Word) (n : Size) (v : Word) (s : State)
    (hm : Memory.wf s.mem = true) : Memory.wf (writeMem ia n a v s).mem = true := by
  cases n with
  | byte => exact writeByte_memWf ia a _ s hm
  | word => exact writeByte_memWf ia _ _ _ (writeByte_memWf ia a _ s hm)

/-- Reads depend only on memory, the peripheral registers and the parameters. -/
theorem readByte_congr (a : Word) (s t : State) (hm : t.mem = s.mem) (hc : t.clock = s.clock)
    (ht : t.timer = s.timer) (hg : t.gpio = s.gpio) (hs : t.serial = s.serial)
    (hf : t.cfg = s.cfg) : readByte a t = readByte a s := by
  unfold readByte
  rw [hf, hm]
  cases laneAt s.cfg a with
  | none => rfl
  | some l => cases l <;> simp [periphRead, hc, ht, hg, hs]

theorem readMem_congr (n : Size) (a : Word) (s t : State) (hm : t.mem = s.mem)
    (hc : t.clock = s.clock) (ht : t.timer = s.timer) (hg : t.gpio = s.gpio)
    (hs : t.serial = s.serial) (hf : t.cfg = s.cfg) : readMem n a t = readMem n a s := by
  cases n <;> simp [readMem, readWord, readByte_congr _ s t hm hc ht hg hs hf]

/-- A byte operand is below 256. -/
theorem readMem_byte_lt (a : Word) (s : State) : (readMem .byte a s).toNat < 256 := by
  have := (readByte a s).isLt
  simp [readMem]; omega

end Sys2Proof.Machine
end

