-- ==== Sys2Proof/Laws/Decode.lean ====
section
/-! SUPPORT. The fields of the encoder's words, and the operand fields read back. -/

namespace Sys2Proof

@[simp] theorem Reg.ofField_field (r : Reg) : Reg.ofField r.field = r := by
  cases r with
  | gpr i => revert i; decide
  | _ => rfl

@[simp] theorem Reg.field_ofField (f : BitVec 4) : (Reg.ofField f).field = f := by
  revert f; decide

@[simp] theorem Size.ofBW_bw (n : Size) : Size.ofBW (n == .byte) = n := by cases n <;> rfl

section wordI
variable (op : BitVec 4) (n : Size) (s : Src) (d : Dst)

@[simp] theorem wordI_op : (wordI op n s d).extractLsb' 12 4 = op := by
  apply BitVec.eq_of_getLsbD_eq
  intro i hi
  simp only [wordI, BitVec.getLsbD_extractLsb', BitVec.getLsbD_append]
  interval_cases i <;> simp

@[simp] theorem wordI_src : (wordI op n s d).extractLsb' 8 4 = s.field := by
  apply BitVec.eq_of_getLsbD_eq
  intro i hi
  simp only [wordI, BitVec.getLsbD_extractLsb', BitVec.getLsbD_append]
  interval_cases i <;> simp

@[simp] theorem wordI_as : (wordI op n s d).extractLsb' 4 2 = s.as := by
  apply BitVec.eq_of_getLsbD_eq
  intro i hi
  simp only [wordI, BitVec.getLsbD_extractLsb', BitVec.getLsbD_append]
  interval_cases i <;> simp

@[simp] theorem wordI_dst : (wordI op n s d).extractLsb' 0 4 = d.field := by
  apply BitVec.eq_of_getLsbD_eq
  intro i hi
  simp only [wordI, BitVec.getLsbD_extractLsb', BitVec.getLsbD_append]
  interval_cases i <;> simp

@[simp] theorem wordI_bw : bitOf (wordI op n s d) 6 = (n == .byte) := by
  simp only [bitOf, wordI, BitVec.getLsbD_append]
  cases n <;> simp [Size.bw]

@[simp] theorem wordI_ad : bitOf (wordI op n s d) 7 = (d.ad == 1#1) := by
  simp only [bitOf, wordI, BitVec.getLsbD_append]
  cases d <;> simp [Dst.ad]

end wordI

section wordII
variable (op : BitVec 3) (n : Size) (o : Src)

@[simp] theorem wordII_top : (wordII op n o).extractLsb' 12 4 = 1#4 := by
  apply BitVec.eq_of_getLsbD_eq
  intro i hi
  simp only [wordII, BitVec.getLsbD_extractLsb', BitVec.getLsbD_append]
  interval_cases i <;> simp

@[simp] theorem wordII_11 : bitOf (wordII op n o) 11 = false := by
  simp only [bitOf, wordII, BitVec.getLsbD_append]; simp

@[simp] theorem wordII_10 : bitOf (wordII op n o) 10 = false := by
  simp only [bitOf, wordII, BitVec.getLsbD_append]; simp

@[simp] theorem wordII_op : (wordII op n o).extractLsb' 7 3 = op := by
  apply BitVec.eq_of_getLsbD_eq
  intro i hi
  simp only [wordII, BitVec.getLsbD_extractLsb', BitVec.getLsbD_append]
  interval_cases i <;> simp

@[simp] theorem wordII_bw : bitOf (wordII op n o) 6 = (n == .byte) := by
  simp only [bitOf, wordII, BitVec.getLsbD_append]
  cases n <;> simp [Size.bw]

@[simp] theorem wordII_as : (wordII op n o).extractLsb' 4 2 = o.as := by
  apply BitVec.eq_of_getLsbD_eq
  intro i hi
  simp only [wordII, BitVec.getLsbD_extractLsb', BitVec.getLsbD_append]
  interval_cases i <;> simp

@[simp] theorem wordII_field : (wordII op n o).extractLsb' 0 4 = o.field := by
  apply BitVec.eq_of_getLsbD_eq
  intro i hi
  simp only [wordII, BitVec.getLsbD_extractLsb', BitVec.getLsbD_append]
  interval_cases i <;> simp

end wordII

section wordJ
variable (cond : BitVec 3) (off : BitVec 10)

@[simp] theorem wordJ_top : (wordJ cond off).extractLsb' 12 4 = 0b001#3 ++ cond.extractLsb' 2 1 := by
  apply BitVec.eq_of_getLsbD_eq
  intro i hi
  simp only [wordJ, BitVec.getLsbD_extractLsb', BitVec.getLsbD_append]
  interval_cases i <;> simp

@[simp] theorem wordJ_cond : (wordJ cond off).extractLsb' 10 3 = cond := by
  apply BitVec.eq_of_getLsbD_eq
  intro i hi
  simp only [wordJ, BitVec.getLsbD_extractLsb', BitVec.getLsbD_append]
  interval_cases i <;> simp

@[simp] theorem wordJ_off : (wordJ cond off).extractLsb' 0 10 = off := by
  apply BitVec.eq_of_getLsbD_eq
  intro i hi
  simp only [wordJ, BitVec.getLsbD_extractLsb', BitVec.getLsbD_append]
  interval_cases i <;> simp

end wordJ

/-! The words of the reserved rows: a fixed pattern, then the row's free bits. -/

theorem append_low {m k : Nat} (hi : BitVec m) (low : BitVec k) (h : m + k = 16) :
    ((hi ++ low).cast h).extractLsb' 0 k = low := by
  apply BitVec.eq_of_getLsbD_eq
  intro i hi
  simp only [BitVec.getLsbD_extractLsb', BitVec.getLsbD_cast, BitVec.getLsbD_append]
  simp [hi]

theorem append_bit {m k : Nat} (hi : BitVec m) (low : BitVec k) (h : m + k = 16) (i : Nat) :
    bitOf ((hi ++ low).cast h) i = if i < k then low.getLsbD i else hi.getLsbD (i - k) := by
  simp only [bitOf, BitVec.getLsbD_cast, BitVec.getLsbD_append]

theorem append_field {m k : Nat} (hi : BitVec m) (low : BitVec k) (h : m + k = 16)
    (start len : Nat) (hs : k ≤ start) :
    ((hi ++ low).cast h).extractLsb' start len = hi.extractLsb' (start - k) len := by
  apply BitVec.eq_of_getLsbD_eq
  intro i hi
  simp only [BitVec.getLsbD_extractLsb', BitVec.getLsbD_cast, BitVec.getLsbD_append]
  rw [if_neg (by omega), show start + i - k = start - k + i from by omega]

/-- The operand fields of a well-formed source read back, extension word included. -/
theorem decodeSrc_fields (w : Word) (s : Src) (ws : List Word) (h : s.wf = true) :
    decodeSrc w s.as s.field (s.ext ++ ws) = .ok (s, ws) := by
  cases s with
  | const c => cases c <;> rfl
  | reg r => cases r <;> simp_all [Src.wf, decodeSrc, Src.as, Src.field, Src.ext]
  | indexed r x =>
    cases r <;> simp_all [Src.wf, Reg.isBase, decodeSrc, Src.as, Src.field, Src.ext, takeExtension]
  | indirect r => cases r <;> simp_all [Src.wf, decodeSrc, Src.as, Src.field, Src.ext]
  | autoinc r =>
    cases r <;> simp_all [Src.wf, Reg.isBase, decodeSrc, Src.as, Src.field, Src.ext]
  | symbolic x => simp [decodeSrc, Src.as, Src.field, Src.ext, takeExtension]
  | absolute x => simp [decodeSrc, Src.as, Src.field, Src.ext, takeExtension]
  | immediate x => simp [decodeSrc, Src.as, Src.field, Src.ext, takeExtension]

/-- The operand fields of a well-formed destination read back, extension word included. -/
theorem decodeDst_fields (w : Word) (d : Dst) (ws : List Word) (h : d.wf = true) :
    decodeDst w (d.ad == 1#1) d.field (d.ext ++ ws) = .ok (d, ws) := by
  cases d with
  | reg r => cases r <;> simp [decodeDst, Dst.ad, Dst.field, Dst.ext]
  | indexed r x =>
    cases r <;> simp_all [Dst.wf, Reg.isBase, decodeDst, Dst.ad, Dst.field, Dst.ext, takeExtension]
  | symbolic x => simp [decodeDst, Dst.ad, Dst.field, Dst.ext, takeExtension]
  | absolute x => simp [decodeDst, Dst.ad, Dst.field, Dst.ext, takeExtension]

/-- A well-formed destination is not reserved (R118(a)). -/
theorem dst_not_reserved (d : Dst) (h : d.wf = true) :
    destinationReserved (d.ad == 1#1) d.field = false := by
  cases d with
  | reg r => cases r <;> simp [destinationReserved, Dst.ad]
  | indexed r x =>
    cases r with
    | gpr i => clear h; revert i; simp only [destinationReserved, Dst.ad, Dst.field]; decide
    | _ => simp_all [Dst.wf, Reg.isBase, destinationReserved, Dst.ad, Dst.field, Reg.field]
  | symbolic x => simp [destinationReserved, Dst.ad, Dst.field, Reg.field]
  | absolute x => simp [destinationReserved, Dst.ad, Dst.field, Reg.field]

/-- A well-formed operand that is no constant and no immediate is not reserved (R118(b)). -/
theorem src_not_reserved (s : Src) (h : s.wf = true) (hw : s.isWritable = true) :
    operandReserved s.as s.field = false := by
  cases s with
  | reg r =>
    cases r with
    | gpr i => clear h hw; revert i; simp only [Src.as, Src.field]; decide
    | cg => simp [Src.wf] at h
    | _ => rfl
  | indexed r x =>
    cases r with
    | gpr i => clear h hw; revert i; simp only [Src.as, Src.field]; decide
    | sp => rfl
    | _ => simp [Src.wf, Reg.isBase] at h
  | indirect r =>
    cases r with
    | gpr i => clear h hw; revert i; simp only [Src.as, Src.field]; decide
    | sr => simp [Src.wf] at h
    | cg => simp [Src.wf] at h
    | _ => rfl
  | autoinc r =>
    cases r with
    | gpr i => clear h hw; revert i; simp only [Src.as, Src.field]; decide
    | sp => rfl
    | _ => simp [Src.wf, Reg.isBase] at h
  | symbolic x => rfl
  | absolute x => rfl
  | immediate x => simp [Src.isWritable] at hw
  | const c => simp [Src.isWritable] at hw

/-! ## What the operand decoders read is the operand's encoding -/

/-- A source operand read is well-formed, and the stream was its extension word and the rest. -/
theorem decodeSrc_read (w : Word) (as : BitVec 2) (r : BitVec 4) (ws rest : List Word) (src : Src)
    (h : decodeSrc w as r ws = .ok (src, rest)) :
    src.wf = true ∧ src.as = as ∧ src.field = r ∧ src.ext ++ rest = ws := by
  have hf := Reg.field_ofField r
  have ha : as = 0#2 ∨ as = 1#2 ∨ as = 2#2 ∨ as = 3#2 := by clear h; revert as; decide
  generalize Reg.ofField r = q at *
  subst hf
  have hq := Reg.ofField_field q
  rcases ha with rfl | rfl | rfl | rfl <;> cases q <;> simp [decodeSrc] at h <;>
    (try (cases ws with
      | nil => simp [takeExtension] at h
      | cons x xs =>
        simp [takeExtension] at h
        obtain ⟨rfl, rfl⟩ := h
        exact ⟨rfl, rfl, rfl, rfl⟩)) <;>
    obtain ⟨rfl, rfl⟩ := h <;> exact ⟨rfl, rfl, rfl, rfl⟩

/-- One more word is always enough for a source operand. -/
theorem decodeSrc_total (w : Word) (as : BitVec 2) (r : BitVec 4) (x : Word) (ws : List Word) :
    ∃ src rest, decodeSrc w as r (x :: ws) = .ok (src, rest) := by
  have ha : as = 0#2 ∨ as = 1#2 ∨ as = 2#2 ∨ as = 3#2 := by revert as; decide
  rcases ha with rfl | rfl | rfl | rfl <;> cases h : Reg.ofField r <;>
    simp [decodeSrc, h, takeExtension]

/-- A destination operand read is well-formed, unless R118(a) reserves it. -/
theorem decodeDst_read (w : Word) (ad : Bool) (r : BitVec 4) (ws rest : List Word) (dst : Dst)
    (h : decodeDst w ad r ws = .ok (dst, rest)) (hr : destinationReserved ad r = false) :
    dst.wf = true ∧ (dst.ad == 1#1) = ad ∧ dst.field = r ∧ dst.ext ++ rest = ws := by
  have hf := Reg.field_ofField r
  generalize Reg.ofField r = q at *
  subst hf
  have hq := Reg.ofField_field q
  cases ad <;> cases q <;> simp [decodeDst] at h <;>
    simp [destinationReserved, Reg.field] at hr <;>
    (try (cases ws with
      | nil => simp [takeExtension] at h
      | cons x xs =>
        simp [takeExtension] at h
        obtain ⟨rfl, rfl⟩ := h
        exact ⟨rfl, rfl, rfl, rfl⟩)) <;>
    obtain ⟨rfl, rfl⟩ := h <;> exact ⟨rfl, rfl, rfl, rfl⟩

/-- One more word is always enough for a destination operand. -/
theorem decodeDst_total (w : Word) (ad : Bool) (r : BitVec 4) (x : Word) (ws : List Word) :
    ∃ dst rest, decodeDst w ad r (x :: ws) = .ok (dst, rest) := by
  cases ad <;> cases h : Reg.ofField r <;> simp [decodeDst, h, takeExtension]

end Sys2Proof
end

