-- ==== Sys2Proof/Laws/Operands.lean ====
section
/-! SUPPORT. Operand resolution: what it changes, the bound of an operand's value, and what a
result's write leaves alone. -/

namespace Sys2Proof.Machine

/-! ## Registers -/

/-- Only the register file differs. -/
def SameOutsideRegs (s t : State) : Prop :=
  t = { s with pc := t.pc, sp := t.sp, sr := t.sr, gpr := t.gpr }

theorem SameOutsideRegs.refl (s : State) : SameOutsideRegs s s := rfl

theorem SameOutsideRegs.trans {s t u : State} (h : SameOutsideRegs s t)
    (k : SameOutsideRegs t u) : SameOutsideRegs s u := by
  unfold SameOutsideRegs at *
  rw [k, h]

theorem SameOutsideRegs.readByte {s t : State} (h : SameOutsideRegs s t) (a : Word) :
    readByte a t = Machine.readByte a s := by
  unfold SameOutsideRegs at h
  rw [h]
  exact readByte_congr a s _ rfl rfl rfl rfl rfl rfl

theorem SameOutsideRegs.readMem {s t : State} (h : SameOutsideRegs s t) (n : Size) (a : Word) :
    readMem n a t = Machine.readMem n a s := by
  unfold SameOutsideRegs at h
  rw [h]
  exact readMem_congr n a s _ rfl rfl rfl rfl rfl rfl

theorem consumeWord_outside (s : State) : SameOutsideRegs s (consumeWord s) := rfl

theorem setRegPlain_outside (r : Reg) (v : Word) (s : State) :
    SameOutsideRegs s (setRegPlain r v s) := by
  cases r <;> rfl

theorem writeReg_outside (r : Reg) (v : Word) (s : State) : SameOutsideRegs s (writeReg r v s) := by
  cases r <;> rfl

theorem setFlags_outside (f : Flags) (s : State) : SameOutsideRegs s (setFlags f s) := rfl

theorem setSp_outside (v : Word) (s : State) : SameOutsideRegs s (setSp v s) := rfl

theorem setPc_outside (v : Word) (s : State) : SameOutsideRegs s (setPc v s) := rfl

/-- Resolving a source changes registers only. -/
theorem resolveSrc_outside (src : Src) (n : Size) (s : State) :
    SameOutsideRegs s (resolveSrc src n s).state := by
  cases src <;> first
    | rfl
    | exact setRegPlain_outside _ _ s

/-- Resolving a destination changes registers only. -/
theorem resolveDst_outside (dst : Dst) (s : State) :
    SameOutsideRegs s (resolveDst dst s).state := by
  cases dst <;> rfl

theorem resolveOperands_outside (n : Size) (src : Src) (dst : Dst) (s : State) :
    SameOutsideRegs s (resolveOperands n src dst s).state :=
  ((consumeWord_outside s).trans (resolveSrc_outside src n _)).trans (resolveDst_outside dst _)

theorem readReg_setGpr_other (i : Fin 12) (r : Reg) (v : Word) (s : State) (h : r ≠ .gpr i) :
    readReg r (setGpr i v s) = readReg r s := by
  cases r with
  | gpr j =>
    have hij : i.val ≠ j.val := fun e => h (by rw [Fin.ext e])
    simp [readReg, hij]
  | _ => rfl

/-- A register write changes no other register. -/
theorem readReg_writeReg_other (r q : Reg) (v : Word) (s : State) (h : q ≠ r) :
    readReg q (writeReg r v s) = readReg q s := by
  cases r with
  | gpr i => exact readReg_setGpr_other i q v s h
  | _ => cases q <;> first | rfl | exact absurd rfl h

theorem readReg_setRegPlain_other (r q : Reg) (v : Word) (s : State) (h : q ≠ r) :
    readReg q (setRegPlain r v s) = readReg q s := by
  cases r with
  | gpr i => exact readReg_setGpr_other i q v s h
  | _ => cases q <;> first | rfl | exact absurd rfl h

theorem readReg_consumeWord (r : Reg) (s : State) (h : r ≠ .pc) :
    readReg r (consumeWord s) = readReg r s := by
  cases r <;> first | rfl | exact absurd rfl h

theorem readReg_setFlags (r : Reg) (f : Flags) (s : State) (h : r ≠ .sr) :
    readReg r (setFlags f s) = readReg r s := by
  cases r <;> first | rfl | exact absurd rfl h

theorem readReg_writeMem (r : Reg) (ia : Word) (n : Size) (a v : Word) (s : State) :
    readReg r (writeMem ia n a v s) = readReg r s := by
  cases r <;> simp [readReg]

/-- Resolving a source changes no register but pc and an autoincremented one. -/
theorem readReg_resolveSrc (src : Src) (n : Size) (r : Reg) (s : State) (hp : r ≠ .pc)
    (hi : src ≠ .autoinc r) : readReg r (resolveSrc src n s).state = readReg r s := by
  cases src with
  | autoinc q => exact readReg_setRegPlain_other q r _ s (fun e => hi (by rw [e]))
  | indexed q x => exact readReg_consumeWord r s hp
  | symbolic x => exact readReg_consumeWord r s hp
  | absolute x => exact readReg_consumeWord r s hp
  | immediate x => exact readReg_consumeWord r s hp
  | _ => rfl

theorem readReg_resolveDst (dst : Dst) (r : Reg) (s : State) (hp : r ≠ .pc) :
    readReg r (resolveDst dst s).state = readReg r s := by
  cases dst with
  | reg q => rfl
  | _ => exact readReg_consumeWord r s hp

/-- The operands of Format I change no register but pc and an autoincremented source. -/
theorem readReg_resolveOperands (n : Size) (src : Src) (dst : Dst) (r : Reg) (s : State)
    (hp : r ≠ .pc) (hi : src ≠ .autoinc r) :
    readReg r (resolveOperands n src dst s).state = readReg r s := by
  simp only [resolveOperands]
  rw [readReg_resolveDst dst r _ hp, readReg_resolveSrc src n r _ hp hi, readReg_consumeWord r s hp]

/-! ## Values -/

/-- `trunc n v` is `v mod M`. -/
theorem trunc_toNat (n : Size) (v : Word) : (trunc n v).toNat = v.toNat % modulus n := by
  cases n with
  | byte =>
    simp only [trunc, modulus, BitVec.toNat_and, BitVec.toNat_ofNat]
    exact Nat.and_two_pow_sub_one_eq_mod v.toNat 8
  | word => simp only [trunc, modulus]; have := v.isLt; omega

theorem trunc_lt (n : Size) (v : Word) : (trunc n v).toNat < modulus n := by
  rw [trunc_toNat]
  exact Nat.mod_lt _ (by cases n <;> simp [modulus])

theorem readMem_lt (n : Size) (a : Word) (s : State) : (readMem n a s).toNat < modulus n := by
  cases n with
  | byte => exact readMem_byte_lt a s
  | word => exact (readMem .word a s).isLt

/-- A source operand's value is below M (R146). -/
theorem resolveSrc_value_lt (src : Src) (n : Size) (s : State) :
    (resolveSrc src n s).value.toNat < modulus n := by
  cases src <;> first
    | exact trunc_lt n _
    | exact readMem_lt n _ _

theorem resolveOperands_value_lt (n : Size) (src : Src) (dst : Dst) (s : State) :
    (resolveOperands n src dst s).value.toNat < modulus n :=
  resolveSrc_value_lt src n _

theorem readLoc_lt (n : Size) (l : Loc) (s : State) : (readLoc n l s).toNat < modulus n := by
  cases l with
  | const => cases n <;> simp [readLoc, modulus]
  | reg r => exact trunc_lt n _
  | mem ea => exact readMem_lt n ea s

/-! ## Flags -/

/-- Bit k of a word, as a number. -/
theorem getLsbD_eq (v : Word) (k : Nat) : v.getLsbD k = decide (v.toNat / 2 ^ k % 2 = 1) := by
  simp [BitVec.getLsbD, Nat.testBit_eq_decide_div_mod_eq]

theorem msb_eq (n : Size) (v : Word) (h : v.toNat < modulus n) :
    msb n v = decide (modulus n ≤ 2 * v.toNat) := by
  cases n <;> simp only [modulus] at h <;>
    exact (getLsbD_eq v _).trans (decide_eq_decide.mpr (by simp only [modulus]; omega))

/-- `(~v) mod M` is M - 1 - v (R166). -/
theorem complement_toNat (n : Size) (v : Word) (h : v.toNat < modulus n) :
    (complement n v).toNat = modulus n - 1 - v.toNat := by
  rw [complement, trunc_toNat, BitVec.toNat_not]
  cases n <;> simp only [modulus] at * <;> omega

/-- The result of `addCore` is the sum modulo M. -/
theorem addCore_res (n : Size) (a b : Word) (cin : Bool) :
    (addCore n a b cin).res.toNat = (a.toNat + b.toNat + cin.toNat) % modulus n := by
  cases n <;> simp only [addCore, modulus, BitVec.toNat_ofNat] <;> omega

/-! ## Writing a result -/

theorem writeLoc_ctl (ia : Word) (n : Size) (l : Loc) (v : Word) (s : State) :
    (writeLoc ia n l v s).ctl = s.ctl := by
  cases l with
  | reg r => cases r <;> rfl
  | mem ea => simp [writeLoc]
  | const => rfl

theorem writeLoc_cfg (ia : Word) (n : Size) (l : Loc) (v : Word) (s : State) :
    (writeLoc ia n l v s).cfg = s.cfg := by
  cases l with
  | reg r => cases r <;> rfl
  | mem ea => simp [writeLoc]
  | const => rfl

theorem writeLoc_pinIn (ia : Word) (n : Size) (l : Loc) (v : Word) (s : State) :
    (writeLoc ia n l v s).gpio.pinIn = s.gpio.pinIn := by
  cases l with
  | reg r => cases r <;> rfl
  | mem ea => simp [writeLoc]
  | const => rfl

theorem writeLoc_memWf (ia : Word) (n : Size) (l : Loc) (v : Word) (s : State)
    (h : Memory.wf s.mem = true) : Memory.wf (writeLoc ia n l v s).mem = true := by
  cases l with
  | reg r => cases r <;> exact h
  | mem ea => exact writeMem_memWf ia ea n v s h
  | const => exact h

end Sys2Proof.Machine
end

