-- ==== Sys2Proof/Laws/Flags.lean ====
section
/-! SUPPORT. What the shared operations of Format I and Format II compute, as numbers, and what the
flag write leaves in sr. -/

namespace Sys2Proof.Machine

/-! ## The guards of R118 -/

/-- A well-formed destination raises no exception. -/
theorem guardDst_body (i : Instr) (d : Dst) (body s : State) (h : d.wf = true) :
    guardDst i d body s = .next body := by
  simp [guardDst, dstReserved, dst_not_reserved d h]

/-- A well-formed writable operand raises no exception. -/
theorem guardOperand_body (i : Instr) (o : Src) (body s : State) (h : o.wf = true)
    (hw : o.isWritable = true) : guardOperand i o body s = .next body := by
  simp [guardOperand, srcReserved, src_not_reserved o h hw]

/-! ## Shifts -/

/-- The bit shifted in at the top adds half the modulus. -/
theorem or_signBit_toNat (n : Size) (v : Word) (b : Bool) (h : 2 * v.toNat < modulus n) :
    (v ||| (if b then signBit n else 0#16)).toNat = v.toNat + b.toNat * (modulus n / 2) := by
  cases b with
  | false => simp
  | true =>
    simp only [if_true, BitVec.toNat_or]
    cases n with
    | byte =>
      simp only [signBit, modulus] at *
      have := Nat.two_pow_add_eq_or_of_lt (i := 7) (b := v.toNat) (by omega) 1
      simp at this ⊢
      rw [Nat.or_comm]; omega
    | word =>
      simp only [signBit, modulus] at *
      have := Nat.two_pow_add_eq_or_of_lt (i := 15) (b := v.toNat) (by omega) 1
      simp at this ⊢
      rw [Nat.or_comm]; omega

theorem ushiftRight_one (v : Word) : (v >>> 1).toNat = v.toNat / 2 := by
  simp [Nat.shiftRight_eq_div_pow]

/-- RRC's result (R220). -/
theorem rotateRight_toNat (n : Size) (cin : Bool) (v : Word) (h : v.toNat < modulus n) :
    (rotateRight n cin v).toNat = v.toNat / 2 + cin.toNat * (modulus n / 2) := by
  rw [rotateRight, or_signBit_toNat n (v >>> 1) cin (by rw [ushiftRight_one]; omega),
    ushiftRight_one]

/-- The sign bit alone. -/
theorem and_signBit (n : Size) (v : Word) :
    v &&& signBit n = if msb n v then signBit n else 0#16 := by
  cases n with
  | byte => exact BitVec.and_twoPow v 7
  | word => exact BitVec.and_twoPow v 15

/-- RRA's result (R222). -/
theorem shiftRight_toNat (n : Size) (v : Word) (h : v.toNat < modulus n) :
    (shiftRight n v).toNat = v.toNat / 2 + (msb n v).toNat * (modulus n / 2) := by
  rw [shiftRight, and_signBit, or_signBit_toNat n (v >>> 1) _ (by rw [ushiftRight_one]; omega),
    ushiftRight_one]

/-! ## Bytes of a word -/

/-- SWPB's result (R221). -/
theorem swapBytes_eq (v : Word) : swapBytes v = (v <<< 8) ||| (v >>> 8) := by
  simp only [swapBytes, mkWord, lowByte, highByte]
  apply BitVec.eq_of_getLsbD_eq
  intro i hi
  simp only [BitVec.getLsbD_append, BitVec.getLsbD_extractLsb', BitVec.getLsbD_or,
    BitVec.getLsbD_shiftLeft, BitVec.getLsbD_ushiftRight]
  by_cases h : i < 8
  · simp [h]
  · simp [h, hi]
    rw [BitVec.getLsbD_of_ge v (8 + i) (by omega)]
    simp; omega

/-- SXT's result (R223). -/
theorem signExtend_eq (v : Word) : signExtend v = (v.setWidth 8).signExtend 16 := by
  simp only [signExtend]
  apply BitVec.eq_of_getLsbD_eq
  intro i hi
  have hm : (BitVec.setWidth 8 v).msb = v.getLsbD 7 := by simp [BitVec.msb_eq_getLsbD_last]
  have a : (0xFF#16).getLsbD i = decide (i < 8) := by interval_cases i <;> rfl
  have b : (0xFF00#16).getLsbD i = decide (8 ≤ i) := by interval_cases i <;> rfl
  rw [BitVec.getLsbD_signExtend, hm]
  split <;> simp only [BitVec.getLsbD_or, BitVec.getLsbD_and, BitVec.getLsbD_setWidth, a, b, hi,
    decide_true, Bool.true_and] <;> by_cases h : i < 8
  · have h' : ¬ 8 ≤ i := by omega
    simp [h, h']
  · have h' : 8 ≤ i := by omega
    simp_all
  · simp [h]
  · simpa [h] using ‹¬ v.getLsbD 7 = true›

/-- The complement of R166 under `and` with a value below M. -/
theorem and_complement (n : Size) (d v : Word) (h : d.toNat < modulus n) :
    d &&& complement n v = d &&& ~~~v := by
  cases n with
  | byte =>
    have hd : 255#16 &&& d = d := by
      apply BitVec.eq_of_toNat_eq
      simp only [modulus] at h
      simp only [BitVec.toNat_and, BitVec.toNat_ofNat]
      rw [Nat.and_comm, show 255 % 2 ^ 16 = 2 ^ 8 - 1 from rfl, Nat.and_two_pow_sub_one_eq_mod]
      omega
    simp only [complement, trunc]
    rw [BitVec.and_comm (~~~v), ← BitVec.and_assoc, BitVec.and_comm d, hd]
  | word => rfl

/-! ## The flag write -/

theorem withFlags_bit (f : Flags) (sr : Word) (k : Nat) :
    (withFlags f sr).getLsbD k =
      if k = 0 then f.c else if k = 1 then f.z else if k = 2 then f.n else if k = 8 then f.v
      else sr.getLsbD k := by
  by_cases hk : k < 16
  · interval_cases k <;> cases f with | mk c z n v =>
      cases c <;> cases z <;> cases n <;> cases v <;> simp [withFlags, flagBit]
  · rw [BitVec.getLsbD_of_ge _ k (by omega)]
    have h0 : k ≠ 0 := by omega
    have h1 : k ≠ 1 := by omega
    have h2 : k ≠ 2 := by omega
    have h8 : k ≠ 8 := by omega
    simp [h0, h1, h2, h8, BitVec.getLsbD_of_ge sr k (by omega)]

/-- The flag write keeps bits 15:9 zero. -/
theorem withFlags_reserved (f : Flags) (sr : Word) (h : sr &&& 0xFE00#16 = 0#16) :
    withFlags f sr &&& 0xFE00#16 = 0#16 := by
  apply BitVec.eq_of_getLsbD_eq
  intro i hi
  have hb := congrArg (fun w => BitVec.getLsbD w i) h
  have hm : (0xFE00#16).getLsbD i = decide (9 ≤ i) := by interval_cases i <;> rfl
  simp only [BitVec.getLsbD_and, hm] at hb
  simp only [BitVec.getLsbD_and, withFlags_bit, hm]
  by_cases h9 : 9 ≤ i
  · have h0 : i ≠ 0 := by omega
    have h1 : i ≠ 1 := by omega
    have h2 : i ≠ 2 := by omega
    have h8 : i ≠ 8 := by omega
    simpa [h0, h1, h2, h8] using hb
  · simp [h9]

end Sys2Proof.Machine
end

