-- ==== Sys2Proof/Laws/PerInstr.lean ====
section
/-! SUPPORT. One statement per instruction: R109, the number of words of an instruction follows from
the fields of its instruction word alone. -/

namespace Sys2Proof.Laws.EncodedLength

open Sys2Proof

/-- `SrcExt(As, r)` of R109. -/
def srcWords (as : BitVec 2) (r : BitVec 4) : Nat :=
  if (as = 1#2 ∧ r ≠ 3#4) ∨ (as = 3#2 ∧ r = 0#4) then 1 else 0

/-- `DstExt(Ad)` of R109. -/
def dstWords (ad : Bool) : Nat := if ad then 1 else 0

/-- `words` of R109, by the classes of R104: Format I from 0x4000 up, a jump from 0x2000 up, else
Format II. -/
def wordsOf (w : Word) : Nat :=
  if 4 ≤ (w.extractLsb' 12 4).toNat then
    1 + srcWords (w.extractLsb' 4 2) (w.extractLsb' 8 4) + dstWords (w.getLsbD 7)
  else if 2 ≤ (w.extractLsb' 12 4).toNat then 1
  else 1 + srcWords (w.extractLsb' 4 2) (w.extractLsb' 0 4)

/-- R109 of one instruction; the reserved rows (R115 to R117) are one word each. -/
def Statement (i : Instr) : Prop :=
  i.wf = true → (encode i).length = if i.isReserved then 1 else wordsOf (firstWord i)

theorem srcWords_fields (s : Src) (h : s.wf = true) : srcWords s.as s.field = s.ext.length := by
  have hx : ∀ i : Fin 12, srcWords 1#2 (Reg.gpr i).field = 1 := by decide
  have hi : ∀ i : Fin 12, srcWords 3#2 (Reg.gpr i).field = 0 := by decide
  have hn : srcWords 2#2 = fun _ => 0 := by funext r; simp [srcWords]
  have hr : srcWords 0#2 = fun _ => 0 := by funext r; simp [srcWords]
  cases s with
  | reg r => exact congrFun hr _
  | indirect r => exact congrFun hn _
  | const c => cases c <;> rfl
  | indexed r x =>
    cases r with
    | gpr i => exact hx i
    | _ => first | rfl | simp [Src.wf, Reg.isBase] at h
  | autoinc r =>
    cases r with
    | gpr i => exact hi i
    | _ => first | rfl | simp [Src.wf, Reg.isBase] at h
  | _ => rfl

theorem dstWords_fields (d : Dst) : dstWords (d.ad == 1#1) = d.ext.length := by
  cases d <;> rfl

/-- The words of a Format I instruction. -/
theorem wordsOf_wordI (op : BitVec 4) (n : Size) (s : Src) (d : Dst) (ho : 4 ≤ op.toNat)
    (h : s.wf = true) : wordsOf (wordI op n s d) = 1 + s.ext.length + d.ext.length := by
  have ha : (wordI op n s d).getLsbD 7 = (d.ad == 1#1) := wordI_ad op n s d
  simp only [wordsOf, wordI_op, wordI_as, wordI_src, ha, ho, if_true, srcWords_fields s h,
    dstWords_fields]

/-- The words of a Format II instruction. -/
theorem wordsOf_wordII (op : BitVec 3) (n : Size) (o : Src) (h : o.wf = true) :
    wordsOf (wordII op n o) = 1 + o.ext.length := by
  simp [wordsOf, srcWords_fields o h]

/-- A jump is one word. -/
theorem wordsOf_wordJ (c : BitVec 3) (off : BitVec 10) : wordsOf (wordJ c off) = 1 := by
  have ht : 2 ≤ ((wordJ c off).extractLsb' 12 4).toNat ∧
      ((wordJ c off).extractLsb' 12 4).toNat < 4 := by
    rw [wordJ_top]
    generalize c.extractLsb' 2 1 = b
    revert b
    decide
  rw [wordsOf, if_neg (by omega), if_pos ht.1]

theorem mov (n : Size) (s : Src) (d : Dst) : Statement (.mov n s d) := fun h => by
  simp only [Instr.wf, Bool.and_eq_true] at h
  simp [encode, extensionWords, firstWord, Instr.isReserved, wordsOf_wordI, h.1]; omega

theorem add (n : Size) (s : Src) (d : Dst) : Statement (.add n s d) := fun h => by
  simp only [Instr.wf, Bool.and_eq_true] at h
  simp [encode, extensionWords, firstWord, Instr.isReserved, wordsOf_wordI, h.1]; omega

theorem addc (n : Size) (s : Src) (d : Dst) : Statement (.addc n s d) := fun h => by
  simp only [Instr.wf, Bool.and_eq_true] at h
  simp [encode, extensionWords, firstWord, Instr.isReserved, wordsOf_wordI, h.1]; omega

theorem subc (n : Size) (s : Src) (d : Dst) : Statement (.subc n s d) := fun h => by
  simp only [Instr.wf, Bool.and_eq_true] at h
  simp [encode, extensionWords, firstWord, Instr.isReserved, wordsOf_wordI, h.1]; omega

theorem sub (n : Size) (s : Src) (d : Dst) : Statement (.sub n s d) := fun h => by
  simp only [Instr.wf, Bool.and_eq_true] at h
  simp [encode, extensionWords, firstWord, Instr.isReserved, wordsOf_wordI, h.1]; omega

theorem cmp (n : Size) (s : Src) (d : Dst) : Statement (.cmp n s d) := fun h => by
  simp only [Instr.wf, Bool.and_eq_true] at h
  simp [encode, extensionWords, firstWord, Instr.isReserved, wordsOf_wordI, h.1]; omega

theorem bit (n : Size) (s : Src) (d : Dst) : Statement (.bit n s d) := fun h => by
  simp only [Instr.wf, Bool.and_eq_true] at h
  simp [encode, extensionWords, firstWord, Instr.isReserved, wordsOf_wordI, h.1]; omega

theorem bic (n : Size) (s : Src) (d : Dst) : Statement (.bic n s d) := fun h => by
  simp only [Instr.wf, Bool.and_eq_true] at h
  simp [encode, extensionWords, firstWord, Instr.isReserved, wordsOf_wordI, h.1]; omega

theorem bis (n : Size) (s : Src) (d : Dst) : Statement (.bis n s d) := fun h => by
  simp only [Instr.wf, Bool.and_eq_true] at h
  simp [encode, extensionWords, firstWord, Instr.isReserved, wordsOf_wordI, h.1]; omega

theorem xor (n : Size) (s : Src) (d : Dst) : Statement (.xor n s d) := fun h => by
  simp only [Instr.wf, Bool.and_eq_true] at h
  simp [encode, extensionWords, firstWord, Instr.isReserved, wordsOf_wordI, h.1]; omega

theorem and (n : Size) (s : Src) (d : Dst) : Statement (.and n s d) := fun h => by
  simp only [Instr.wf, Bool.and_eq_true] at h
  simp [encode, extensionWords, firstWord, Instr.isReserved, wordsOf_wordI, h.1]; omega

theorem rrc (n : Size) (o : Src) : Statement (.rrc n o) := fun h => by
  simp only [Instr.wf, Bool.and_eq_true] at h
  simp [encode, extensionWords, firstWord, Instr.isReserved, wordsOf_wordII, h.1]; omega

theorem swpb (o : Src) : Statement (.swpb o) := fun h => by
  simp only [Instr.wf, Bool.and_eq_true] at h
  simp [encode, extensionWords, firstWord, Instr.isReserved, wordsOf_wordII, h.1]; omega

theorem rra (n : Size) (o : Src) : Statement (.rra n o) := fun h => by
  simp only [Instr.wf, Bool.and_eq_true] at h
  simp [encode, extensionWords, firstWord, Instr.isReserved, wordsOf_wordII, h.1]; omega

theorem sxt (o : Src) : Statement (.sxt o) := fun h => by
  simp only [Instr.wf, Bool.and_eq_true] at h
  simp [encode, extensionWords, firstWord, Instr.isReserved, wordsOf_wordII, h.1]; omega

theorem push (n : Size) (o : Src) : Statement (.push n o) := fun h => by
  simp only [Instr.wf] at h
  simp [encode, extensionWords, firstWord, Instr.isReserved, wordsOf_wordII, h]; omega

theorem call (o : Src) : Statement (.call o) := fun h => by
  simp only [Instr.wf] at h
  simp [encode, extensionWords, firstWord, Instr.isReserved, wordsOf_wordII, h]; omega

theorem reti : Statement .reti := fun _ => by decide

theorem jne (off : BitVec 10) : Statement (.jne off) := fun _ => by
  simp [encode, extensionWords, firstWord, Instr.isReserved, wordsOf_wordJ]

theorem jeq (off : BitVec 10) : Statement (.jeq off) := fun _ => by
  simp [encode, extensionWords, firstWord, Instr.isReserved, wordsOf_wordJ]

theorem jnc (off : BitVec 10) : Statement (.jnc off) := fun _ => by
  simp [encode, extensionWords, firstWord, Instr.isReserved, wordsOf_wordJ]

theorem jc (off : BitVec 10) : Statement (.jc off) := fun _ => by
  simp [encode, extensionWords, firstWord, Instr.isReserved, wordsOf_wordJ]

theorem jn (off : BitVec 10) : Statement (.jn off) := fun _ => by
  simp [encode, extensionWords, firstWord, Instr.isReserved, wordsOf_wordJ]

theorem jge (off : BitVec 10) : Statement (.jge off) := fun _ => by
  simp [encode, extensionWords, firstWord, Instr.isReserved, wordsOf_wordJ]

theorem jl (off : BitVec 10) : Statement (.jl off) := fun _ => by
  simp [encode, extensionWords, firstWord, Instr.isReserved, wordsOf_wordJ]

theorem jmp (off : BitVec 10) : Statement (.jmp off) := fun _ => by
  simp [encode, extensionWords, firstWord, Instr.isReserved, wordsOf_wordJ]

theorem illegal0xxx (low : BitVec 12) : Statement (.illegal0xxx low) := fun _ => rfl

theorem illegal14xx (low : BitVec 10) : Statement (.illegal14xx low) := fun _ => rfl

theorem illegal18xx (low : BitVec 11) : Statement (.illegal18xx low) := fun _ => rfl

theorem illegalAxxx (low : BitVec 12) : Statement (.illegalAxxx low) := fun _ => rfl

theorem illegalFmt2Op7 (low : BitVec 7) : Statement (.illegalFmt2Op7 low) := fun _ => rfl

theorem illegalSwpbB (low : BitVec 6) : Statement (.illegalSwpbB low) := fun _ => rfl

theorem illegalSxtB (low : BitVec 6) : Statement (.illegalSxtB low) := fun _ => rfl

theorem illegalCallB (low : BitVec 6) : Statement (.illegalCallB low) := fun _ => rfl

theorem illegalReti1340 (low : BitVec 6) : Statement (.illegalReti1340 low) := fun _ => rfl

theorem illegalReti1320 (low : BitVec 5) : Statement (.illegalReti1320 low) := fun _ => rfl

theorem illegalReti1310 (low : BitVec 4) : Statement (.illegalReti1310 low) := fun _ => rfl

theorem illegalReti1308 (low : BitVec 3) : Statement (.illegalReti1308 low) := fun _ => rfl

theorem illegalReti1304 (low : BitVec 2) : Statement (.illegalReti1304 low) := fun _ => rfl

theorem illegalReti1302 (low : BitVec 1) : Statement (.illegalReti1302 low) := fun _ => rfl

theorem illegalReti1301 : Statement .illegalReti1301 := fun _ => rfl

end Sys2Proof.Laws.EncodedLength
end

