-- ==== Sys2Proof/Laws/Step.lean ====
section
/-! SUPPORT. What an instruction can do outside the register file, said once; what a step is in each
run state. -/

namespace Sys2Proof.Machine

/-! ## An instruction's one store -/

/-- Outside the register file, `t` is `s` with at most one `MemWrite` by the instruction at `s.pc`. -/
def AtMostOneStore (s t : State) : Prop :=
  ∃ u w : State, SameOutsideRegs s u ∧
    (w = u ∨ ∃ n ea v, w = writeMem s.pc n ea v u) ∧ SameOutsideRegs w t

theorem AtMostOneStore.ofRegs {s t : State} (h : SameOutsideRegs s t) : AtMostOneStore s t :=
  ⟨t, t, h, .inl rfl, SameOutsideRegs.refl t⟩

theorem AtMostOneStore.thenRegs {s t u : State} (h : AtMostOneStore s t)
    (k : SameOutsideRegs t u) : AtMostOneStore s u := by
  obtain ⟨a, w, h1, h2, h3⟩ := h
  exact ⟨a, w, h1, h2, h3.trans k⟩

/-- A result's write is at most one store. -/
theorem writeLoc_store (n : Size) (l : Loc) (v : Word) (s u : State) (h : SameOutsideRegs s u) :
    AtMostOneStore s (writeLoc s.pc n l v u) := by
  cases l with
  | const => exact .ofRegs h
  | reg r => exact .ofRegs (h.trans (writeReg_outside r v u))
  | mem ea => exact ⟨u, _, h, .inr ⟨n, ea, v, rfl⟩, SameOutsideRegs.refl _⟩

theorem twoOpWrite_store (n : Size) (src : Src) (dst : Dst) (f : Word → Word → Word) (s : State) :
    AtMostOneStore s (twoOpWrite n src dst f s) :=
  writeLoc_store n _ _ s _ (resolveOperands_outside n src dst s)

theorem twoOpWriteFlags_store (n : Size) (src : Src) (dst : Dst) (f : Word → Word → Result)
    (s : State) : AtMostOneStore s (twoOpWriteFlags n src dst f s) :=
  (writeLoc_store n _ _ s _ (resolveOperands_outside n src dst s)).thenRegs (setFlags_outside _ _)

theorem twoOpFlags_store (n : Size) (src : Src) (dst : Dst) (f : Word → Word → Flags)
    (s : State) : AtMostOneStore s (twoOpFlags n src dst f s) :=
  .ofRegs ((resolveOperands_outside n src dst s).trans (setFlags_outside _ _))

theorem operand_outside (n : Size) (o : Src) (s : State) :
    SameOutsideRegs s (resolveSrc o n (consumeWord s)).state :=
  (consumeWord_outside s).trans (resolveSrc_outside o n _)

theorem oneOpWrite_store (n : Size) (o : Src) (f : Word → Word) (s : State) :
    AtMostOneStore s (oneOpWrite n o f s) :=
  writeLoc_store n _ _ s _ (operand_outside n o s)

theorem oneOpWriteFlags_store (n : Size) (o : Src) (f : Word → Result) (s : State) :
    AtMostOneStore s (oneOpWriteFlags n o f s) :=
  (writeLoc_store n _ _ s _ (operand_outside n o s)).thenRegs (setFlags_outside _ _)

theorem pushValue_store (n : Size) (v : Word) (s u : State) (h : SameOutsideRegs s u) :
    AtMostOneStore s (pushValue s.pc n v u) :=
  ⟨_, _, h.trans (setSp_outside _ u), .inr ⟨n, _, v, rfl⟩, SameOutsideRegs.refl _⟩

theorem jumpIf_outside (b : Bool) (off : BitVec 10) (s : State) :
    SameOutsideRegs s (jumpIf b off s) := by
  cases b <;> rfl

theorem popStatusAndPc_outside (s : State) : SameOutsideRegs s (popStatusAndPc s) := rfl

/-- Every well-formed instruction that is no reserved row makes at most one store. -/
theorem exec_store (i : Instr) (s t : State) (hw : i.wf = true) (hr : i.isReserved = false)
    (h : exec i s = .next t) : AtMostOneStore s t := by
  cases i with
  | mov n a d =>
    simp only [Instr.wf, Bool.and_eq_true] at hw
    simp only [exec, execMov, guardDst_body _ _ _ _ hw.2, Host.Outcome.next.injEq] at h
    exact h ▸ writeLoc_store n _ _ s _ (resolveOperands_outside n a d s)
  | bic n a d | bis n a d =>
    simp only [Instr.wf, Bool.and_eq_true] at hw
    simp only [exec, execBic, execBis, guardDst_body _ _ _ _ hw.2, Host.Outcome.next.injEq] at h
    exact h ▸ twoOpWrite_store n a d _ s
  | add n a d | addc n a d | subc n a d | sub n a d | xor n a d | and n a d =>
    simp only [Instr.wf, Bool.and_eq_true] at hw
    simp only [exec, execAdd, execAddc, execSubc, execSub, execXor, execAnd,
      guardDst_body _ _ _ _ hw.2, Host.Outcome.next.injEq] at h
    exact h ▸ twoOpWriteFlags_store n a d _ s
  | cmp n a d | bit n a d =>
    simp only [Instr.wf, Bool.and_eq_true] at hw
    simp only [exec, execCmp, execBit, guardDst_body _ _ _ _ hw.2, Host.Outcome.next.injEq] at h
    exact h ▸ twoOpFlags_store n a d _ s
  | rrc n o | rra n o =>
    simp only [Instr.wf, Bool.and_eq_true] at hw
    simp only [exec, execRrc, execRra, guardOperand_body _ _ _ _ hw.1 hw.2,
      Host.Outcome.next.injEq] at h
    exact h ▸ oneOpWriteFlags_store n o _ s
  | sxt o =>
    simp only [Instr.wf, Bool.and_eq_true] at hw
    simp only [exec, execSxt, guardOperand_body _ _ _ _ hw.1 hw.2, Host.Outcome.next.injEq] at h
    exact h ▸ oneOpWriteFlags_store .word o _ s
  | swpb o =>
    simp only [Instr.wf, Bool.and_eq_true] at hw
    simp only [exec, execSwpb, guardOperand_body _ _ _ _ hw.1 hw.2, Host.Outcome.next.injEq] at h
    exact h ▸ oneOpWrite_store .word o _ s
  | push n o =>
    simp only [exec, execPush, Host.Outcome.next.injEq] at h
    exact h ▸ pushValue_store n _ s _ (operand_outside n o s)
  | call o =>
    simp only [exec, execCall, Host.Outcome.next.injEq] at h
    exact h ▸ (pushValue_store .word _ s _ (operand_outside .word o s)).thenRegs (setPc_outside _ _)
  | reti =>
    simp only [exec, execReti, Host.Outcome.next.injEq] at h
    exact h ▸ .ofRegs ((consumeWord_outside s).trans (popStatusAndPc_outside _))
  | jne off | jeq off | jnc off | jc off | jn off | jge off | jl off | jmp off =>
    simp only [exec, execJne, execJeq, execJnc, execJc, execJn, execJge, execJl, execJmp,
      Host.Outcome.next.injEq] at h
    exact h ▸ .ofRegs (jumpIf_outside _ off s)
  | _ => simp [Instr.isReserved] at hr

/-! ## What one store leaves alone -/

theorem AtMostOneStore.ctl {s t : State} (h : AtMostOneStore s t) : t.ctl = s.ctl := by
  obtain ⟨u, w, h1, h2, h3⟩ := h
  have e1 : u.ctl = s.ctl := by rw [h1]
  have e3 : t.ctl = w.ctl := by rw [h3]
  rcases h2 with rfl | ⟨n, ea, v, rfl⟩
  · rw [e3, e1]
  · rw [e3, writeMem_ctl, e1]

theorem AtMostOneStore.cfg {s t : State} (h : AtMostOneStore s t) : t.cfg = s.cfg := by
  obtain ⟨u, w, h1, h2, h3⟩ := h
  have e1 : u.cfg = s.cfg := by rw [h1]
  have e3 : t.cfg = w.cfg := by rw [h3]
  rcases h2 with rfl | ⟨n, ea, v, rfl⟩
  · rw [e3, e1]
  · rw [e3, writeMem_cfg, e1]

theorem AtMostOneStore.memWf {s t : State} (h : AtMostOneStore s t)
    (hm : Memory.wf s.mem = true) : Memory.wf t.mem = true := by
  obtain ⟨u, w, h1, h2, h3⟩ := h
  have e1 : u.mem = s.mem := by rw [h1]
  have e3 : t.mem = w.mem := by rw [h3]
  rcases h2 with rfl | ⟨n, ea, v, rfl⟩
  · rw [e3, e1]; exact hm
  · rw [e3]; exact writeMem_memWf _ _ _ _ _ (e1 ▸ hm)

/-! ## A step -/

theorem step_running (s : State) (h : s.ctl.runState = .running) : step s = iterate s := by
  simp [step, h]

theorem step_halted (s : State) (h : s.ctl.runState = .halted) : step s = answerHalted s := by
  simp [step, h]

theorem iterate_free (s : State) (h : breakpointHit s = false) : iterate s = runInstruction s := by
  simp [iterate, h]

/-- A rejected word raises the exception (R118, R270). -/
theorem runInstruction_rejected (s : State) (e : DecodeError)
    (h : decode (fetchStream s) = .error e) :
    runInstruction s = .next (takeIllegal (readWord s.pc s) s) := by
  simp [runInstruction, h]

/-- A word of a reserved row raises the exception and is not followed by a tick. -/
theorem runInstruction_reserved (s : State) (i : Instr) (rest : List Word)
    (h : decode (fetchStream s) = .ok (i, rest)) (hr : i.isReserved = true) :
    runInstruction s = exec i s := by
  simp [runInstruction, h, hr]

/-- Every other word is executed and followed by the tick. -/
theorem runInstruction_executed (s t : State) (i : Instr) (rest : List Word)
    (h : decode (fetchStream s) = .ok (i, rest)) (hr : i.isReserved = false)
    (he : exec i s = .next t) : runInstruction s = .next (finishInstruction i t) := by
  simp [runInstruction, h, hr, he, finishOutcome]

end Sys2Proof.Machine
end

