-- ==== Sys2Proof/Tests/Slice0.lean ====
section
/-! SUPPORT. Tests of the model, each a named theorem: the well-formedness checks, the decoder on
words written out from the spec's encodings, single steps with results taken from
`95_test_vectors.md`, and a witness for the hypotheses of each statement. -/

open Sys2Proof Sys2Proof.Machine Sys2Proof.Safety Sys2Proof.Claims

namespace Sys2Proof.Tests

/-! ## Well-formedness: one ill-formed term per check -/

/-- Register 3 in register mode is the constant 0 (R145). -/
theorem test_wf_refuses_cg_register_source : (Src.reg .cg).wf = false := by decide

/-- Indexed on pc is symbolic, on sr absolute, on register 3 the constant 1 (R144, R145). -/
theorem test_wf_refuses_indexed_on_special_registers :
    (Src.indexed .pc 2#16).wf = false ∧ (Src.indexed .sr 2#16).wf = false ∧
    (Src.indexed .cg 2#16).wf = false := by decide

/-- Indirect on sr is the constant 4, on register 3 the constant 2 (R145). -/
theorem test_wf_refuses_indirect_on_generators :
    (Src.indirect .sr).wf = false ∧ (Src.indirect .cg).wf = false := by decide

/-- Autoincrement on pc is immediate, on sr the constant 8, on register 3 the constant -1. -/
theorem test_wf_refuses_autoincrement_on_special_registers :
    (Src.autoinc .pc).wf = false ∧ (Src.autoinc .sr).wf = false ∧
    (Src.autoinc .cg).wf = false := by decide

/-- R118(a), and the destinations that are another mode. -/
theorem test_wf_refuses_indexed_destination_on_special_registers :
    (Dst.indexed .cg 0#16).wf = false ∧ (Dst.indexed .pc 0#16).wf = false ∧
    (Dst.indexed .sr 0#16).wf = false := by decide

/-- R118(b): no constant and no immediate under RRC, RRA, SWPB, SXT. -/
theorem test_wf_refuses_modify_of_constant :
    (Instr.rrc .word (.const .one)).wf = false ∧ (Instr.swpb (.immediate 5#16)).wf = false ∧
    (Instr.rra .byte (.immediate 5#16)).wf = false ∧ (Instr.sxt (.const .four)).wf = false := by
  decide

/-- A Format I term is refused for its source and for its destination. -/
theorem test_wf_refuses_each_operand_of_format_i :
    (Instr.mov .word (.reg .cg) (.reg .pc)).wf = false ∧
    (Instr.bit .word (.reg .pc) (.indexed .cg 0#16)).wf = false := by decide

/-- PUSH and CALL refuse only an ill-formed operand. -/
theorem test_wf_push_call :
    (Instr.push .word (.const .four)).wf = true ∧ (Instr.call (.immediate 0#16)).wf = true ∧
    (Instr.push .word (.indirect .cg)).wf = false ∧ (Instr.call (.autoinc .sr)).wf = false := by
  decide

/-! ## Decoding: a word for every constructor, its fields written out (R101 to R107, R115 to R117)

Format I: op, rs, Ad, BW, As, rd. Format II: 000100, op, BW, As, r. Jumps: 001, cond, off. -/

theorem test_decode_mov_add_addc :
    decode [0b0100_0000_0_0_11_0101#16, 0x1234#16] =
      .ok (.mov .word (.immediate 0x1234#16) (.reg (.gpr 1)), []) ∧
    decode [0b0101_0101_0_0_11_0101#16] = .ok (.add .word (.autoinc (.gpr 1)) (.reg (.gpr 1)), []) ∧
    decode [0b0110_0011_1_1_00_0010#16, 0x0200#16] =
      .ok (.addc .byte (.const .zero) (.absolute 0x0200#16), []) := by decide

theorem test_decode_subc_sub_cmp :
    decode [0b0111_0000_0_0_01_0101#16, 0x41FE#16] =
      .ok (.subc .word (.symbolic 0x41FE#16) (.reg (.gpr 1)), []) ∧
    decode [0b1000_0011_0_0_01_0100#16] = .ok (.sub .word (.const .one) (.reg (.gpr 0)), []) ∧
    decode [0b1001_0010_1_0_01_0000#16, 0x0200#16, 0x0004#16] =
      .ok (.cmp .word (.absolute 0x0200#16) (.symbolic 0x0004#16), []) := by decide

theorem test_decode_bit_bic_bis :
    decode [0b1011_0001_0_1_10_1111#16] = .ok (.bit .byte (.indirect .sp) (.reg (.gpr 11)), []) ∧
    decode [0b1100_0011_0_0_01_0010#16] = .ok (.bic .word (.const .one) (.reg .sr), []) ∧
    decode [0b1101_0010_0_0_11_0010#16] = .ok (.bis .word (.const .eight) (.reg .sr), []) := by
  decide

theorem test_decode_xor_and :
    decode [0b1110_0011_0_1_11_0101#16] = .ok (.xor .byte (.const .minusOne) (.reg (.gpr 1)), []) ∧
    decode [0b1111_0010_1_0_00_0001#16, 0xFFFE#16] =
      .ok (.and .word (.reg .sr) (.indexed .sp 0xFFFE#16), []) := by decide

theorem test_decode_rrc_swpb_rra_sxt :
    decode [0b000100_000_1_01_0100#16, 0x0001#16] =
      .ok (.rrc .byte (.indexed (.gpr 0) 0x0001#16), []) ∧
    decode [0b000100_001_0_00_0101#16] = .ok (.swpb (.reg (.gpr 1)), []) ∧
    decode [0b000100_010_0_11_0001#16] = .ok (.rra .word (.autoinc .sp), []) ∧
    decode [0b000100_011_0_10_0000#16] = .ok (.sxt (.indirect .pc), []) := by decide

theorem test_decode_push_call_reti :
    decode [0b000100_100_1_10_0010#16] = .ok (.push .byte (.const .four), []) ∧
    decode [0b000100_101_0_11_0000#16, 0xC018#16] = .ok (.call (.immediate 0xC018#16), []) ∧
    decode [0b000100_110_0_00_0000#16] = .ok (.reti, []) := by decide

theorem test_decode_jumps :
    decode [0b001_000_1111111101#16] = .ok (.jne 0x3FD#10, []) ∧
    decode [0b001_001_0000000011#16] = .ok (.jeq 3#10, []) ∧
    decode [0b001_010_0000000001#16] = .ok (.jnc 1#10, []) ∧
    decode [0b001_011_1111111110#16] = .ok (.jc 0x3FE#10, []) ∧
    decode [0b001_100_0000000010#16] = .ok (.jn 2#10, []) ∧
    decode [0b001_101_0000000001#16] = .ok (.jge 1#10, []) ∧
    decode [0b001_110_1000000000#16] = .ok (.jl 0x200#10, []) ∧
    decode [0b001_111_0111111111#16] = .ok (.jmp 0x1FF#10, []) := by decide

theorem test_decode_reserved_rows :
    decode [0x0FFF#16] = .ok (.illegal0xxx 0xFFF#12, []) ∧
    decode [0x1401#16] = .ok (.illegal14xx 0x001#10, []) ∧
    decode [0x1FFF#16] = .ok (.illegal18xx 0x7FF#11, []) ∧
    decode [0xA405#16] = .ok (.illegalAxxx 0x405#12, []) ∧
    decode [0x13C1#16] = .ok (.illegalFmt2Op7 0x41#7, []) ∧
    decode [0x10C5#16] = .ok (.illegalSwpbB 0x05#6, []) ∧
    decode [0x11C5#16] = .ok (.illegalSxtB 0x05#6, []) ∧
    decode [0x12F0#16] = .ok (.illegalCallB 0x30#6, []) := by decide

theorem test_decode_reserved_reti_words :
    decode [0x1341#16] = .ok (.illegalReti1340 0x01#6, []) ∧
    decode [0x1321#16] = .ok (.illegalReti1320 0x01#5, []) ∧
    decode [0x1312#16] = .ok (.illegalReti1310 0x2#4, []) ∧
    decode [0x1309#16] = .ok (.illegalReti1308 0x1#3, []) ∧
    decode [0x1306#16] = .ok (.illegalReti1304 0x2#2, []) ∧
    decode [0x1303#16] = .ok (.illegalReti1302 0x1#1, []) ∧
    decode [0x1301#16] = .ok (.illegalReti1301, []) := by decide

/-- Vectors X7 and X8. -/
theorem test_decode_rejects_reserved_operands :
    decode [0x4483#16, 0x0002#16] = .error (.reservedDestination 0x4483#16) ∧
    decode [0x1003#16] = .error (.reservedOperand 0x1003#16) ∧
    decode [0x1022#16] = .error (.reservedOperand 0x1022#16) ∧
    decode [0x10B0#16, 5#16] = .error (.reservedOperand 0x10B0#16) ∧
    decode [0x1130#16, 5#16] = .error (.reservedOperand 0x1130#16) ∧
    decode [0x11B0#16, 5#16] = .error (.reservedOperand 0x11B0#16) := by decide

/-- Words that both a reserved row (R116, R117) and R118 reserve: they belong to the row (log 13). -/
theorem test_decode_reserved_by_two_rules :
    decode [0x10C3#16] = .ok (.illegalSwpbB 0x03#6, []) ∧
    decode [0x11F0#16, 5#16] = .ok (.illegalSxtB 0x30#6, [5#16]) ∧
    decode [0xA083#16] = .ok (.illegalAxxx 0x083#12, []) := by decide

/-- A stream too short for the instruction is rejected by name. -/
theorem test_decode_rejects_short_streams :
    decode [] = .error .noWord ∧ decode [0x4035#16] = .error (.missingExtension 0x4035#16) ∧
    decode [0x4596#16, 2#16] = .error (.missingExtension 0x4596#16) ∧
    decodeBytes [0x35#8, 0x40#8, 0x34#8] = .error (.missingExtension 0x4035#16) := by decide

/-- The fixed words of the emulated instructions (R127): CLRC, CLRN, CLRZ, DINT, EINT, NOP, RET,
SETC, SETN, SETZ. -/
theorem test_decode_emulated_words :
    [0xC312#16, 0xC222#16, 0xC322#16, 0xC232#16, 0xD232#16, 0x4303#16, 0x4130#16, 0xD312#16,
      0xD222#16, 0xD322#16].map (fun w => decode [w]) =
    [.ok (.bic .word (.const .one) (.reg .sr), []), .ok (.bic .word (.const .four) (.reg .sr), []),
     .ok (.bic .word (.const .two) (.reg .sr), []), .ok (.bic .word (.const .eight) (.reg .sr), []),
     .ok (.bis .word (.const .eight) (.reg .sr), []), .ok (.mov .word (.const .zero) (.reg .cg), []),
     .ok (.mov .word (.autoinc .sp) (.reg .pc), []), .ok (.bis .word (.const .one) (.reg .sr), []),
     .ok (.bis .word (.const .four) (.reg .sr), []), .ok (.bis .word (.const .two) (.reg .sr), [])] := by
  decide

/-! ## One step, results from the vectors of `95_test_vectors.md` -/

/-- The words at 0xC000, running; x[1], x[2], x[4], x[5] as given, the rest as after reset. -/
def start (ws : List Word) (sp sr r4 r5 : Word) : State :=
  let s := readyToRun (placeAtPc ws State.reset)
  { s with sp := sp, sr := sr, gpr := (s.gpr.set 0 r4).set 1 r5 }

/-- Bytes placed in backing storage. -/
def poke (a : Word) (bytes : List Byte) (s : State) : State :=
  { s with mem := placeBytes a bytes s.mem }

/-- What a next state shows, `none` for a fault or a refusal. -/
def seen {α : Type} (o : Host.Outcome State Fault Refusal) (f : State → α) : Option α :=
  match o with
  | .next t => some (f t)
  | .fault _ => none
  | .refused _ => none

/-- x[5], sr and pc. -/
def r5SrPc (t : State) : Word × Word × Word := (t.gpr[1], t.sr, t.pc)

/-- F1.2. -/
theorem test_mov_byte_clears_high_byte :
    seen (step (start [0x4445#16] 0#16 0#16 0xABCD#16 0xFFFF#16)) r5SrPc =
      some (0x00CD#16, 0#16, 0xC002#16) := by decide

/-- F1.17. -/
theorem test_mov_autoincrement_before_destination :
    seen (step (poke 0x0200#16 [0x34#8, 0x12#8] (start [0x45B5#16, 0#16] 0#16 0#16 0#16 0x0200#16)))
      (fun t => (t.gpr[1], readWord 0x0202#16 t)) = some (0x0202#16, 0x1234#16) := by decide

/-- F1.31. -/
theorem test_add_signed_overflow :
    seen (step (start [0x5405#16] 0#16 0#16 1#16 0x7FFF#16)) r5SrPc =
      some (0x8000#16, 0x0104#16, 0xC002#16) := by decide

/-- F1.38. -/
theorem test_add_to_sr_flags_overwrite_result :
    seen (step (start [0x5312#16] 0#16 8#16 0#16 0#16)) (fun t => t.sr) = some 8#16 := by decide

/-- F1.40. -/
theorem test_addc_adds_old_carry :
    seen (step (start [0x6405#16] 0#16 1#16 0#16 0x7FFF#16)) r5SrPc =
      some (0x8000#16, 0x0104#16, 0xC002#16) := by decide

/-- F1.41. -/
theorem test_addc_same_register :
    seen (step (start [0x6505#16] 0#16 1#16 0#16 0x8001#16)) r5SrPc =
      some (0x0003#16, 0x0101#16, 0xC002#16) := by decide

/-- F1.42. -/
theorem test_subc_borrows_without_carry :
    seen (step (start [0x7405#16] 0#16 0#16 1#16 5#16)) r5SrPc =
      some (0x0003#16, 0x0001#16, 0xC002#16) := by decide

/-- F1.44. -/
theorem test_subc_signed_overflow :
    seen (step (start [0x7405#16] 0#16 0#16 0#16 0x8000#16)) r5SrPc =
      some (0x7FFF#16, 0x0101#16, 0xC002#16) := by decide

/-- F1.49. -/
theorem test_sub_of_most_negative :
    seen (step (start [0x8405#16] 0#16 0#16 0x8000#16 0#16)) r5SrPc =
      some (0x8000#16, 0x0104#16, 0xC002#16) := by decide

/-- F1.53. -/
theorem test_sub_byte_borrow :
    seen (step (start [0x8445#16] 0#16 0#16 1#16 0xAB00#16)) r5SrPc =
      some (0x00FF#16, 0x0004#16, 0xC002#16) := by decide

/-- F1.55. -/
theorem test_cmp_overflow_keeps_order :
    seen (step (start [0x9405#16] 0#16 0#16 0xFFFF#16 0x7FFF#16)) r5SrPc =
      some (0x7FFF#16, 0x0104#16, 0xC002#16) := by decide

/-- F1.58. -/
theorem test_cmp_byte_autoincrement_no_write :
    seen (step (poke 0x0200#16 [0x78#8] (start [0x9475#16] 0#16 0#16 0x0200#16 0x1278#16)))
      (fun t => (t.gpr[0], t.gpr[1], t.sr)) = some (0x0201#16, 0x1278#16, 0x0003#16) := by decide

/-- F1.61. -/
theorem test_bit_negative :
    seen (step (start [0xB035#16, 0x8000#16] 0#16 0#16 0#16 0x8001#16)) r5SrPc =
      some (0x8001#16, 0x0005#16, 0xC004#16) := by decide

/-- F1.62. -/
theorem test_bit_clears_v :
    seen (step (start [0xB315#16] 0#16 0x0101#16 0#16 0x8000#16)) r5SrPc =
      some (0x8000#16, 0x0002#16, 0xC002#16) := by decide

/-- F1.63. -/
theorem test_bic_keeps_flags :
    seen (step (start [0xC405#16] 0#16 0x0107#16 0x00FF#16 0x1234#16)) r5SrPc =
      some (0x1200#16, 0x0107#16, 0xC002#16) := by decide

/-- F1.65. -/
theorem test_bic_clears_carry_in_sr :
    seen (step (start [0xC312#16] 0#16 0x0107#16 0#16 0#16)) (fun t => t.sr) = some 0x0106#16 := by
  decide

/-- F1.66. -/
theorem test_bis_sets_bits :
    seen (step (start [0xD405#16] 0#16 0#16 0x000F#16 0x1230#16)) r5SrPc =
      some (0x123F#16, 0#16, 0xC002#16) := by decide

/-- F1.68: CPUOFF is storage, the block goes on running (R330). -/
theorem test_bis_cpuoff_does_not_stop :
    seen (step (start [0xD032#16, 0x0010#16] 0#16 0#16 0#16 0#16))
      (fun t => (t.sr, t.pc, t.ctl.runState)) = some (0x0010#16, 0xC004#16, .running) := by decide

/-- F1.70. -/
theorem test_xor_v_when_both_negative :
    seen (step (start [0xE505#16] 0#16 0#16 0#16 0x8001#16)) r5SrPc =
      some (0x0000#16, 0x0102#16, 0xC002#16) := by decide

/-- F1.72. -/
theorem test_xor_byte :
    seen (step (start [0xE375#16] 0#16 0#16 0#16 0x12F0#16)) r5SrPc =
      some (0x000F#16, 0x0101#16, 0xC002#16) := by decide

/-- F1.74. -/
theorem test_and_byte :
    seen (step (start [0xF375#16] 0#16 0#16 0#16 0x1280#16)) r5SrPc =
      some (0x0080#16, 0x0005#16, 0xC002#16) := by decide

/-- F1.75. -/
theorem test_and_to_sr_flags_overwrite_result :
    seen (step (start [0xF032#16, 0xFFF7#16] 0#16 0x000F#16 0#16 0#16)) (fun t => t.sr) =
      some 0x0001#16 := by decide

/-- F2.3. -/
theorem test_rrc_byte :
    seen (step (start [0x1045#16] 0#16 1#16 0#16 0xAB01#16)) r5SrPc =
      some (0x0080#16, 0x0005#16, 0xC002#16) := by decide

/-- F2.4. -/
theorem test_rrc_writes_back_to_old_address :
    seen (step (poke 0x0200#16 [0x03#8, 0x80#8] (start [0x1034#16] 0#16 0#16 0x0200#16 0#16)))
      (fun t => (readWord 0x0200#16 t, t.gpr[0], t.sr)) =
      some (0x4001#16, 0x0202#16, 0x0001#16) := by decide

/-- F2.6. -/
theorem test_swpb_keeps_flags :
    seen (step (start [0x1085#16] 0#16 0x0107#16 0#16 0x1234#16)) r5SrPc =
      some (0x3412#16, 0x0107#16, 0xC002#16) := by decide

/-- F2.9. -/
theorem test_rra_rounds_toward_minus_infinity :
    seen (step (start [0x1105#16] 0#16 0#16 0#16 0xFFFF#16)) r5SrPc =
      some (0xFFFF#16, 0x0005#16, 0xC002#16) := by decide

/-- F2.11. -/
theorem test_rra_byte_sign :
    seen (step (start [0x1145#16] 0#16 0#16 0#16 0x1281#16)) r5SrPc =
      some (0x00C0#16, 0x0005#16, 0xC002#16) := by decide

/-- F2.12. -/
theorem test_sxt_negative :
    seen (step (start [0x1185#16] 0#16 0#16 0#16 0x0080#16)) r5SrPc =
      some (0xFF80#16, 0x0005#16, 0xC002#16) := by decide

/-- F2.13. -/
theorem test_sxt_ignores_high_byte :
    seen (step (start [0x1185#16] 0#16 0x0101#16 0#16 0x1200#16)) r5SrPc =
      some (0x0000#16, 0x0002#16, 0xC002#16) := by decide

/-- F2.16. -/
theorem test_push_byte_moves_sp_by_two :
    seen (step (poke 0x03FE#16 [0x11#8, 0x22#8]
      (start [0x1245#16] 0x0400#16 0#16 0#16 0xBEEF#16)))
      (fun t => (t.sp, readWord 0x03FE#16 t)) = some (0x03FE#16, 0x22EF#16) := by decide

/-- F2.17. -/
theorem test_push_sp_stores_old_sp :
    seen (step (start [0x1201#16] 0x0400#16 0#16 0#16 0#16))
      (fun t => (t.sp, readWord 0x03FE#16 t)) = some (0x03FE#16, 0x0400#16) := by decide

/-- F2.24. -/
theorem test_call_immediate :
    seen (step (start [0x12B0#16, 0xC018#16] 0x0400#16 0#16 0#16 0#16))
      (fun t => (t.pc, t.sp, readWord 0x03FE#16 t)) =
      some (0xC018#16, 0x03FE#16, 0xC004#16) := by decide

/-- F2.27. -/
theorem test_call_through_memory_autoincrement :
    seen (step (poke 0x0200#16 [0x00#8, 0xD0#8] (start [0x12B5#16] 0x0400#16 0#16 0#16 0x0200#16)))
      (fun t => (t.pc, t.gpr[1], readWord 0x03FE#16 t)) =
      some (0xD000#16, 0x0202#16, 0xC002#16) := by decide

/-- F2.30. -/
theorem test_reti_drops_bit_0_of_pc :
    seen (step (poke 0x03FC#16 [0x09#8, 0x00#8, 0x23#8, 0xC1#8]
      (start [0x1300#16] 0x03FC#16 0#16 0#16 0#16)))
      (fun t => (t.sr, t.pc, t.sp)) = some (0x0009#16, 0xC122#16, 0x0400#16) := by decide

/-- F2.31. -/
theorem test_reti_masks_sr :
    seen (step (poke 0x03FC#16 [0xFF#8, 0xFF#8, 0x00#8, 0xD0#8]
      (start [0x1300#16] 0x03FC#16 0#16 0#16 0#16)))
      (fun t => (t.sr, t.pc)) = some (0x01FF#16, 0xD000#16) := by decide

/-- pc after the one-word instruction `w` with the flags `sr`. -/
def pcAfter (w sr : Word) : Option Word := seen (step (start [w] 0#16 sr 0#16 0#16)) (·.pc)

/-- J1, J2. -/
theorem test_jne : pcAfter 0x23FD#16 0#16 = some 0xBFFC#16 ∧
    pcAfter 0x23FD#16 2#16 = some 0xC002#16 := by decide

/-- J3, J4. -/
theorem test_jeq : pcAfter 0x2403#16 2#16 = some 0xC008#16 ∧
    pcAfter 0x2403#16 0#16 = some 0xC002#16 := by decide

/-- J5, J6. -/
theorem test_jnc : pcAfter 0x2801#16 0#16 = some 0xC004#16 ∧
    pcAfter 0x2801#16 1#16 = some 0xC002#16 := by decide

/-- J7, J8. -/
theorem test_jc : pcAfter 0x2FFE#16 1#16 = some 0xBFFE#16 ∧
    pcAfter 0x2FFE#16 0#16 = some 0xC002#16 := by decide

/-- J9, J10. -/
theorem test_jn : pcAfter 0x3002#16 4#16 = some 0xC006#16 ∧
    pcAfter 0x3002#16 0#16 = some 0xC002#16 := by decide

/-- J12, J14. -/
theorem test_jge : pcAfter 0x3401#16 0x0104#16 = some 0xC004#16 ∧
    pcAfter 0x3401#16 0x0100#16 = some 0xC002#16 := by decide

/-- J16, J17. -/
theorem test_jl : pcAfter 0x3801#16 0x0100#16 = some 0xC004#16 ∧
    pcAfter 0x3801#16 0x0104#16 = some 0xC002#16 := by decide

/-- J21, J22. -/
theorem test_jmp : pcAfter 0x3DFF#16 0#16 = some 0xC400#16 ∧
    pcAfter 0x3E00#16 0#16 = some 0xBC02#16 := by decide

/-- What the vectors X1 to X8 say of the word `w` at 0xC000: the pair (0xC000, w) is reported, the
block is halted, pc stays, nothing is ticked. -/
def raises (w : Word) : Bool :=
  seen (step (start [w, 2#16] 0#16 0#16 0#16 0#16)) (fun t =>
    t.ctl.report == some ⟨0xC000#16, w⟩ && t.ctl.runState == .halted && t.pc == 0xC000#16 &&
      t.clock.clkCycles == 0) == some true

/-- X1 to X3: the rows of R115 and R116. -/
theorem test_reserved_ranges_raise_the_exception :
    raises 0x0FFF#16 = true ∧
    raises 0x1400#16 = true ∧
    raises 0x1FFF#16 = true ∧
    raises 0xA405#16 = true := by decide

/-- X4, X5: op = 7, and the byte forms of SWPB, SXT, CALL. -/
theorem test_reserved_format_ii_raises_the_exception :
    raises 0x1380#16 = true ∧
    raises 0x10C5#16 = true ∧
    raises 0x11C5#16 = true ∧
    raises 0x12C5#16 = true := by decide

/-- X6: the high rows of R117(c). -/
theorem test_reserved_reti_raises_the_exception :
    raises 0x1340#16 = true ∧
    raises 0x1320#16 = true ∧
    raises 0x1310#16 = true ∧
    raises 0x1308#16 = true := by decide

/-- X6: the low rows of R117(c). -/
theorem test_reserved_low_reti_raises_the_exception :
    raises 0x1304#16 = true ∧
    raises 0x1302#16 = true ∧
    raises 0x1301#16 = true := by decide

/-- X7, X8. -/
theorem test_reserved_operands_raise_the_exception :
    raises 0x4483#16 = true ∧
    raises 0x1003#16 = true ∧
    raises 0x1032#16 = true ∧
    raises 0x10B0#16 = true := by decide

/-- Words that both a reserved row and R118 reserve raise the same exception. -/
theorem test_words_reserved_by_two_rules_raise_the_exception :
    raises 0x10C3#16 = true ∧ raises 0x11F0#16 = true ∧ raises 0xA083#16 = true := by decide

/-- After the exception the block stands halted: the fault of R9 and U19. -/
theorem test_halted_by_illegal_answers_the_fault :
    step (takeIllegal 0xA405#16 State.reset) = .fault (.illegalInstruction 0xC000#16 0xA405#16) :=
  rfl

/-! ## Memory and peripherals -/

/-- M2: a misaligned word write. -/
theorem test_misaligned_store :
    seen (step (start [0x4482#16, 0x0201#16] 0#16 0#16 0xBEEF#16 0#16))
      (fun t => (readWord 0x0200#16 t, readWord 0x0202#16 t)) =
      some (0xEF00#16, 0x00BE#16) := by decide

/-- P8: a misaligned word write over P1OUT and P1DIR, P1OUT first. -/
theorem test_store_over_p1out_and_p1dir :
    seen (step (start [0x40B2#16, 0xFF01#16, 0x0021#16] 0#16 0#16 0#16 0#16))
      (fun t => (t.events, t.gpio.p1dir)) =
      some ([.gpio 1 0 false true 0xC000#16], 0xFF#8) := by decide

/-- P4. -/
theorem test_serial_transmit :
    seen (step (start [0x40F2#16, 0x0041#16, 0x0067#16] 0#16 0#16 0#16 0#16))
      (fun t => (t.events, t.serialStream)) =
      some ([.serialTx 0x41#8 0xC000#16], [0x41#8]) := by decide

/-- T3. -/
theorem test_timer_remainder_and_pending :
    timerTick 4 ⟨0x0012#16, 6#16, 8#16, false⟩ = ⟨0x0013#16, 2#16, 8#16, true⟩ := by decide

/-- T9. -/
theorem test_timer_one_overflow_per_tick :
    timerTick 4 ⟨0x0010#16, 0x64#16, 8#16, false⟩ = ⟨0x0010#16, 96#16, 8#16, true⟩ := by decide

/-! ## Witnesses: states and operands that meet the hypotheses of the statements -/

/-- Reset memory, pc at 0xC000, running: the hypotheses that ask for a running block, canonical
memory and no breakpoint in the way. -/
def running (ws : List Word) : State := start ws 0x0400#16 0#16 0x0200#16 0x0300#16

/-- DecodeOfEncodeIsTheInstruction, PcMovesPastTheWords. -/
theorem witness_well_formed_three_words :
    (Instr.mov .word (.indexed .sp 2#16) (.absolute 0xFFFF#16)).wf = true ∧
    (Instr.mov .word (.indexed .sp 2#16) (.absolute 0xFFFF#16)).isReserved = false ∧
    writesPc (.mov .word (.indexed .sp 2#16) (.absolute 0xFFFF#16)) = false := by decide

/-- EncodeOfDecodeIsTheStream. -/
theorem witness_decode_leaves_a_rest :
    decode [0x4035#16, 0x1234#16, 0x3FFF#16] =
      .ok (.mov .word (.immediate 0x1234#16) (.reg (.gpr 1)), [0x3FFF#16]) := by decide

/-- StepRunsTheDecodedInstruction, for an executed and for a reserved word. -/
theorem witness_running_state_decodes :
    (running [0x4035#16, 0x1234#16]).ctl.runState = .running ∧
    breakpointHit (running [0x4035#16, 0x1234#16]) = false ∧
    decode (fetchStream (running [0x4035#16, 0x1234#16])) =
      .ok (.mov .word (.immediate 0x1234#16) (.reg (.gpr 1)), [0x0000#16]) ∧
    decode (fetchStream (running [0xA405#16])) = .ok (.illegalAxxx 0x405#12, [0#16, 0#16]) := by
  decide

/-- StepRaisesIllegalExactlyOnReservedWords, ResumeAfterIllegalRaisesItAgain: a reserved row at
both ends of its range, a reserved operand, and a word that is neither. -/
theorem witness_reserved_words :
    reservedWord (readWord (running [0x13FF#16]).pc (running [0x13FF#16])) ∧
    reservedWord (readWord (running [0x1301#16]).pc (running [0x1301#16])) ∧
    reservedWord (readWord (running [0x4083#16]).pc (running [0x4083#16])) ∧
    reservedWord (readWord (running [0x1032#16]).pc (running [0x1032#16])) ∧
    ¬ reservedWord (readWord (running [0x1300#16]).pc (running [0x1300#16])) := by
  refine ⟨?_, ?_, ?_, ?_, ?_⟩ <;> unfold reservedWord reservedRowWord reservedOperandWord <;> decide

/-- A state with an enabled breakpoint at pc: BreakpointHaltsBeforeExecution, and the first cause of
RunningIsLeftOnlyAsListed. -/
theorem witness_breakpoint_at_pc :
    let s := setBreakpoints [⟨0xC000#16, true⟩] (running [0x4303#16])
    s.ctl.runState = .running ∧ s.ctl.stepPending = false ∧
    (⟨0xC000#16, true⟩ : Breakpoint) ∈ s.ctl.breakpoints ∧ breakpointHit s = true := by decide

/-- RunningIsLeftOnlyAsListed: a single step and a halt request, on a word that is not reserved, and
a block that goes on running. -/
theorem witness_ways_out_of_running :
    seen (step (hostCommand .singleStep { running [0x4303#16] with ctl := RunControl.reset }))
      (·.ctl.runState) = some .halted ∧
    seen (step (hostCommand .requestHalt (running [0x4303#16]))) (·.ctl.runState) = some .halted ∧
    seen (step (running [0x4303#16])) (·.ctl.runState) = some .running := by decide

/-- SingleStepRunsOneInstruction, HostRunCommands, BreakpointCommands, HaltedBlockMakesNoStep: a
halted block, with breakpoints in order and without a report. -/
theorem witness_halted_block :
    let s := setBreakpoints [⟨0xC000#16, true⟩, ⟨0xFFFE#16, false⟩] State.reset
    s.ctl.runState = .halted ∧ s.ctl.report = none ∧
    breakpointsFrom 0 s.ctl.breakpoints = true := by decide

/-- SingleStepRunsOneInstruction: a halted block whose word at pc is not reserved, and one (reset)
whose word is. -/
theorem witness_halted_at_a_word :
    let s : State := { running [0x4303#16] with ctl := RunControl.reset }
    s.ctl.runState = .halted ∧ ¬ reservedWord (readWord s.pc s) ∧
    State.reset.ctl.runState = .halted ∧
    reservedWord (readWord State.reset.pc State.reset) := by
  unfold reservedWord reservedRowWord reservedOperandWord; decide

/-- HaltedBlockMakesNoStep: a halted block with a report. -/
theorem witness_halted_with_report :
    (takeIllegal 0xA405#16 State.reset).ctl.runState = .halted ∧
    (takeIllegal 0xA405#16 State.reset).ctl.report = some ⟨0xC000#16, 0xA405#16⟩ := by decide

/-- Arguments of reset: an image, a stub, memory, registers and pins that are not the model's. -/
def sampleArgs : ResetArgs where
  cfg      := Config.default
  fwImage  := [0xFF#8, 0x3F#8]
  bootStub := [0x01#8]
  memInit  := [(0x0200, 0x55#8)]
  spInit   := 0x0400#16
  gprInit  := Vector.replicate 12 7#16
  pins     := 0xF0#8

/-- ConstructedBlockMeetsTheInvariant, ConstructedBlockHasTheResetValues,
ImagesStandAtTheirAddresses. -/
theorem witness_construct : (construct sampleArgs).isSome = true := by decide

/-- ImagesStandAtTheirAddresses: an image that does not fit. -/
theorem witness_image_too_long : 16384 < (List.replicate 16385 (0#8 : Byte)).length := by
  rw [List.length_replicate]; omega

/-- StepKeepsTheInvariant, HostActionsKeepTheInvariant. -/
theorem witness_inv_of_a_running_block : Inv (running [0x4303#16]) := by
  constructor <;> decide

/-- StepKeepsTheInvariant, StepKeepsWhatTheHostOwns, StepAppendsToTheTrace: a step that appends. -/
theorem witness_step_appends :
    seen (step (running [0x40F2#16, 0x0041#16, 0x0067#16])) (·.events) =
      some [.serialTx 0x41#8 0xC000#16] := by decide

/-- ProgramCannotSeeHostState: two states that differ for the host and agree for the program. -/
theorem witness_same_program_view :
    let s := running [0x4303#16]
    let u := hostCommand .requestHalt { s with timer := { s.timer with taOut := true } }
    programView s = programView u ∧ s ≠ u := by decide

/-- EveryInstructionGivesANextState has no hypothesis; ill-formed terms take the exception. -/
theorem test_ill_formed_term_takes_the_exception :
    seen (exec (.mov .word (.reg .pc) (.indexed .cg 0#16)) State.reset) (·.ctl.runState) =
      some .halted := by decide

/-- StoresAreLittleEndian: backing storage at the top of memory, where the word wraps. -/
theorem witness_plain_word_at_the_top :
    Memory.wf State.reset.mem = true ∧ laneAt State.reset.cfg 0xFFFF#16 = none ∧
    laneAt State.reset.cfg (0xFFFF#16 + 1#16) = none := by decide

/-- StoresChangeOnlyTheirBytes, WritingAResult: a byte just above a word store, P1IN under a store that
reaches neither P1OUT nor P1DIR, and both neighbours of a byte store. -/
theorem witness_outside_store :
    outsideStore State.reset .word 0x0200#16 0x0202#16 ∧
    outsideStore State.reset .word 0x0022#16 0x0024#16 ∧
    outsideStore State.reset .byte 0x0023#16 0x0020#16 ∧
    outsideStore State.reset .byte 0x0201#16 0x0202#16 ∧
    outsideStore State.reset .byte 0x0201#16 0x0200#16 := by
  refine ⟨?_, ?_, ?_, ?_, ?_⟩ <;> unfold outsideStore covers <;> refine ⟨by decide, ?_⟩
  · intro h; exact absurd h (by decide)
  · intro h; exact absurd h (by decide)
  · rintro - b rfl; decide
  · intro h; exact absurd h (by decide)
  · intro h; exact absurd h (by decide)

/-- WritingAResult: a mapped and an unmapped location whose word stays off P1IN, a byte result at its
bound, canonical memory. -/
theorem witness_location_written :
    laneAt State.reset.cfg 0xFFFF#16 ≠ some .p1in ∧
    laneAt State.reset.cfg (0xFFFF#16 + 1#16) ≠ some .p1in ∧
    laneAt State.reset.cfg 0x0021#16 = some .p1out ∧
    laneAt State.reset.cfg (0x0021#16 + 1#16) = some .p1dir ∧
    (0x00FF#16).toNat < 256 ∧ Memory.wf State.reset.mem = true := by decide

/-- FrameOfMemoryResults, FrameOfModifyInstructions, FrameOfPushAndCall: a store to backing storage
alone. -/
theorem witness_plain_storage : plainStorage State.reset .word 0xFFFF#16 := by
  rintro b (rfl | rfl) <;> decide

/-- MappedBytesReadBackAsTheirHandlersSay, P1OutWriteReportsEachChangedPin, P1InReadsEachPin,
TxBufWriteTransmits. -/
theorem witness_lanes :
    laneAt State.reset.cfg 0x0003#16 = some .ifg2 ∧ laneAt State.reset.cfg 0x0020#16 = some .p1in ∧
    laneAt State.reset.cfg 0x0021#16 = some .p1out ∧
    laneAt State.reset.cfg 0x0067#16 = some .uca0txbuf ∧
    laneAt State.reset.cfg 0x0161#16 = some .tactlHigh := by decide

/-- TimerTickCountsAndOverflows: stopped, period 0, exactly at the period, one below it. -/
theorem witness_timer_clauses :
    (⟨0#16, 5#16, 8#16, false⟩ : Timer).mc = 0b00#2 ∧
    (⟨0x10#16, 5#16, 0#16, false⟩ : Timer).period = 0 ∧
    (⟨0x10#16, 4#16, 8#16, false⟩ : Timer).mc ≠ 0b00#2 ∧
    (⟨0x10#16, 4#16, 8#16, false⟩ : Timer).period = 4 + 4 ∧
    (⟨0x20#16, 0xFFFB#16, 0#16, false⟩ : Timer).period = 0xFFFB + 4 + 1 := by decide

/-- The Format I result statements: an instruction of each is well-formed, with C set for ADDC and
clear for SUBC. -/
theorem witness_format_i_well_formed :
    (Instr.mov .byte (.autoinc (.gpr 0)) (.reg .cg)).wf = true ∧
    (Instr.addc .word (.const .minusOne) (.indexed .sp 0#16)).wf = true ∧
    (Instr.subc .byte (.symbolic 0#16) (.reg .sr)).wf = true ∧
    (Instr.cmp .word (.reg .sr) (.symbolic 0#16)).wf = true ∧
    (Instr.and .byte (.indirect .pc) (.reg .pc)).wf = true ∧
    (Instr.xor .word (.immediate 0#16) (.absolute 0#16)).wf = true ∧
    (Instr.bic .word (.reg .sp) (.reg (.gpr 11))).wf = true ∧
    carryNat (start [] 0#16 1#16 0#16 0#16) = 1 ∧ carryNat State.reset = 0 := by decide

/-- The Format II result statements. -/
theorem witness_format_ii_well_formed :
    (Instr.rrc .byte (.reg .sr)).wf = true ∧ (Instr.rra .word (.autoinc .sp)).wf = true ∧
    (Instr.swpb (.indirect .pc)).wf = true ∧ (Instr.push .byte (.const .eight)).wf = true ∧
    (Instr.call (.symbolic 0#16)).wf = true := by decide

/-- CallThenRetReturns. -/
theorem witness_call_then_ret :
    let s := running [0x12B0#16, 0xC018#16]
    (Instr.call (.immediate 0xC018#16)).wf = true ∧ Memory.wf s.mem = true ∧
    s.pc.getLsbD 0 = false ∧ Src.immediate 0xC018#16 ≠ .autoinc .sp ∧
    laneAt s.cfg (s.sp - 2#16) = none ∧ laneAt s.cfg (s.sp - 1#16) = none ∧
    seen (exec (.call (.immediate 0xC018#16)) s) (fun t =>
      seen (exec (.mov .word (.autoinc .sp) (.reg .pc)) t) (·.pc)) = some (some 0xC004#16) := by
  decide

/-- JumpsGoToTheirTarget: a jump taken and one not taken, at the ends of the offset's range. -/
theorem witness_jumps :
    jump State.reset (.jne 0x1FF#10) = some (0x1FF#10, true) ∧
    jump State.reset (.jc 0x200#10) = some (0x200#10, false) ∧
    jump State.reset (.jge 0#10) = some (0#10, true) := by decide

/-- ReservedRowsRaiseIllegalInstruction. -/
theorem witness_reserved_instruction : (Instr.illegalReti1301).isReserved = true := rfl

/-- ParkedProgramOnlyTicks. -/
theorem witness_parked :
    (running [0x3FFF#16]).ctl.runState = .running ∧ breakpointHit (running [0x3FFF#16]) = false ∧
    (running [0x3FFF#16]).pc.getLsbD 0 = false ∧ parked (running [0x3FFF#16]) = true := by decide

/-- FrameOfRegisterResults: a register destination, and a compare with a destination in memory. -/
theorem witness_frame_register :
    formatI (.add .word (.autoinc (.gpr 0)) (.reg (.gpr 1))) =
      some (.word, .autoinc (.gpr 0), .reg (.gpr 1)) ∧
    (Instr.add .word (.autoinc (.gpr 0)) (.reg (.gpr 1))).wf = true ∧
    noResult (.cmp .byte (.reg .pc) (.absolute 0x0021#16)) = true ∧
    (Instr.cmp .byte (.reg .pc) (.absolute 0x0021#16)).wf = true := by decide

/-- FrameOfMemoryResults. -/
theorem witness_frame_memory :
    formatI (.mov .word (.reg .pc) (.indexed (.gpr 1) 2#16)) =
      some (.word, .reg .pc, .indexed (.gpr 1) 2#16) ∧
    (Instr.mov .word (.reg .pc) (.indexed (.gpr 1) 2#16)).wf = true ∧
    noResult (.mov .word (.reg .pc) (.indexed (.gpr 1) 2#16)) = false ∧
    (resolveOperands .word (.reg .pc) (.indexed (.gpr 1) 2#16) (running [])).loc =
      .mem 0x0302#16 := by decide

/-- FrameOfModifyInstructions: a register operand and a memory operand. -/
theorem witness_frame_modify :
    modified (.swpb (.reg (.gpr 1))) = some (.word, .reg (.gpr 1)) ∧
    modified (.rrc .byte (.autoinc (.gpr 0))) = some (.byte, .autoinc (.gpr 0)) ∧
    (resolveSrc (.autoinc (.gpr 0)) .byte (running [])).loc = .mem 0x0200#16 := by decide

end Sys2Proof.Tests
end

section
/-! PROOFS. What a halted block answers (`00_scope.md` R9). -/

namespace Sys2Proof.Proofs

open Sys2Proof Sys2Proof.Machine

/-- Without a report the block waits for the host (log 4). -/
theorem answerHalted_of_no_report {s : State} (h : s.ctl.report = none) :
    answerHalted s = .refused .haltedAwaitingHost := by
  simp [answerHalted, h]

/-- The report names the illegal instruction that halted the block (log 3). -/
theorem answerHalted_of_report {s : State} {r : IllegalReport} (h : s.ctl.report = some r) :
    answerHalted s = .fault (.illegalInstruction r.ia r.w) := by
  simp [answerHalted, h]

/-- Settles O12: a halted block's step is `answerHalted`, whose two cases are the two clauses. -/
theorem haltedBlockMakesNoStep : Obligations.HaltedBlockMakesNoStep := by
  intro s hs
  rw [step_halted s hs]
  exact ⟨answerHalted_of_no_report, fun _ => answerHalted_of_report⟩

end Sys2Proof.Proofs
end

section
/-! PROOFS. The decoder answers only well-formed instructions (`30_encoding.md` R104, R118). -/

namespace Sys2Proof.Proofs

open Sys2Proof Sys2Proof.Machine

/-- An operand whose fields R118(b) does not reserve can be written back to. -/
theorem isWritable_of_not_reserved (o : Src) (h : operandReserved o.as o.field = false) :
    o.isWritable = true := by
  cases o with
  | immediate v => exact Bool.noConfusion h
  | const c => cases c <;> exact absurd h (by decide)
  | _ => rfl

/-- A Format I instruction is read with well-formed operands. -/
theorem decodeFormatI_wf {mk : Size → Src → Dst → Instr} {w : Word} {ws rest : List Word}
    {i : Instr} (hmk : ∀ n src dst, (mk n src dst).wf = (src.wf && dst.wf))
    (h : decodeFormatI mk w ws = .ok (i, rest)) : i.wf = true := by
  unfold decodeFormatI at h
  split at h
  · cases h
  · next hr =>
    split at h
    · cases h
    · next src ws1 hs =>
      split at h
      · cases h
      · next dst ws2 hd =>
        cases h
        rw [hmk, (decodeSrc_read _ _ _ _ _ _ hs).1,
          (decodeDst_read _ _ _ _ _ _ hd (by simpa using hr)).1, Bool.and_self]

/-- A Format II instruction is read with a well-formed operand, whose fields are the word's. -/
theorem decodeOperand_read {mk : Src → Instr} {w : Word} {ws rest : List Word} {i : Instr}
    (h : decodeOperand mk w ws = .ok (i, rest)) :
    ∃ o, i = mk o ∧ o.wf = true ∧ o.as = w.extractLsb' 4 2 ∧ o.field = w.extractLsb' 0 4 := by
  unfold decodeOperand at h
  split at h
  · cases h
  · next o ws1 ho =>
    cases h
    obtain ⟨hw, ha, hf, -⟩ := decodeSrc_read _ _ _ _ _ _ ho
    exact ⟨o, rfl, hw, ha, hf⟩

theorem decodeOperand_wf {mk : Src → Instr} {w : Word} {ws rest : List Word} {i : Instr}
    (hmk : ∀ o, (mk o).wf = o.wf) (h : decodeOperand mk w ws = .ok (i, rest)) : i.wf = true := by
  obtain ⟨o, rfl, hw, -⟩ := decodeOperand_read h
  rw [hmk, hw]

/-- A read-modify-write instruction is read with an operand that can be written back to. -/
theorem decodeModify_wf {mk : Src → Instr} {w : Word} {ws rest : List Word} {i : Instr}
    (hmk : ∀ o, (mk o).wf = (o.wf && o.isWritable)) (h : decodeModify mk w ws = .ok (i, rest)) :
    i.wf = true := by
  unfold decodeModify at h
  split at h
  · cases h
  · next hr =>
    obtain ⟨o, rfl, hw, ha, hf⟩ := decodeOperand_read h
    have hm : o.isWritable = true := isWritable_of_not_reserved o (by simpa [ha, hf] using hr)
    rw [hmk, hw, hm, Bool.and_self]

theorem decodeReti_wf (w : Word) : (decodeReti w).wf = true := by
  unfold decodeReti
  repeat' split
  all_goals rfl

theorem decodeJump_wf (w : Word) : (decodeJump w).wf = true := by
  unfold decodeJump
  split <;> rfl

theorem decodeFormatII_wf {w : Word} {ws rest : List Word} {i : Instr}
    (h : decodeFormatII w ws = .ok (i, rest)) : i.wf = true := by
  unfold decodeFormatII at h
  split at h
  case h_1 | h_3 => exact decodeModify_wf (fun _ => rfl) h
  case h_2 | h_4 =>
    split at h
    · cases h; rfl
    · exact decodeModify_wf (fun _ => rfl) h
  case h_5 => exact decodeOperand_wf (fun _ => rfl) h
  case h_6 =>
    split at h
    · cases h; rfl
    · exact decodeOperand_wf (fun _ => rfl) h
  case h_7 => cases h; exact decodeReti_wf w
  case h_8 => cases h; rfl

theorem decodeOne_wf {w : Word} {ws rest : List Word} {i : Instr}
    (h : decodeOne w ws = .ok (i, rest)) : i.wf = true := by
  unfold decodeOne at h
  split at h
  · cases h; rfl
  · split at h
    · cases h; rfl
    · exact decodeFormatII_wf h

/-- What the decoder reads is an instruction of the hardware. -/
theorem decode_wf {stream rest : List Word} {i : Instr} (h : decode stream = .ok (i, rest)) :
    i.wf = true := by
  cases stream with
  | nil => cases h
  | cons w ws =>
    simp only [decode] at h
    split at h
    case h_1 | h_11 => cases h; rfl
    case h_2 => exact decodeOne_wf h
    case h_3 | h_4 => cases h; exact decodeJump_wf w
    all_goals exact decodeFormatI_wf (fun _ _ _ => rfl) h

end Sys2Proof.Proofs
end

section
/-! PROOFS. What an executed instruction can do, said once by the shape of its operands; what a step
can do, said once (`40_fetch_and_operands.md` R140, R191, `60_exceptions.md` R279). -/

namespace Sys2Proof.Proofs

open Sys2Proof Sys2Proof.Machine Sys2Proof.Claims

/-! ## An instruction -/

/-- The flag write of an instruction that may keep the flags (R162, R168). -/
def writeFlags (f : Option Flags) (s : State) : State :=
  match f with
  | none => s
  | some f => setFlags f s

@[simp] theorem writeFlags_pc (f : Option Flags) (s : State) : (writeFlags f s).pc = s.pc := by
  cases f <;> rfl

/-- The states an instruction that raises no exception can make of `s`: its operands are resolved
from the word after the instruction word, then a template of R151, R191, R224 to R226 or R250
applies. The result `v` and the flags `f` are what the instruction computes;
MOV, BIC, BIS and SWPB set none (R168). -/
inductive Effect (i : Instr) (s : State) : State → Prop
  | compare {n : Size} {src : Src} {dst : Dst} (f : Flags)
      (hi : formatI i = some (n, src, dst)) (hn : noResult i = true) (hs : src.wf = true) :
      Effect i s (setFlags f (resolveOperands n src dst s).state)
  | result {n : Size} {src : Src} {dst : Dst} (v : Word) (f : Option Flags)
      (hi : formatI i = some (n, src, dst)) (hn : noResult i = false) (hs : src.wf = true)
      (hf : keepsFlags i = true → f = none) :
      Effect i s (writeFlags f (writeLoc s.pc n (resolveOperands n src dst s).loc v
        (resolveOperands n src dst s).state))
  | modify {n : Size} {opd : Src} (v : Word) (f : Option Flags)
      (hi : modified i = some (n, opd)) (hs : opd.wf = true)
      (hf : keepsFlags i = true → f = none) :
      Effect i s (writeFlags f (writeLoc s.pc n (resolveSrc opd n (consumeWord s)).loc v
        (resolveSrc opd n (consumeWord s)).state))
  | push {n : Size} {opd : Src} (hi : i = .push n opd) (hs : opd.wf = true) :
      Effect i s (pushValue s.pc n (resolveSrc opd n (consumeWord s)).value
        (resolveSrc opd n (consumeWord s)).state)
  | call {opd : Src} (hi : i = .call opd) (hs : opd.wf = true) :
      Effect i s (setPc (resolveSrc opd .word (consumeWord s)).value
        (pushValue s.pc .word (resolveSrc opd .word (consumeWord s)).state.pc
          (resolveSrc opd .word (consumeWord s)).state))
  | reti (hi : i = .reti) : Effect i s (popStatusAndPc (consumeWord s))
  | jump {off : BitVec 10} {taken : Bool} (hi : jump s i = some (off, taken)) :
      Effect i s (jumpIf taken off s)

/-- A jump is the template of R250 under its condition. -/
theorem exec_jump {i : Instr} {s : State} {off : BitVec 10} {taken : Bool}
    (h : jump s i = some (off, taken)) : exec i s = .next (jumpIf taken off s) := by
  have hxor (a b : Bool) : (!(a ^^ b)) = (a == b) := by cases a <;> cases b <;> rfl
  cases i with
  | jne | jeq | jnc | jc | jn | jge | jl | jmp =>
    simp only [jump, Option.some.injEq, Prod.mk.injEq] at h
    obtain ⟨rfl, rfl⟩ := h
    simp [exec, execJne, execJeq, execJnc, execJc, execJn, execJge, execJl, execJmp, hxor]
  | _ => simp [jump] at h

/-- Every well-formed instruction that is no reserved row has one of the effects. -/
theorem exec_effect {i : Instr} {s t : State} (hw : i.wf = true) (hr : i.isReserved = false)
    (h : exec i s = .next t) : Effect i s t := by
  cases i with
  | mov n a d =>
    obtain ⟨ha, hd⟩ := (Bool.and_eq_true _ _).mp hw
    simp only [exec, execMov, guardDst_body _ _ _ _ hd, Host.Outcome.next.injEq] at h
    exact h ▸ .result _ none rfl rfl ha fun _ => rfl
  | bic n a d | bis n a d =>
    obtain ⟨ha, hd⟩ := (Bool.and_eq_true _ _).mp hw
    simp only [exec, execBic, execBis, guardDst_body _ _ _ _ hd, Host.Outcome.next.injEq] at h
    exact h ▸ .result _ none rfl rfl ha fun _ => rfl
  | add n a d | addc n a d | subc n a d | sub n a d | xor n a d | and n a d =>
    obtain ⟨ha, hd⟩ := (Bool.and_eq_true _ _).mp hw
    simp only [exec, execAdd, execAddc, execSubc, execSub, execXor, execAnd,
      guardDst_body _ _ _ _ hd, Host.Outcome.next.injEq] at h
    exact h ▸ .result _ (some _) rfl rfl ha nofun
  | cmp n a d | bit n a d =>
    obtain ⟨ha, hd⟩ := (Bool.and_eq_true _ _).mp hw
    simp only [exec, execCmp, execBit, guardDst_body _ _ _ _ hd, Host.Outcome.next.injEq] at h
    exact h ▸ .compare _ rfl rfl ha
  | rrc n o | rra n o | sxt o =>
    obtain ⟨ho, hm⟩ := (Bool.and_eq_true _ _).mp hw
    simp only [exec, execRrc, execRra, execSxt, guardOperand_body _ _ _ _ ho hm,
      Host.Outcome.next.injEq] at h
    exact h ▸ .modify _ (some _) rfl ho nofun
  | swpb o =>
    obtain ⟨ho, hm⟩ := (Bool.and_eq_true _ _).mp hw
    simp only [exec, execSwpb, guardOperand_body _ _ _ _ ho hm, Host.Outcome.next.injEq] at h
    exact h ▸ .modify _ none rfl ho fun _ => rfl
  | push n o => exact Host.Outcome.next.inj h ▸ .push rfl hw
  | call o => exact Host.Outcome.next.inj h ▸ .call rfl hw
  | reti => exact Host.Outcome.next.inj h ▸ .reti rfl
  | jne | jeq | jnc | jc | jn | jge | jl | jmp =>
    exact Host.Outcome.next.inj ((exec_jump rfl).symm.trans h) ▸ .jump rfl
  | _ => cases hr

/-- A reserved row takes the exception (R270). -/
theorem exec_reserved (i : Instr) (s : State) (h : i.isReserved = true) :
    exec i s = .next (takeIllegal (firstWord i) s) := by
  cases i with
  | illegal0xxx | illegal14xx | illegal18xx | illegalAxxx | illegalFmt2Op7 | illegalSwpbB
  | illegalSxtB | illegalCallB | illegalReti1340 | illegalReti1320 | illegalReti1310
  | illegalReti1308 | illegalReti1304 | illegalReti1302 | illegalReti1301 => rfl
  | _ => cases h

/-! ## The end of an instruction -/

/-- The end of an instruction touches three fields of the run control. -/
theorem endOfInstruction_eq (s : State) :
    endOfInstruction s = { s with
      ctl := { s.ctl with
        runState := (endOfInstruction s).ctl.runState
        stepPending := (endOfInstruction s).ctl.stepPending
        haltRequest := (endOfInstruction s).ctl.haltRequest } } := by
  unfold endOfInstruction
  split <;> rfl

section
variable (i : Instr) (s : State)

@[simp] theorem finishInstruction_pc : (finishInstruction i s).pc = s.pc :=
  congrArg (·.pc) (endOfInstruction_eq _)
@[simp] theorem finishInstruction_sr : (finishInstruction i s).sr = s.sr :=
  congrArg (·.sr) (endOfInstruction_eq _)
@[simp] theorem finishInstruction_mem : (finishInstruction i s).mem = s.mem :=
  congrArg (·.mem) (endOfInstruction_eq _)
@[simp] theorem finishInstruction_gpio : (finishInstruction i s).gpio = s.gpio :=
  congrArg (·.gpio) (endOfInstruction_eq _)
@[simp] theorem finishInstruction_events : (finishInstruction i s).events = s.events :=
  congrArg (·.events) (endOfInstruction_eq _)
@[simp] theorem finishInstruction_serialStream :
    (finishInstruction i s).serialStream = s.serialStream :=
  congrArg (·.serialStream) (endOfInstruction_eq _)
@[simp] theorem finishInstruction_cfg : (finishInstruction i s).cfg = s.cfg :=
  congrArg (·.cfg) (endOfInstruction_eq _)
@[simp] theorem finishInstruction_breakpoints :
    (finishInstruction i s).ctl.breakpoints = s.ctl.breakpoints :=
  congrArg (·.ctl.breakpoints) (endOfInstruction_eq _)
@[simp] theorem finishInstruction_report : (finishInstruction i s).ctl.report = s.ctl.report :=
  congrArg (·.ctl.report) (endOfInstruction_eq _)

end

/-! ## A step -/

/-- The next states of a step: the halt at a breakpoint, the exception, or an instruction executed
to its end. -/
inductive StepTo (s : State) : State → Prop
  | breakpoint (hb : breakpointHit s = true) : StepTo s (haltAtBreakpoint s)
  | illegal (w : Word) : StepTo s (takeIllegal w s)
  | executed {i : Instr} {rest : List Word} {u : State}
      (hd : decode (fetchStream s) = .ok (i, rest)) (hw : i.wf = true)
      (hr : i.isReserved = false) (he : exec i s = .next u) : StepTo s (finishInstruction i u)

theorem runInstruction_cases {s t : State} (h : runInstruction s = .next t) : StepTo s t := by
  cases hd : decode (fetchStream s) with
  | error e =>
    rw [runInstruction_rejected s e hd] at h
    exact Host.Outcome.next.inj h ▸ .illegal _
  | ok r =>
    obtain ⟨i, rest⟩ := r
    cases hr : i.isReserved with
    | true =>
      rw [runInstruction_reserved s i rest hd hr, exec_reserved i s hr] at h
      exact Host.Outcome.next.inj h ▸ .illegal _
    | false =>
      simp only [runInstruction, hd, hr] at h
      cases he : exec i s with
      | next u =>
        rw [he] at h
        exact Host.Outcome.next.inj h ▸ .executed hd (decode_wf hd) hr he
      | fault r => rw [he] at h; cases h
      | refused r => rw [he] at h; cases h

/-- Only a running block makes a step, and it makes one of the three. -/
theorem step_cases {s t : State} (h : step s = .next t) :
    s.ctl.runState = .running ∧ StepTo s t := by
  cases hs : s.ctl.runState with
  | halted =>
    rw [step_halted s hs] at h
    cases hp : s.ctl.report with
    | none => rw [answerHalted_of_no_report hp] at h; cases h
    | some r => rw [answerHalted_of_report hp] at h; cases h
  | running =>
    refine ⟨rfl, ?_⟩
    rw [step_running s hs] at h
    cases hb : breakpointHit s with
    | true =>
      rw [iterate, if_pos hb] at h
      exact Host.Outcome.next.inj h ▸ .breakpoint hb
    | false =>
      rw [iterate_free s hb] at h
      exact runInstruction_cases h

end Sys2Proof.Proofs
end

section
/-! PROOFS. Every step keeps the invariant of the block (`10_state.md` R23, R25, R35). -/

namespace Sys2Proof.Proofs

open Sys2Proof Sys2Proof.Machine Sys2Proof.Claims Sys2Proof.Safety

/-! ## The part of the invariant that register writes concern -/

/-- pc is word-aligned and bits 15:9 of sr are 0 (R23, R25). -/
structure PcSrInv (s : State) : Prop where
  pcAligned  : s.pc.getLsbD 0 = false
  srReserved : s.sr &&& 0xFE00#16 = 0#16

theorem aligned_masked (v : Word) : (v &&& 0xFFFE#16).getLsbD 0 = false := by simp

/-- The next word of the instruction stream stands at an even address as well (R22). -/
theorem aligned_add_two {v : Word} (h : v.getLsbD 0 = false) : (v + 2#16).getLsbD 0 = false := by
  rw [getLsbD_eq, decide_eq_false_iff_not] at *
  rw [BitVec.toNat_add, BitVec.toNat_ofNat]
  omega

theorem reserved_masked (v : Word) : (v &&& 0x01FF#16) &&& 0xFE00#16 = 0#16 := by
  rw [BitVec.and_assoc]
  exact BitVec.and_zero

namespace PcSrInv

variable {s t : State}

theorem of_eq (h : PcSrInv s) (hpc : t.pc = s.pc) (hsr : t.sr = s.sr) : PcSrInv t :=
  ⟨hpc ▸ h.pcAligned, hsr ▸ h.srReserved⟩

theorem consumeWord (h : PcSrInv s) : PcSrInv (consumeWord s) :=
  ⟨aligned_add_two h.pcAligned, h.srReserved⟩

theorem setPc (h : PcSrInv s) (v : Word) : PcSrInv (setPc v s) :=
  ⟨aligned_masked v, h.srReserved⟩

theorem setSr (h : PcSrInv s) (v : Word) : PcSrInv (setSr v s) :=
  ⟨h.pcAligned, reserved_masked v⟩

theorem setFlags (h : PcSrInv s) (f : Flags) : PcSrInv (setFlags f s) :=
  ⟨h.pcAligned, withFlags_reserved f s.sr h.srReserved⟩

theorem writeFlags (h : PcSrInv s) (f : Option Flags) : PcSrInv (writeFlags f s) := by
  cases f with
  | none => exact h
  | some f => exact h.setFlags f

theorem writeReg (h : PcSrInv s) (r : Reg) (v : Word) : PcSrInv (writeReg r v s) := by
  cases r with
  | pc => exact h.setPc v
  | sr => exact h.setSr v
  | sp | cg | gpr => exact h.of_eq rfl rfl

theorem writeMem (h : PcSrInv s) (ia : Word) (n : Size) (a v : Word) :
    PcSrInv (writeMem ia n a v s) :=
  h.of_eq (writeMem_pc ..) (writeMem_sr ..)

theorem writeLoc (h : PcSrInv s) (ia : Word) (n : Size) (l : Loc) (v : Word) :
    PcSrInv (writeLoc ia n l v s) := by
  cases l with
  | const => exact h
  | reg r => exact h.writeReg r v
  | mem ea => exact h.writeMem ia n ea v

/-- The autoincrement's plain write concerns neither pc nor sr on the registers it stands for
(R144, R150). -/
theorem setRegPlain (h : PcSrInv s) {r : Reg} (hr : r.isBase = true) (v : Word) :
    PcSrInv (setRegPlain r v s) := by
  cases r with
  | sp | gpr => exact h.of_eq rfl rfl
  | pc | sr | cg => cases hr

theorem resolveSrc (h : PcSrInv s) {src : Src} (hs : src.wf = true) (n : Size) :
    PcSrInv (resolveSrc src n s).state := by
  cases src with
  | autoinc r => exact h.setRegPlain hs _
  | indexed | symbolic | absolute | immediate => exact h.consumeWord
  | reg | indirect | const => exact h

theorem resolveDst (h : PcSrInv s) (dst : Dst) : PcSrInv (resolveDst dst s).state := by
  cases dst with
  | reg => exact h
  | indexed | symbolic | absolute => exact h.consumeWord

theorem resolveOperands (h : PcSrInv s) {src : Src} (hs : src.wf = true) (n : Size) (dst : Dst) :
    PcSrInv (resolveOperands n src dst s).state :=
  (h.consumeWord.resolveSrc hs n).resolveDst dst

theorem pushValue (h : PcSrInv s) (ia : Word) (n : Size) (v : Word) :
    PcSrInv (pushValue ia n v s) :=
  (h.of_eq rfl rfl : PcSrInv (setSp (s.sp - 2#16) s)).writeMem ia n _ v

theorem jumpIf (h : PcSrInv s) (taken : Bool) (off : BitVec 10) : PcSrInv (jumpIf taken off s) := by
  cases taken with
  | false => exact h.consumeWord
  | true => exact h.consumeWord.setPc _

theorem popStatusAndPc (s : State) : PcSrInv (popStatusAndPc s) :=
  ⟨aligned_masked _, reserved_masked _⟩

/-- No effect of an instruction leaves pc odd or sets a reserved bit of sr. -/
theorem effect (h : PcSrInv s) {i : Instr} (he : Effect i s t) : PcSrInv t := by
  cases he with
  | compare f hi hn hs => exact (h.resolveOperands hs _ _).setFlags f
  | result v f hi hn hs hf => exact ((h.resolveOperands hs _ _).writeLoc _ _ _ v).writeFlags f
  | modify v f hi hs hf => exact ((h.consumeWord.resolveSrc hs _).writeLoc _ _ _ v).writeFlags f
  | push hi hs => exact (h.consumeWord.resolveSrc hs _).pushValue _ _ _
  | call hi hs => exact ((h.consumeWord.resolveSrc hs _).pushValue _ _ _).setPc _
  | reti hi => exact popStatusAndPc _
  | jump hi => exact h.jumpIf _ _

end PcSrInv

/-! ## The invariant -/

theorem pcSrInv_of_inv {s : State} (h : Inv s) : PcSrInv s := ⟨h.pcAligned, h.srReserved⟩

/-- The invariant, where only the run control differs, is a matter of its two clauses. -/
theorem inv_with_ctl {s : State} (h : Inv s) {c : RunControl}
    (hb : breakpointsFrom 0 c.breakpoints = true) (hr : c.runState = .running → c.report = none) :
    Inv { s with ctl := c } :=
  ⟨h.pcAligned, h.srReserved, h.memCanonical, hb, hr⟩

/-- An instruction executed to its end keeps the invariant of a running block. -/
theorem inv_executed {i : Instr} {s u : State} (h : Inv s) (hs : s.ctl.runState = .running)
    (hw : i.wf = true) (hr : i.isReserved = false) (he : exec i s = .next u) :
    Inv (finishInstruction i u) := by
  have hstore : AtMostOneStore s u := exec_store i s u hw hr he
  have hpcsr : PcSrInv u := (pcSrInv_of_inv h).effect (exec_effect hw hr he)
  exact {
    pcAligned := by simpa using hpcsr.pcAligned
    srReserved := by simpa using hpcsr.srReserved
    memCanonical := by simpa using hstore.memWf h.memCanonical
    breakpoints := by simpa [hstore.ctl] using h.breakpoints
    reportHalted := fun _ => by simpa [hstore.ctl] using h.reportHalted hs }

/-- Settles O18: a step halts the block, or executes an instruction of the hardware, whose register
writes keep pc aligned and sr's reserved bits 0 and whose one store keeps memory canonical. -/
theorem stepKeepsTheInvariant : Obligations.StepKeepsTheInvariant := by
  intro s t h hstep
  obtain ⟨hs, ht⟩ := step_cases hstep
  cases ht with
  | breakpoint hb => exact inv_with_ctl h h.breakpoints nofun
  | illegal w => exact inv_with_ctl h h.breakpoints nofun
  | executed hd hw hr he => exact inv_executed h hs hw hr he

end Sys2Proof.Proofs
end

section
/-! PROOFS. What a step leaves to the host, and the output trace it appends to (`10_state.md` R35,
R38, R39, `60_exceptions.md` R303, R304, R308). -/

namespace Sys2Proof.Proofs

open Sys2Proof Sys2Proof.Machine Sys2Proof.Claims

/-! ## What the host owns -/

/-- An instruction's one store leaves the outside pin levels alone. -/
theorem atMostOneStore_pinIn {s t : State} (h : AtMostOneStore s t) :
    t.gpio.pinIn = s.gpio.pinIn := by
  obtain ⟨u, w, h1, h2, h3⟩ := h
  have e1 : u.gpio.pinIn = s.gpio.pinIn := by rw [h1]
  have e3 : t.gpio.pinIn = w.gpio.pinIn := by rw [h3]
  rcases h2 with rfl | ⟨n, ea, v, rfl⟩
  · rw [e3, e1]
  · rw [e3, writeMem_pinIn, e1]

/-- Settles O20: the halt and the exception write other fields of the run control, an instruction
changes registers and makes one store, and its end touches neither. -/
theorem stepKeepsWhatTheHostOwns : Obligations.StepKeepsWhatTheHostOwns := by
  intro s t hstep
  obtain ⟨-, ht⟩ := step_cases hstep
  cases ht with
  | breakpoint hb => exact ⟨rfl, rfl, rfl⟩
  | illegal w => exact ⟨rfl, rfl, rfl⟩
  | @executed i rest u hd hw hr he =>
    have hstore : AtMostOneStore s u := exec_store i s u hw hr he
    refine ⟨?_, ?_, ?_⟩
    · rw [finishInstruction_cfg, hstore.cfg]
    · rw [finishInstruction_breakpoints, hstore.ctl]
    · rw [finishInstruction_gpio, atMostOneStore_pinIn hstore]

/-! ## The serial bytes of a trace -/

theorem transmitted_append (l m : List Event) :
    transmitted (l ++ m) = transmitted l ++ transmitted m := by
  induction l with
  | nil => rfl
  | cons e rest ih =>
    cases e with
    | gpio => exact ih
    | serialTx b pc => exact congrArg (b :: ·) ih

/-- A trace without a serial record transmits nothing. -/
theorem transmitted_eq_nil {l : List Event} (h : ∀ e ∈ l, transmitted [e] = []) :
    transmitted l = [] := by
  induction l with
  | nil => rfl
  | cons e rest ih =>
    rw [List.forall_mem_cons] at h
    rw [← List.singleton_append, transmitted_append, h.1, ih h.2, List.nil_append]

/-- The records of a write to P1OUT are GPIO records (R303). -/
theorem transmitted_pinEvents (port : Nat) (dir old new : Byte) (ia : Word) :
    transmitted (pinEvents port dir old new ia) = [] := by
  refine transmitted_eq_nil fun e he => ?_
  rw [pinEvents, List.mem_filterMap] at he
  obtain ⟨i, -, hi⟩ := he
  split at hi
  · cases hi; rfl
  · cases hi

/-! ## The trace -/

/-- From `s` to `t` the trace grows, and the serial stream by the bytes of the new serial records
(R38, R39). -/
def Appends (s t : State) : Prop :=
  ∃ new : List Event, t.events = s.events ++ new ∧
    t.serialStream = s.serialStream ++ transmitted new

namespace Appends

variable {s t u : State}

theorem of_eq (he : t.events = s.events) (hs : t.serialStream = s.serialStream) : Appends s t :=
  ⟨[], by rw [he, List.append_nil], by rw [hs]; exact (List.append_nil _).symm⟩

theorem trans (h : Appends s t) (k : Appends t u) : Appends s u := by
  obtain ⟨l, hl, hl'⟩ := h
  obtain ⟨m, hm, hm'⟩ := k
  refine ⟨l ++ m, ?_, ?_⟩
  · rw [hm, hl, List.append_assoc]
  · rw [hm', hl', transmitted_append, List.append_assoc]

theorem of_sameOutsideRegs (h : SameOutsideRegs s t) : Appends s t :=
  of_eq (by rw [h]) (by rw [h])

/-- A handler appends the pins' records at P1OUT (R303), the serial record and its byte at UCA0TXBUF
(R308), nothing elsewhere. -/
theorem periphWrite (ia : Word) (l : Lane) (v : Byte) (s : State) :
    Appends s (periphWrite ia l v s) := by
  cases l with
  | p1out =>
    refine ⟨_, writeP1OUT_events s ia v, ?_⟩
    rw [transmitted_pinEvents, List.append_nil]
    rfl
  | uca0txbuf => exact ⟨_, writeUCA0TXBUF_events s ia v, writeUCA0TXBUF_serialStream s ia v⟩
  | _ => exact of_eq rfl rfl

theorem writeByte (ia a : Word) (v : Byte) (s : State) : Appends s (writeByte ia a v s) := by
  unfold Machine.writeByte
  split
  · exact periphWrite ia _ v s
  · exact of_eq rfl rfl

theorem writeMem (ia : Word) (n : Size) (a v : Word) (s : State) :
    Appends s (writeMem ia n a v s) := by
  cases n with
  | byte => exact writeByte ia a _ s
  | word => exact (writeByte ia a _ s).trans (writeByte ia _ _ _)

theorem of_atMostOneStore (h : AtMostOneStore s t) : Appends s t := by
  obtain ⟨u, w, h1, h2, h3⟩ := h
  refine (of_sameOutsideRegs h1).trans (.trans ?_ (of_sameOutsideRegs h3))
  rcases h2 with rfl | ⟨n, ea, v, rfl⟩
  · exact of_eq rfl rfl
  · exact writeMem s.pc n ea v u

end Appends

/-- Settles O21: only an instruction's one store reaches the trace, and each handler appends. -/
theorem stepAppendsToTheTrace : Obligations.StepAppendsToTheTrace := by
  intro s t hstep
  obtain ⟨-, ht⟩ := step_cases hstep
  show Appends s t
  cases ht with
  | breakpoint hb => exact .of_eq rfl rfl
  | illegal w => exact .of_eq rfl rfl
  | @executed i rest u hd hw hr he =>
    have hstore : Appends s u := .of_atMostOneStore (exec_store i s u hw hr he)
    exact hstore.trans (.of_eq (finishInstruction_events i u) (finishInstruction_serialStream i u))

end Sys2Proof.Proofs
end

section
/-! PROOFS. After an instruction that does not write pc, pc stands past its words (`10_state.md`
R22, `30_encoding.md` R109, `40_fetch_and_operands.md` R141). -/

namespace Sys2Proof.Proofs

open Sys2Proof Sys2Proof.Machine Sys2Proof.Claims

/-! ## The words of an instruction, by its operands -/

theorem extensionWords_of_formatI {i : Instr} {n : Size} {src : Src} {dst : Dst}
    (h : formatI i = some (n, src, dst)) : extensionWords i = src.ext ++ dst.ext := by
  cases i with
  | mov | add | addc | subc | sub | cmp | bit | bic | bis | xor | and => cases h; rfl
  | _ => cases h

theorem extensionWords_of_modified {i : Instr} {n : Size} {opd : Src}
    (h : modified i = some (n, opd)) : extensionWords i = opd.ext := by
  cases i with
  | rrc | rra | swpb | sxt => cases h; rfl
  | _ => cases h

/-! ## Which results go to pc -/

theorem dst_ne_pc {i : Instr} {n : Size} {src : Src} {dst : Dst}
    (h : formatI i = some (n, src, dst)) (hn : noResult i = false) (hp : writesPc i = false) :
    dst ≠ .reg .pc := by
  cases i with
  | mov | add | addc | subc | sub | bic | bis | xor | and => cases h; simpa [writesPc] using hp
  | cmp | bit => cases hn
  | _ => cases h

theorem operand_ne_pc {i : Instr} {n : Size} {opd : Src} (h : modified i = some (n, opd))
    (hp : writesPc i = false) : opd ≠ .reg .pc := by
  cases i with
  | rrc | rra | swpb | sxt => cases h; simpa [writesPc] using hp
  | _ => cases h

theorem writesPc_of_jump {i : Instr} {s : State} {off : BitVec 10} {taken : Bool}
    (h : jump s i = some (off, taken)) : writesPc i = true := by
  cases i with
  | jne | jeq | jnc | jc | jn | jge | jl | jmp => rfl
  | _ => cases h

theorem resolveDst_loc_ne_pc {dst : Dst} (h : dst ≠ .reg .pc) (s : State) :
    (resolveDst dst s).loc ≠ .reg .pc := by
  cases dst with
  | reg r => simpa [resolveDst] using h
  | _ => simp [resolveDst]

theorem resolveSrc_loc_ne_pc {src : Src} (h : src ≠ .reg .pc) (n : Size) (s : State) :
    (resolveSrc src n s).loc ≠ .reg .pc := by
  cases src with
  | reg r => simpa [resolveSrc] using h
  | _ => simp [resolveSrc, memoryOperand]

/-! ## pc after each operation -/

theorem writeReg_pc {r : Reg} (h : r ≠ .pc) (v : Word) (s : State) : (writeReg r v s).pc = s.pc :=
  readReg_writeReg_other r .pc v s h.symm

theorem writeLoc_pc (ia : Word) (n : Size) {l : Loc} (h : l ≠ .reg .pc) (v : Word) (s : State) :
    (writeLoc ia n l v s).pc = s.pc := by
  cases l with
  | const => rfl
  | reg r => exact writeReg_pc (fun e => h (e ▸ rfl)) v s
  | mem ea => exact writeMem_pc ..

theorem pushValue_pc (ia : Word) (n : Size) (v : Word) (s : State) :
    (pushValue ia n v s).pc = s.pc :=
  writeMem_pc ..

/-- A source consumes its extension word (R141): an autoincremented register is not pc. -/
theorem resolveSrc_pc {src : Src} (h : src.wf = true) (n : Size) (s : State) :
    (resolveSrc src n s).state.pc = s.pc + BitVec.ofNat 16 (2 * src.ext.length) := by
  cases src with
  | autoinc r =>
    have hr : Reg.pc ≠ r := by rintro rfl; cases h
    exact (readReg_setRegPlain_other r .pc _ s hr).trans (BitVec.add_zero _).symm
  | indexed | symbolic | absolute | immediate => rfl
  | reg | indirect | const => exact (BitVec.add_zero _).symm

theorem resolveDst_pc (dst : Dst) (s : State) :
    (resolveDst dst s).state.pc = s.pc + BitVec.ofNat 16 (2 * dst.ext.length) := by
  cases dst with
  | reg => exact (BitVec.add_zero _).symm
  | indexed | symbolic | absolute => rfl

/-- One operand's words: the instruction word and the extension word. -/
theorem operand_pc {src : Src} (h : src.wf = true) (n : Size) (s : State) :
    (resolveSrc src n (consumeWord s)).state.pc =
      s.pc + BitVec.ofNat 16 (2 * (src.ext.length + 1)) := by
  rw [resolveSrc_pc h, consumeWord_pc, BitVec.add_assoc, Nat.mul_add, Nat.add_comm,
    BitVec.ofNat_add]

/-- Two operands' words: the instruction word and the extension words. -/
theorem resolveOperands_pc {src : Src} (h : src.wf = true) (n : Size) (dst : Dst) (s : State) :
    (resolveOperands n src dst s).state.pc =
      s.pc + BitVec.ofNat 16 (2 * ((src.ext ++ dst.ext).length + 1)) := by
  have hd := resolveDst_pc dst (resolveSrc src n (consumeWord s)).state
  rw [operand_pc h, BitVec.add_assoc, ← BitVec.ofNat_add] at hd
  rw [List.length_append, Nat.add_right_comm, Nat.mul_add]
  exact hd

/-- Settles O23: each operand moves pc past its extension word, and a result, a push or a flag write
leaves pc where the operands left it. -/
theorem pcMovesPastTheWords : Obligations.PcMovesPastTheWords := by
  intro i s t hw hr hp he
  rw [encode, List.length_cons]
  cases exec_effect hw hr he with
  | compare f hi hn hs =>
    rw [setFlags_pc, extensionWords_of_formatI hi, resolveOperands_pc hs]
  | @result n src dst v f hi hn hs hf =>
    have hl : (resolveOperands n src dst s).loc ≠ .reg .pc :=
      resolveDst_loc_ne_pc (dst_ne_pc hi hn hp) _
    rw [writeFlags_pc, writeLoc_pc _ _ hl, extensionWords_of_formatI hi, resolveOperands_pc hs]
  | modify v f hi hs hf =>
    have hl := resolveSrc_loc_ne_pc (operand_ne_pc hi hp)
    rw [writeFlags_pc, writeLoc_pc _ _ (hl _ _), extensionWords_of_modified hi, operand_pc hs]
  | push hi hs =>
    subst hi
    rw [pushValue_pc, operand_pc hs, extensionWords]
  | call hi hs => subst hi; cases hp
  | reti hi => subst hi; cases hp
  | jump hi => rw [writesPc_of_jump hi] at hp; cases hp

end Sys2Proof.Proofs
end

section
/-! PROOFS. The host's actions and the invariant, and the block after reset (`10_state.md` R35, R45,
`60_exceptions.md` R281 to R285, `70_reset_and_hazards.md` R340). -/

namespace Sys2Proof.Proofs

open Sys2Proof Sys2Proof.Machine Sys2Proof.Claims Sys2Proof.Safety

/-! ## The set of breakpoints -/

/-- `breakpointsFrom` of a set with a first breakpoint. -/
theorem breakpointsFrom_cons (low : Nat) (b : Breakpoint) (l : List Breakpoint) :
    breakpointsFrom low (b :: l) = true ↔
      low ≤ b.address.toNat ∧ breakpointsFrom (b.address.toNat + 1) l = true := by
  rw [breakpointsFrom, Bool.and_eq_true, decide_eq_true_eq]

theorem breakpointsFrom_mono {low low' : Nat} {l : List Breakpoint} (hl : low' ≤ low)
    (h : breakpointsFrom low l = true) : breakpointsFrom low' l = true := by
  cases l with
  | nil => rfl
  | cons b rest =>
    rw [breakpointsFrom_cons] at *
    exact ⟨hl.trans h.1, h.2⟩

theorem breakpointsFrom_insert {low : Nat} {l : List Breakpoint} {b : Breakpoint}
    (hb : low ≤ b.address.toNat) (h : breakpointsFrom low l = true) :
    breakpointsFrom low (insertBreakpoint b l) = true := by
  induction l generalizing low with
  | nil => exact (breakpointsFrom_cons ..).mpr ⟨hb, rfl⟩
  | cons c rest ih =>
    obtain ⟨hc, hrest⟩ := (breakpointsFrom_cons ..).mp h
    rw [insertBreakpoint]
    split
    · next hlt =>
      exact (breakpointsFrom_cons ..).mpr ⟨hb, (breakpointsFrom_cons ..).mpr ⟨hlt, hrest⟩⟩
    · next hge =>
      split
      · exact h
      · next hne =>
        have hgt : c.address.toNat + 1 ≤ b.address.toNat := by
          have : b.address.toNat ≠ c.address.toNat := fun e => hne (BitVec.eq_of_toNat_eq e)
          omega
        exact (breakpointsFrom_cons ..).mpr ⟨hc, ih hgt hrest⟩

theorem breakpointsFrom_remove {low : Nat} {l : List Breakpoint} (a : Word)
    (h : breakpointsFrom low l = true) : breakpointsFrom low (removeBreakpoint a l) = true := by
  induction l generalizing low with
  | nil => rfl
  | cons c rest ih =>
    obtain ⟨hc, hrest⟩ := (breakpointsFrom_cons ..).mp h
    rw [removeBreakpoint, List.filter_cons]
    split
    · exact (breakpointsFrom_cons ..).mpr ⟨hc, ih hrest⟩
    · exact breakpointsFrom_mono (by omega) (ih hrest)

/-! ## The host's actions -/

/-- A command accepted only while halted keeps the invariant when it does so on a halted block. -/
theorem inv_whileHalted {f : State → State} {s : State} (h : Inv s)
    (hf : s.ctl.runState = .halted → Inv (f s)) : Inv (whileHalted f s) := by
  unfold whileHalted
  split
  · next hs => exact hf hs
  · exact h

/-- Resuming drops the report (log 3), so the running block stands without one. -/
theorem inv_resumeRun {s : State} (h : Inv s) (single : Bool) : Inv (resumeRun single s) :=
  inv_with_ctl h h.breakpoints (fun _ => rfl)

theorem inv_setBreakpoints {s : State} (h : Inv s) {l : List Breakpoint}
    (hl : breakpointsFrom 0 l = true) : Inv (setBreakpoints l s) :=
  inv_with_ctl h hl h.reportHalted

/-- Settles O19: one case per action of the host. -/
theorem hostActionsKeepTheInvariant : Obligations.HostActionsKeepTheInvariant := by
  intro c s h
  cases c with
  | run | continueRun => exact inv_whileHalted h fun _ => inv_resumeRun h false
  | singleStep => exact inv_whileHalted h fun _ => inv_resumeRun h true
  | setBreakpoint b =>
    exact inv_whileHalted h fun _ =>
      inv_setBreakpoints h (breakpointsFrom_insert (Nat.zero_le _) h.breakpoints)
  | clearBreakpoint a =>
    exact inv_whileHalted h fun _ => inv_setBreakpoints h (breakpointsFrom_remove a h.breakpoints)
  | listBreakpoints => exact h
  | requestHalt => exact inv_with_ctl h h.breakpoints h.reportHalted
  | drivePins levels =>
    exact ⟨h.pcAligned, h.srReserved, h.memCanonical, h.breakpoints, h.reportHalted⟩

/-! ## Reset -/

/-- The reset state meets the invariant for every choice of the open parameters (R45). -/
theorem inv_resetWith (cfg : Config) (sp : Word) (gpr : Vector Word 12) (pins : Byte) {m : Memory}
    (hm : Memory.wf m = true) : Inv (State.resetWith cfg sp gpr m pins) where
  pcAligned := (by decide : fwBase.getLsbD 0 = false)
  srReserved := (by decide : 0#16 &&& 0xFE00#16 = 0#16)
  memCanonical := hm
  breakpoints := rfl
  reportHalted _ := rfl

/-- Settles O16: the reset state lists no memory, which is in canonical form. -/
theorem resetMeetsTheInvariant : Obligations.ResetMeetsTheInvariant :=
  inv_resetWith _ _ _ _ rfl

/-- A constructed block is the reset state of its arguments (R340). -/
theorem construct_eq_some {a : ResetArgs} {s : State} (h : construct a = some s) :
    a.ok = true ∧ s = State.resetWith a.cfg a.spInit a.gprInit (loadedMemory a) a.pins := by
  unfold construct at h
  split at h
  · next hok => exact ⟨hok, (Option.some.inj h).symm⟩
  · cases h

/-- Settles O24: the values are the fields of the reset state. -/
theorem constructedBlockHasTheResetValues : Obligations.ConstructedBlockHasTheResetValues := by
  intro a s h
  obtain ⟨-, rfl⟩ := construct_eq_some h
  have hifg2 : (⟨0#8, 0#6⟩ : Serial).readIFG2 = 0x02#8 := by decide
  exact ⟨rfl, rfl, rfl, rfl, rfl, rfl, rfl, rfl, rfl, hifg2, rfl, rfl, rfl, rfl, rfl, rfl, rfl⟩

end Sys2Proof.Proofs
end

section
/-! PROOFS. The flag write (`10_state.md` R26, `40_fetch_and_operands.md` R162). -/

namespace Sys2Proof.Proofs

open Sys2Proof Sys2Proof.Machine

/-- Settles O37: each bit of sr after the flag write, from the one equation for its bits. -/
theorem flagsAreTheirStatusBits : Obligations.FlagsAreTheirStatusBits := by
  intro f s
  refine ⟨?_, ?_, ?_, ?_, ?_, rfl⟩
  · exact withFlags_bit f s.sr 0
  · exact withFlags_bit f s.sr 1
  · exact withFlags_bit f s.sr 2
  · exact withFlags_bit f s.sr 8
  · intro k h0 h1 h2 h8
    rw [setFlags_sr, withFlags_bit, if_neg h0, if_neg h1, if_neg h2, if_neg h8]

end Sys2Proof.Proofs
end

section
/-! PROOFS. Memory accesses: what a store leaves behind and what it leaves alone, in backing storage
and at the mapped registers (`20_memory.md` R62 to R70, R75, R76). -/

namespace Sys2Proof.Proofs

open Sys2Proof Sys2Proof.Machine Sys2Proof.Claims

/-! ## Backing storage -/

/-- The low byte is at the address, whatever stands at the next one: the second store of R67 goes
elsewhere. -/
theorem readByte_writeWord_low (ia a v : Word) {s : State} (hm : Memory.wf s.mem = true)
    (ha : laneAt s.cfg a = none) : readByte a (writeWord ia a v s) = lowByte v := by
  have hne : a ≠ a + 1#16 := by bv_omega
  rw [writeWord, readByte_writeByte_other _ _ _ _ _ hne (by simp [ha]),
    readByte_writeByte_same ia a _ s ha hm]

theorem readByte_writeWord_high (ia a v : Word) {s : State} (hm : Memory.wf s.mem = true)
    (ha : laneAt s.cfg (a + 1#16) = none) :
    readByte (a + 1#16) (writeWord ia a v s) = highByte v :=
  readByte_writeByte_same ia _ _ _ (by rwa [writeByte_cfg]) (writeByte_memWf ia a _ s hm)

/-- Settles O26: each byte of the store is read back at its own address, and the two make the
word. -/
theorem storesAreLittleEndian : Obligations.StoresAreLittleEndian := by
  intro ia a v s hm
  constructor
  · intro ha ha'
    have hlow := readByte_writeWord_low ia a v hm ha
    have hhigh := readByte_writeWord_high ia a v hm ha'
    refine ⟨?_, ?_, ?_⟩
    · rw [readMem, writeMem, hlow, lowByte_setWidth]
    · rw [readMem, writeMem, hhigh, highByte_setWidth]
    · rw [readMem, readWord, writeMem, hlow, hhigh, mkWord_bytes]
  · intro ha
    rw [readMem, writeMem, readByte_writeByte_same ia a _ s ha hm, lowByte_setWidth]

/-! ## The bytes a store leaves alone -/

/-- Only the handlers of P1OUT and P1DIR write the port, from which P1IN is computed (R304). -/
theorem periphWrite_gpio (ia : Word) {l : Lane} (v : Byte) (s : State) (hout : l ≠ .p1out)
    (hdir : l ≠ .p1dir) : (periphWrite ia l v s).gpio = s.gpio := by
  cases l with
  | p1out => exact absurd rfl hout
  | p1dir => exact absurd rfl hdir
  | _ => rfl

theorem writeByte_gpio (ia : Word) {a : Word} (v : Byte) (s : State)
    (hout : laneAt s.cfg a ≠ some .p1out) (hdir : laneAt s.cfg a ≠ some .p1dir) :
    (writeByte ia a v s).gpio = s.gpio := by
  unfold writeByte
  split
  · next l hl => exact periphWrite_gpio ia v s (fun e => hout (e ▸ hl)) (fun e => hdir (e ▸ hl))
  · rfl

theorem writeMem_gpio (ia : Word) {n : Size} {a : Word} (v : Word) (s : State)
    (h : ∀ b, covers n a b → laneAt s.cfg b ≠ some .p1out ∧ laneAt s.cfg b ≠ some .p1dir) :
    (writeMem ia n a v s).gpio = s.gpio := by
  cases n with
  | byte =>
    obtain ⟨hout, hdir⟩ := h a rfl
    exact writeByte_gpio ia _ s hout hdir
  | word =>
    obtain ⟨hout, hdir⟩ := h a (.inl rfl)
    obtain ⟨hout', hdir'⟩ := h (a + 1#16) (.inr rfl)
    rw [writeMem, writeWord,
      writeByte_gpio ia _ _ (by rwa [writeByte_cfg]) (by rwa [writeByte_cfg]),
      writeByte_gpio ia _ s hout hdir]

/-- Settles O27: P1IN stays because the port does, every other byte because the store does not cover
it. -/
theorem storesChangeOnlyTheirBytes : Obligations.StoresChangeOnlyTheirBytes := by
  rintro ia a c v n s ⟨hcovers, hport⟩
  by_cases hc : laneAt s.cfg c = some .p1in
  · have hc' : laneAt (writeMem ia n a v s).cfg c = some .p1in := by rwa [writeMem_cfg]
    rw [readByte_mapped c _ _ hc', readByte_mapped c _ s hc, periphRead, periphRead,
      writeMem_gpio ia v s (hport hc)]
  · exact readByte_writeMem_other ia a c n v s hcovers hc

/-! ## Mapped bytes -/

theorem writeByte_mapped (ia : Word) {a : Word} {l : Lane} (v : Byte) {s : State}
    (h : laneAt s.cfg a = some l) : writeByte ia a v s = periphWrite ia l v s := by
  simp only [writeByte, h]

/-- A lane reads, after a write to it, what its handlers say (R75): a lane of a 16-bit register is
its half of the word (R76). -/
theorem periphRead_periphWrite_same (ia : Word) (l : Lane) (v : Byte) (s : State) :
    periphRead l (periphWrite ia l v s) = readBack (periphRead l s) v l := by
  cases l with
  | ifg2 => exact readIFG2_write s.serial v
  | tactlLow | tarLow | taccr0Low => exact lowByte_mkWord _ v
  | tactlHigh | tarHigh | taccr0High => exact highByte_mkWord v _
  | _ => rfl

/-- Settles O28: a mapped access is its lane's handler, and no handler reaches backing storage. -/
theorem mappedBytesReadBackAsTheirHandlersSay :
    Obligations.MappedBytesReadBackAsTheirHandlersSay := by
  intro ia a v l s h
  have h' : laneAt (writeByte ia a v s).cfg a = some l := by rwa [writeByte_cfg]
  rw [readByte_mapped a l _ h', readByte_mapped a l s h, writeByte_mapped ia v h]
  exact ⟨periphRead_periphWrite_same ia l v s, periphWrite_mem ia l v s⟩

/-- Settles O29: a mapped address is the table's address of its lane, and the list holds all
fifteen. -/
theorem defaultAddressesOfTheMappedRegisters :
    Obligations.DefaultAddressesOfTheMappedRegisters := by
  refine ⟨by decide, ?_⟩
  intro a l h
  rw [laneAt_address Config.default a l h]
  cases l <;> decide

end Sys2Proof.Proofs
end

section
/-! PROOFS. Decoding what the encoder writes (`30_encoding.md` R100 to R109, R115 to R117). -/

namespace Sys2Proof.Proofs

open Sys2Proof Sys2Proof.Machine Sys2Proof.Claims

/-! ## Words as numbers -/

theorem field_toNat (w : Word) (start len : Nat) :
    (w.extractLsb' start len).toNat = w.toNat / 2 ^ start % 2 ^ len := by
  rw [BitVec.extractLsb'_toNat, Nat.shiftRight_eq_div_pow]

theorem bitOf_iff (w : Word) (k : Nat) : bitOf w k = true ↔ w.toNat / 2 ^ k % 2 = 1 := by
  rw [bitOf, getLsbD_eq, decide_eq_true_eq]

theorem append_div {m k : Nat} (hi : BitVec m) (low : BitVec k) :
    (hi ++ low).toNat / 2 ^ k = hi.toNat := by
  have hlow := low.isLt
  rw [BitVec.toNat_append, ← Nat.shiftLeft_add_eq_or_of_lt hlow, Nat.shiftLeft_eq, Nat.add_comm,
    Nat.add_mul_div_right _ _ (Nat.two_pow_pos k), Nat.div_eq_of_lt hlow, Nat.zero_add]

/-- The bits of a word above its `k` lowest ones, as a number. -/
theorem append_high {m k : Nat} (hi : BitVec m) (low : BitVec k) (h : m + k = 16) :
    ((hi ++ low).cast h).toNat / 2 ^ k = hi.toNat :=
  append_div hi low

section
variable {w : Word} {k c : Nat} (h : w.toNat / 2 ^ k = c)
include h

/-- A field above the `k` lowest bits is a field of the number they leave. -/
theorem field_of_high {start len : Nat} (hs : k ≤ start) :
    (w.extractLsb' start len).toNat = c / 2 ^ (start - k) % 2 ^ len := by
  rw [field_toNat, ← h, Nat.div_div_eq_div_mul, ← pow_add, Nat.add_sub_cancel' hs]

theorem bitOf_of_high {j : Nat} (hj : k ≤ j) : bitOf w j = decide (c / 2 ^ (j - k) % 2 = 1) := by
  rw [bitOf, getLsbD_eq, ← h, Nat.div_div_eq_div_mul, ← pow_add, Nat.add_sub_cancel' hj]

end

/-! ## The reserved rows -/

/-- A word of a reserved row is read as the row's instruction when every word with the row's high
bits is. -/
theorem decode_append {m k : Nat} (hi : BitVec m) (low : BitVec k) (h : m + k = 16)
    (row : BitVec k → Instr) (ws : List Word)
    (hrow : ∀ w : Word, w.toNat / 2 ^ k = hi.toNat →
      decode (w :: ws) = .ok (row (w.extractLsb' 0 k), ws)) :
    decode ((hi ++ low).cast h :: ws) = .ok (row low, ws) := by
  rw [hrow _ (append_high hi low h), append_low]

theorem decode_reserved (i : Instr) (ws : List Word) (h : i.isReserved = true) :
    decode (firstWord i :: ws) = .ok (i, ws) := by
  cases i with
  | illegal0xxx low | illegal14xx low | illegal18xx low | illegalAxxx low | illegalFmt2Op7 low
  | illegalSwpbB low | illegalSxtB low | illegalCallB low | illegalReti1340 low
  | illegalReti1320 low | illegalReti1310 low | illegalReti1308 low | illegalReti1304 low
  | illegalReti1302 low =>
    refine decode_append _ low rfl _ ws fun w hw => ?_
    simp [decode, decodeOne, decodeFormatII, decodeReti, field_of_high hw, bitOf_of_high hw]
  | illegalReti1301 => rfl
  | _ => cases h

/-! ## The two formats and the jumps -/

section
variable (n : Size) (rest : List Word)

/-- A well-formed operand's fields and extension word are read back, source first (R109). -/
theorem decodeFormatI_wordI (mk : Size → Src → Dst → Instr) (op : BitVec 4) {src : Src} {dst : Dst}
    (hs : src.wf = true) (hd : dst.wf = true) :
    decodeFormatI mk (wordI op n src dst) (src.ext ++ (dst.ext ++ rest)) =
      .ok (mk n src dst, rest) := by
  simp [decodeFormatI, dst_not_reserved, decodeSrc_fields, decodeDst_fields, hs, hd]

theorem decode_wordII (op : BitVec 3) (opd : Src) :
    decode (wordII op n opd :: rest) = decodeFormatII (wordII op n opd) rest := by
  simp [decode, decodeOne]

theorem decodeOperand_wordII (mk : Src → Instr) (op : BitVec 3) {opd : Src} (ho : opd.wf = true) :
    decodeOperand mk (wordII op n opd) (opd.ext ++ rest) = .ok (mk opd, rest) := by
  simp [decodeOperand, decodeSrc_fields, ho]

theorem decodeModify_wordII (mk : Src → Instr) (op : BitVec 3) {opd : Src} (ho : opd.wf = true)
    (hm : opd.isWritable = true) :
    decodeModify mk (wordII op n opd) (opd.ext ++ rest) = .ok (mk opd, rest) := by
  simp [decodeModify, src_not_reserved, decodeOperand_wordII, ho, hm]

end

/-- The jumps are the words 0x2000 to 0x3FFF. -/
theorem wordJ_high (cond : BitVec 3) (off : BitVec 10) : (wordJ cond off).toNat / 2 ^ 13 = 1 := by
  have hc : (0b001#3 ++ cond).toNat / 2 ^ 3 = 1 := append_div _ cond
  have h : (wordJ cond off).toNat / 2 ^ 10 = (0b001#3 ++ cond).toNat := append_div _ off
  omega

/-- The jumps share w[15:13]. -/
theorem decode_jumpWord {w : Word} (h : w.toNat / 2 ^ 13 = 1) (ws : List Word) :
    decode (w :: ws) = .ok (decodeJump w, ws) := by
  have htop : (w.extractLsb' 12 4).toNat = 2 ∨ (w.extractLsb' 12 4).toNat = 3 := by
    rw [field_toNat]
    omega
  rcases htop with ht | ht <;> simp only [decode, ht]

/-! ## The encoder's words -/

/-- No bit of a well-formed instruction is lost by its encoding. -/
theorem decode_encode (i : Instr) (rest : List Word) (hw : i.wf = true) :
    decode (encode i ++ rest) = .ok (i, rest) := by
  cases i with
  | mov | add | addc | subc | sub | cmp | bit | bic | bis | xor | and =>
    obtain ⟨hs, hd⟩ := (Bool.and_eq_true _ _).mp hw
    simp [encode, firstWord, extensionWords, decode, decodeFormatI_wordI, hs, hd]
  | rrc | swpb | rra | sxt =>
    obtain ⟨ho, hm⟩ := (Bool.and_eq_true _ _).mp hw
    simp [encode, firstWord, extensionWords, decode_wordII, decodeFormatII, decodeModify_wordII,
      ho, hm]
  | push n o | call o =>
    have ho : o.wf = true := hw
    simp [encode, firstWord, extensionWords, decode_wordII, decodeFormatII, decodeOperand_wordII,
      ho]
  | reti => rfl
  | jne | jeq | jnc | jc | jn | jge | jl | jmp =>
    simp [encode, firstWord, extensionWords, decode_jumpWord (wordJ_high _ _), decodeJump]
  | _ => exact decode_reserved _ rest rfl

/-- The bytes of words, as memory holds them, are read as those words (R68). -/
theorem wordsOfBytes_append (ws : List Word) (more : List Byte) :
    wordsOfBytes (ws.flatMap bytesOfWord ++ more) = ws ++ wordsOfBytes more := by
  induction ws with
  | nil => rfl
  | cons w rest ih =>
    have hw : w.extractLsb' 8 8 ++ w.extractLsb' 0 8 = w := mkWord_bytes w
    simp [bytesOfWord, wordsOfBytes, ih, hw]

/-- Settles O1: the round trip of words, which the bytes of memory make. -/
theorem decodeOfEncodeIsTheInstruction : Obligations.DecodeOfEncodeIsTheInstruction := by
  intro i hw
  refine ⟨fun rest => decode_encode i rest hw, fun more => ?_⟩
  rw [decodeBytes, encodeBytes, wordsOfBytes_append, decode_encode i _ hw]

theorem decode_of_encode {i : Instr} {stream : List Word} (hw : i.wf = true)
    (h : encode i = stream) : decode stream = .ok (i, []) := by
  rw [← h, ← decode_encode i [] hw, List.append_nil]

/-- Settles O3: nine streams are the encoding of a well-formed instruction; the other two meet the
decoder's checks of R118. -/
theorem sampleWordsDecode : Obligations.SampleWordsDecode := by
  refine ⟨?_, ?_, ?_, ?_, ?_, ?_, ?_, ?_, ?_, rfl, rfl⟩
  all_goals exact decode_of_encode rfl (by decide)

end Sys2Proof.Proofs
end

section
/-! PROOFS. Encoding what the decoder reads (`30_encoding.md` R104, R109, R119). -/

namespace Sys2Proof.Proofs

open Sys2Proof Sys2Proof.Machine Sys2Proof.Claims

/-! ## A word from its fields -/

theorem extract_one (w : Word) (k : Nat) : w.extractLsb' k 1 = BitVec.ofBool (bitOf w k) := by
  apply BitVec.eq_of_getLsbD_eq
  intro i hi
  obtain rfl : i = 0 := by omega
  simp [bitOf]

theorem bw_ofBW (b : Bool) : (Size.ofBW b).bw = BitVec.ofBool b := by cases b <;> rfl

theorem ad_eq (dst : Dst) : dst.ad = BitVec.ofBool (dst.ad == 1#1) := by cases dst <;> rfl

/-- A Format I word whose fields are those of `w` is `w` (R101). -/
theorem wordI_of_fields {w : Word} {op : BitVec 4} {src : Src} {dst : Dst}
    (hop : w.extractLsb' 12 4 = op) (has : src.as = w.extractLsb' 4 2)
    (hsrc : src.field = w.extractLsb' 8 4) (had : (dst.ad == 1#1) = bitOf w 7)
    (hdst : dst.field = w.extractLsb' 0 4) : wordI op (Size.ofBW (bitOf w 6)) src dst = w := by
  rw [wordI, ← hop, has, hsrc, hdst, ad_eq, had, bw_ofBW, ← extract_one, ← extract_one]
  iterate 5 rw [BitVec.extractLsb'_append_extractLsb'_eq_extractLsb' (by rfl)]
  exact BitVec.extractLsb'_eq_self

/-- A Format II word whose fields are those of `w` is `w` (R102). -/
theorem wordII_of_fields {w : Word} {op : BitVec 3} {n : Size} {opd : Src}
    (htop : w.toNat / 2 ^ 10 = 4) (hop : w.extractLsb' 7 3 = op)
    (hn : n = Size.ofBW (bitOf w 6)) (has : opd.as = w.extractLsb' 4 2)
    (hopd : opd.field = w.extractLsb' 0 4) : wordII op n opd = w := by
  have htop' : 0b000100#6 = w.extractLsb' 10 6 :=
    BitVec.eq_of_toNat_eq (field_of_high htop (le_refl 10)).symm
  rw [wordII, htop', ← hop, hn, has, hopd, bw_ofBW, ← extract_one]
  iterate 4 rw [BitVec.extractLsb'_append_extractLsb'_eq_extractLsb' (by rfl)]
  exact BitVec.extractLsb'_eq_self

/-- A word is its high bits, given as a number, and its low ones: the word of a reserved row. -/
theorem append_cons_of_high {m k : Nat} {hi : BitVec m} {w : Word} {ws : List Word}
    (h : m + k = 16) (hw : w.toNat / 2 ^ k = hi.toNat) :
    (hi ++ w.extractLsb' 0 k).cast h :: ws = w :: ws := by
  refine congrArg (· :: ws) (BitVec.eq_of_toNat_eq ?_)
  rw [BitVec.toNat_cast, BitVec.toNat_append, ← Nat.shiftLeft_add_eq_or_of_lt (BitVec.isLt _),
    Nat.shiftLeft_eq, field_toNat, ← hw, Nat.pow_zero, Nat.div_one]
  exact Nat.div_add_mod' _ _

theorem wordJ_of_fields {w : Word} {cond : BitVec 3} (hj : w.toNat / 2 ^ 13 = 1)
    (hcond : (w.extractLsb' 10 3).toNat = cond.toNat) : wordJ cond (w.extractLsb' 0 10) = w := by
  have hj' : 0b001#3 = w.extractLsb' 13 3 :=
    BitVec.eq_of_toNat_eq (field_of_high hj (le_refl 13)).symm
  rw [wordJ, hj', ← BitVec.eq_of_toNat_eq hcond]
  iterate 2 rw [BitVec.extractLsb'_append_extractLsb'_eq_extractLsb' (by rfl)]
  exact BitVec.extractLsb'_eq_self

/-! ## The words without operands -/

/-- A test of the next lower bit adds it to the high bits known. -/
theorem encode_ite {w : Word} {k c : Nat} {i j : Instr} (h : w.toNat / 2 ^ (k + 1) = c)
    (hi : w.toNat / 2 ^ k = 2 * c + 1 → encode i = [w])
    (hj : w.toNat / 2 ^ k = 2 * c → encode j = [w]) :
    encode (if bitOf w k then i else j) = [w] := by
  rw [pow_succ, ← Nat.div_div_eq_div_mul] at h
  split
  · next hb => exact hi (by rw [bitOf_iff] at hb; omega)
  · next hb => exact hj (by rw [bitOf_iff] at hb; omega)

/-- Each test of `decodeReti` fixes one bit more, down to the row of the highest set bit. -/
theorem encode_decodeReti {w : Word} (h : w.toNat / 2 ^ 7 = 38) : encode (decodeReti w) = [w] := by
  have hword {v : Word} (hv : w.toNat / 2 ^ 0 = v.toNat) : v = w :=
    BitVec.eq_of_toNat_eq (by rw [← hv, Nat.pow_zero, Nat.div_one])
  unfold decodeReti
  iterate 6
    refine encode_ite h (fun hb => append_cons_of_high rfl hb) ?_
    clear h
    intro h
  exact encode_ite h (fun hb => congrArg ([·]) (hword hb)) (fun hb => congrArg ([·]) (hword hb))

theorem encode_decodeJump {w : Word} (h : w.toNat / 2 ^ 13 = 1) : encode (decodeJump w) = [w] := by
  unfold decodeJump
  split
  case h_8 =>
    simp only [imp_false] at *
    exact congrArg ([·]) (wordJ_of_fields h (by rw [BitVec.toNat_ofNat]; omega))
  all_goals
    next hcond => exact congrArg ([·]) (wordJ_of_fields h hcond)

/-! ## The two formats -/

section
variable {w : Word} {ws rest : List Word} {i : Instr}

theorem encode_decodeFormatI {mk : Size → Src → Dst → Instr} {op : BitVec 4}
    (h : decodeFormatI mk w ws = .ok (i, rest))
    (hmk : ∀ n src dst, encode (mk n src dst) = wordI op n src dst :: (src.ext ++ dst.ext))
    (hop : (w.extractLsb' 12 4).toNat = op.toNat) : encode i ++ rest = w :: ws := by
  unfold decodeFormatI at h
  split at h
  · cases h
  · next hr =>
    split at h
    · cases h
    · next src ws1 hs =>
      split at h
      · cases h
      · next dst ws2 hd =>
        cases h
        obtain ⟨-, has, hsrc, hs'⟩ := decodeSrc_read _ _ _ _ _ _ hs
        obtain ⟨-, had, hdst, hd'⟩ := decodeDst_read _ _ _ _ _ _ hd (by simpa using hr)
        rw [hmk, wordI_of_fields (BitVec.eq_of_toNat_eq hop) has hsrc had hdst, List.cons_append,
          List.append_assoc, hd', hs']

theorem encode_decodeOperand {mk : Src → Instr} {op : BitVec 3} {n : Size}
    (h : decodeOperand mk w ws = .ok (i, rest))
    (hmk : ∀ opd, encode (mk opd) = wordII op n opd :: opd.ext) (htop : w.toNat / 2 ^ 10 = 4)
    (hop : (w.extractLsb' 7 3).toNat = op.toNat) (hn : n = Size.ofBW (bitOf w 6)) :
    encode i ++ rest = w :: ws := by
  unfold decodeOperand at h
  split at h
  · cases h
  · next opd ws1 ho =>
    cases h
    obtain ⟨-, has, hopd, ho'⟩ := decodeSrc_read _ _ _ _ _ _ ho
    rw [hmk, wordII_of_fields htop (BitVec.eq_of_toNat_eq hop) hn has hopd, List.cons_append, ho']

theorem encode_decodeModify {mk : Src → Instr} {op : BitVec 3} {n : Size}
    (h : decodeModify mk w ws = .ok (i, rest))
    (hmk : ∀ opd, encode (mk opd) = wordII op n opd :: opd.ext) (htop : w.toNat / 2 ^ 10 = 4)
    (hop : (w.extractLsb' 7 3).toNat = op.toNat) (hn : n = Size.ofBW (bitOf w 6)) :
    encode i ++ rest = w :: ws := by
  unfold decodeModify at h
  split at h
  · cases h
  · exact encode_decodeOperand h hmk htop hop hn

/-- The reserved words with BW = 1 (R117): w[15:6] as a number. -/
theorem high_of_bw {c : Nat} (htop : w.toNat / 2 ^ 10 = 4) (hop : (w.extractLsb' 7 3).toNat = c)
    (hb : bitOf w 6 = true) : w.toNat / 2 ^ 6 = 64 + 2 * c + 1 := by
  rw [field_toNat] at hop
  rw [bitOf_iff] at hb
  omega

theorem encode_decodeFormatII (htop : w.toNat / 2 ^ 10 = 4)
    (h : decodeFormatII w ws = .ok (i, rest)) : encode i ++ rest = w :: ws := by
  unfold decodeFormatII at h
  split at h
  case h_1 hop | h_3 hop => exact encode_decodeModify h (fun _ => rfl) htop hop rfl
  case h_2 hop | h_4 hop =>
    split at h
    · next hb =>
      cases h
      exact append_cons_of_high rfl (high_of_bw htop hop hb)
    · next hb => exact encode_decodeModify h (fun _ => rfl) htop hop (by simp [Size.ofBW, hb])
  case h_5 hop => exact encode_decodeOperand h (fun _ => rfl) htop hop rfl
  case h_6 hop =>
    split at h
    · next hb =>
      cases h
      exact append_cons_of_high rfl (high_of_bw htop hop hb)
    · next hb => exact encode_decodeOperand h (fun _ => rfl) htop hop (by simp [Size.ofBW, hb])
  case h_7 hop =>
    cases h
    rw [field_toNat] at hop
    rw [encode_decodeReti (by omega), List.singleton_append]
  case h_8 =>
    cases h
    simp only [field_toNat, imp_false] at *
    exact append_cons_of_high rfl (by rw [BitVec.toNat_ofNat]; omega)

theorem encode_decodeOne (htop : w.toNat / 2 ^ 12 = 1) (h : decodeOne w ws = .ok (i, rest)) :
    encode i ++ rest = w :: ws := by
  unfold decodeOne at h
  simp only [bitOf_iff] at h
  split_ifs at h with h11 h10
  · cases h
    exact append_cons_of_high rfl (by rw [BitVec.toNat_ofNat]; omega)
  · cases h
    exact append_cons_of_high rfl (by rw [BitVec.toNat_ofNat]; omega)
  · exact encode_decodeFormatII (by omega) h

/-- The stream is the encoding of the instruction read, then the rest. -/
theorem encode_decode {stream : List Word} (h : decode stream = .ok (i, rest)) :
    encode i ++ rest = stream := by
  cases stream with
  | nil => cases h
  | cons w ws =>
    have hnum := field_toNat w 12 4
    simp only [decode] at h
    split at h
    case h_1 | h_11 =>
      cases h
      exact append_cons_of_high rfl (by rw [BitVec.toNat_ofNat]; omega)
    case h_2 => exact encode_decodeOne (by omega) h
    case h_3 | h_4 =>
      cases h
      rw [encode_decodeJump (by omega), List.singleton_append]
    case h_16 =>
      simp only [imp_false] at *
      exact encode_decodeFormatI h (fun _ _ _ => rfl) (by rw [BitVec.toNat_ofNat]; omega)
    all_goals
      next hop => exact encode_decodeFormatI h (fun _ _ _ => rfl) hop

end

/-- Settles O2: each branch of the decoder reads the instruction whose word it was given. -/
theorem encodeOfDecodeIsTheStream : Obligations.EncodeOfDecodeIsTheStream :=
  fun _ _ _ h => ⟨decode_wf h, encode_decode h⟩

end Sys2Proof.Proofs
end

section
/-! PROOFS. The reserved words: which words the decoder rejects, which it reads as a reserved row
(`30_encoding.md` R115 to R118), and what a step does with each (`60_exceptions.md` R270). -/

namespace Sys2Proof.Proofs

open Sys2Proof Sys2Proof.Machine Sys2Proof.Claims

/-! ## The words of R118 by the decoder's own tests -/

theorem reservedOperandWord_iff (w : Word) :
    reservedOperandWord w ↔
      (0x4000 ≤ w.toNat ∧ destinationReserved (bitOf w 7) (w.extractLsb' 0 4) = true) ∨
      (0x1000 ≤ w.toNat ∧ w.toNat < 0x1200 ∧
        operandReserved (w.extractLsb' 4 2) (w.extractLsb' 0 4) = true) := by
  simp only [reservedOperandWord, destinationReserved, operandReserved, bitOf, Bool.and_eq_true,
    Bool.or_eq_true, beq_iff_eq, or_assoc]

/-! ## The words of the instructions -/

theorem reservedRowWord_append {m k : Nat} (hi : BitVec m) (low : BitVec k) (h : m + k = 16)
    (hrow : ∀ w : Word, w.toNat / 2 ^ k = hi.toNat → reservedRowWord w) :
    reservedRowWord ((hi ++ low).cast h) :=
  hrow _ (append_high hi low h)

/-- The first word of a reserved row stands in R115 to R117. -/
theorem reservedRowWord_of_isReserved {i : Instr} (h : i.isReserved = true) :
    reservedRowWord (firstWord i) := by
  cases i with
  | illegal0xxx low | illegal14xx low | illegal18xx low | illegalAxxx low | illegalFmt2Op7 low
  | illegalSwpbB low | illegalSxtB low | illegalCallB low | illegalReti1340 low
  | illegalReti1320 low | illegalReti1310 low | illegalReti1308 low | illegalReti1304 low
  | illegalReti1302 low =>
    refine reservedRowWord_append _ low rfl fun w hw => ?_
    rw [BitVec.toNat_ofNat] at hw
    unfold reservedRowWord
    omega
  | illegalReti1301 => unfold reservedRowWord; decide
  | _ => cases h

theorem wordI_not_reserved {op : BitVec 4} (n : Size) (src : Src) {dst : Dst}
    (h4 : 4 ≤ op.toNat) (hA : op.toNat ≠ 0xA) (hd : dst.wf = true) :
    ¬ reservedWord (wordI op n src dst) := by
  have htop := field_toNat (wordI op n src dst) 12 4
  rw [wordI_op] at htop
  rw [reservedWord, reservedOperandWord_iff, wordI_ad, wordI_dst, dst_not_reserved dst hd,
    reservedRowWord]
  rintro (hrow | ⟨-, hdst⟩ | ⟨hlow, hhigh, -⟩)
  · omega
  · cases hdst
  · omega

/-- w[15:6] of a Format II word, as a number. -/
theorem wordII_high (op : BitVec 3) (n : Size) (opd : Src) :
    (wordII op n opd).toNat / 2 ^ 6 = 64 + 2 * op.toNat + n.bw.toNat := by
  have hhead : (0b000100#6 ++ op ++ n.bw).toNat = 64 + 2 * op.toNat + n.bw.toNat := by
    generalize n.bw = bw
    revert op bw
    decide
  calc (wordII op n opd).toNat / 2 ^ 6
      = (wordII op n opd).toNat / 2 ^ 4 / 2 ^ 2 := (Nat.div_div_eq_div_mul _ (2 ^ 4) (2 ^ 2)).symm
    _ = (0b000100#6 ++ op ++ n.bw ++ opd.as).toNat / 2 ^ 2 :=
        congrArg (· / 2 ^ 2) (append_div _ opd.field)
    _ = (0b000100#6 ++ op ++ n.bw).toNat := append_div _ opd.as
    _ = 64 + 2 * op.toNat + n.bw.toNat := hhead

theorem wordII_not_reserved {op : BitVec 3} {n : Size} {opd : Src} (ho : opd.wf = true)
    (hop : op.toNat < 6) (hn : op.toNat % 2 = 1 → n = .word)
    (hm : op.toNat < 4 → opd.isWritable = true) :
    ¬ reservedWord (wordII op n opd) := by
  have hhigh := wordII_high op n opd
  have hbw : n.bw.toNat = 0 ∨ op.toNat % 2 = 0 ∧ n.bw.toNat = 1 := by
    cases n with
    | word => exact .inl rfl
    | byte => exact .inr ⟨by simpa using hn, rfl⟩
  rw [reservedWord, reservedOperandWord_iff, wordII_as, wordII_field, reservedRowWord]
  rintro (hrow | ⟨hI, -⟩ | ⟨-, hII, hopd⟩)
  · omega
  · omega
  · rw [src_not_reserved opd ho (hm (by omega))] at hopd
    cases hopd

theorem wordJ_not_reserved (cond : BitVec 3) (off : BitVec 10) :
    ¬ reservedWord (wordJ cond off) := by
  have hj := wordJ_high cond off
  unfold reservedWord reservedRowWord reservedOperandWord
  omega

theorem not_reservedWord_of_wf {i : Instr} (hw : i.wf = true) (hr : i.isReserved = false) :
    ¬ reservedWord (firstWord i) := by
  cases i with
  | mov | add | addc | subc | sub | cmp | bit | bic | bis | xor | and =>
    obtain ⟨-, hd⟩ := (Bool.and_eq_true _ _).mp hw
    exact wordI_not_reserved _ _ (by decide) (by decide) hd
  | rrc | rra | swpb | sxt =>
    obtain ⟨ho, hm⟩ := (Bool.and_eq_true _ _).mp hw
    exact wordII_not_reserved ho (by decide) (by simp) fun _ => hm
  | push | call => exact wordII_not_reserved hw (by decide) (by simp) (by simp)
  | reti => unfold reservedWord reservedRowWord reservedOperandWord; decide
  | jne | jeq | jnc | jc | jn | jge | jl | jmp => exact wordJ_not_reserved _ _
  | _ => cases hr

/-- A well-formed instruction is a reserved row exactly where its word is reserved. -/
theorem isReserved_iff_reservedWord {i : Instr} (hw : i.wf = true) :
    i.isReserved = true ↔ reservedWord (firstWord i) := by
  refine ⟨fun h => .inl (reservedRowWord_of_isReserved h), fun h => ?_⟩
  by_contra hr
  exact not_reservedWord_of_wf hw (Bool.eq_false_of_not_eq_true hr) h

/-! ## What the decoder rejects -/

section
variable {w x y : Word} {ws : List Word} {e : DecodeError}

/-- With two words to follow, a Format I word is rejected only for its destination. -/
theorem destinationReserved_of_error {mk : Size → Src → Dst → Instr}
    (h : decodeFormatI mk w (x :: y :: ws) = .error e) :
    destinationReserved (bitOf w 7) (w.extractLsb' 0 4) = true := by
  unfold decodeFormatI at h
  split at h
  · next hr => exact hr
  · next hr =>
    obtain ⟨src, ws1, hs⟩ := decodeSrc_total w (w.extractLsb' 4 2) (w.extractLsb' 8 4) x (y :: ws)
    obtain ⟨-, -, -, hws⟩ := decodeSrc_read _ _ _ _ _ _ hs
    cases ws1 with
    | nil => cases src <;> cases hws
    | cons z zs =>
      obtain ⟨dst, ws2, hd⟩ := decodeDst_total w (bitOf w 7) (w.extractLsb' 0 4) z zs
      simp only [hs, hd] at h
      cases h

theorem decodeOperand_ne_error (mk : Src → Instr) : decodeOperand mk w (x :: ws) ≠ .error e := by
  obtain ⟨opd, rest, ho⟩ := decodeSrc_total w (w.extractLsb' 4 2) (w.extractLsb' 0 4) x ws
  simp [decodeOperand, ho]

theorem operandReserved_of_error {mk : Src → Instr} (h : decodeModify mk w (x :: ws) = .error e) :
    operandReserved (w.extractLsb' 4 2) (w.extractLsb' 0 4) = true := by
  unfold decodeModify at h
  split at h
  · next hr => exact hr
  · exact absurd h (decodeOperand_ne_error mk)


/-- A Format II word the decoder rejects is one of RRC, SWPB, RRA and SXT on a reserved operand. -/
theorem decodeFormatII_error (h : decodeFormatII w (x :: ws) = .error e) :
    (w.extractLsb' 7 3).toNat < 4 ∧
      ((w.extractLsb' 7 3).toNat % 2 = 1 → ¬ bitOf w 6 = true) ∧
      operandReserved (w.extractLsb' 4 2) (w.extractLsb' 0 4) = true := by
  unfold decodeFormatII at h
  split at h
  case h_1 hop | h_3 hop => exact ⟨by omega, by omega, operandReserved_of_error h⟩
  case h_2 hop | h_4 hop =>
    split at h
    · cases h
    · next hb => exact ⟨by omega, fun _ => hb, operandReserved_of_error h⟩
  case h_5 => exact absurd h (decodeOperand_ne_error _)
  case h_6 =>
    split at h
    · cases h
    · exact absurd h (decodeOperand_ne_error _)
  case h_7 | h_8 => cases h

theorem decodeOne_error (htop : w.toNat / 2 ^ 12 = 1) (h : decodeOne w (x :: ws) = .error e) :
    reservedOperandWord w ∧ ¬ reservedRowWord w := by
  unfold decodeOne at h
  split at h
  · cases h
  · next h11 =>
    split at h
    · cases h
    · next h10 =>
      obtain ⟨hop, hbw, hopd⟩ := decodeFormatII_error h
      rw [field_toNat] at hop hbw
      rw [bitOf_iff] at h11 h10 hbw
      rw [reservedOperandWord_iff, reservedRowWord]
      exact ⟨.inr ⟨by omega, by omega, hopd⟩, by omega⟩

theorem decodeFormatI_error {mk : Size → Src → Dst → Instr} {top : Nat}
    (htop : (w.extractLsb' 12 4).toNat = top) (h4 : 4 ≤ top) (hA : top ≠ 0xA)
    (h : decodeFormatI mk w (x :: y :: ws) = .error e) :
    reservedOperandWord w ∧ ¬ reservedRowWord w := by
  rw [field_toNat] at htop
  rw [reservedOperandWord_iff, reservedRowWord]
  exact ⟨.inl ⟨by omega, destinationReserved_of_error h⟩, by omega⟩

theorem decode_error (h : decode (w :: x :: y :: ws) = .error e) :
    reservedOperandWord w ∧ ¬ reservedRowWord w := by
  simp only [decode] at h
  split at h
  case h_1 | h_3 | h_4 | h_11 => cases h
  case h_2 htop =>
    rw [field_toNat] at htop
    exact decodeOne_error (by omega) h
  case h_16 =>
    simp only [imp_false] at *
    exact decodeFormatI_error rfl (by omega) (by omega) h
  all_goals
    next htop => exact decodeFormatI_error htop (by decide) (by decide) h

/-- The first word of the instruction read is the first word of the stream. -/
theorem firstWord_of_decode {i : Instr} {rest : List Word}
    (h : decode (w :: ws) = .ok (i, rest)) : firstWord i = w :=
  (List.cons.inj (encode_decode h)).1

theorem isReserved_of_decode {i : Instr} {rest : List Word}
    (h : decode (w :: ws) = .ok (i, rest)) :
    i.isReserved = true ↔ reservedWord w := by
  rw [isReserved_iff_reservedWord (decode_wf h), firstWord_of_decode h]

theorem reservedRowWord_of_decode {i : Instr} {rest : List Word}
    (h : decode (w :: ws) = .ok (i, rest)) (hr : i.isReserved = true) : reservedRowWord w := by
  rw [← firstWord_of_decode h]
  exact reservedRowWord_of_isReserved hr

end

/-- The decoder rejects exactly the words of R118 that no reserved row holds. -/
theorem decode_error_iff (w x y : Word) (ws : List Word) :
    (∃ e, decode (w :: x :: y :: ws) = .error e) ↔ reservedOperandWord w ∧ ¬ reservedRowWord w := by
  refine ⟨fun ⟨e, h⟩ => decode_error h, fun ⟨hopd, hrow⟩ => ?_⟩
  cases hd : decode (w :: x :: y :: ws) with
  | error e => exact ⟨e, rfl⟩
  | ok r =>
    have hr : r.1.isReserved = true := (isReserved_of_decode hd).mpr (.inr hopd)
    exact absurd (reservedRowWord_of_decode hd hr) hrow

/-- The decoder reads a reserved row exactly on the rows' words. -/
theorem decode_reservedRow_iff (w x y : Word) (ws : List Word) :
    (∃ i rest, decode (w :: x :: y :: ws) = .ok (i, rest) ∧ i.isReserved = true) ↔
      reservedRowWord w := by
  refine ⟨fun ⟨i, rest, h, hr⟩ => reservedRowWord_of_decode h hr, fun hrow => ?_⟩
  cases hd : decode (w :: x :: y :: ws) with
  | error e => exact absurd hrow (decode_error hd).2
  | ok r => exact ⟨r.1, r.2, rfl, (isReserved_of_decode hd).mpr (.inl hrow)⟩

/-- Settles O4: what is read is reserved exactly where its word is, and what is rejected is an
operand of R118 outside the rows. -/
theorem decoderSeparatesReservedWords : Obligations.DecoderSeparatesReservedWords :=
  fun w x y more => ⟨decode_error_iff w x y more, decode_reservedRow_iff w x y more⟩

/-! ## The step -/

theorem guardDst_next (i : Instr) (dst : Dst) (body s : State) :
    ∃ t, guardDst i dst body s = .next t := by
  unfold guardDst
  split <;> exact ⟨_, rfl⟩

theorem guardOperand_next (i : Instr) (opd : Src) (body s : State) :
    ∃ t, guardOperand i opd body s = .next t := by
  unfold guardOperand
  split <;> exact ⟨_, rfl⟩

/-- No instruction stops the machine: the exception is a next state (log 3). -/
theorem exec_next (i : Instr) (s : State) : ∃ t, exec i s = .next t := by
  cases i with
  | mov | add | addc | subc | sub | cmp | bit | bic | bis | xor | and => exact guardDst_next _ _ _ s
  | rrc | rra | swpb | sxt => exact guardOperand_next _ _ _ s
  | _ => exact ⟨_, rfl⟩

/-- A reserved word raises the exception, whether the decoder rejects it or reads a reserved row. -/
theorem runInstruction_reservedWord {s : State} (h : reservedWord (readWord s.pc s)) :
    runInstruction s = .next (takeIllegal (readWord s.pc s) s) := by
  cases hd : decode (fetchStream s) with
  | error e => exact runInstruction_rejected s e hd
  | ok r =>
    have hr : r.1.isReserved = true := (isReserved_of_decode hd).mpr h
    rw [runInstruction_reserved s r.1 r.2 hd hr, exec_reserved r.1 s hr, firstWord_of_decode hd]

/-- Every other word is an instruction, executed and finished. -/
theorem runInstruction_of_not_reservedWord {s : State} (h : ¬ reservedWord (readWord s.pc s)) :
    ∃ (i : Instr) (u : State), i.wf = true ∧ i.isReserved = false ∧
      firstWord i = readWord s.pc s ∧ exec i s = .next u ∧
      runInstruction s = .next (finishInstruction i u) := by
  cases hd : decode (fetchStream s) with
  | error e => exact absurd (.inr (decode_error hd).1) h
  | ok r =>
    obtain ⟨i, rest⟩ := r
    obtain ⟨u, hu⟩ := exec_next i s
    have hr : i.isReserved = false := by
      rw [← Bool.not_eq_true, isReserved_of_decode hd]
      exact h
    exact ⟨i, u, decode_wf hd, hr, firstWord_of_decode hd, hu,
      runInstruction_executed s u i rest hd hr hu⟩

/-- Settles O7: a running block with no breakpoint in the way runs the instruction at pc. -/
theorem stepRaisesIllegalExactlyOnReservedWords :
    Obligations.StepRaisesIllegalExactlyOnReservedWords := by
  intro s hs hb
  rw [step_running s hs, iterate_free s hb]
  exact ⟨runInstruction_reservedWord, runInstruction_of_not_reservedWord⟩

end Sys2Proof.Proofs
end

section
/-! PROOFS. A step runs the instruction the decoder reads at pc, and every instruction completes
(`40_fetch_and_operands.md` R140 to R142, `60_exceptions.md` R271, R279). -/

namespace Sys2Proof.Proofs

open Sys2Proof Sys2Proof.Machine

/-- Settles O15: each arm of `exec` is a guard of R118 around a body, or the next state itself. -/
theorem everyInstructionGivesANextState : Obligations.EveryInstructionGivesANextState :=
  exec_next

/-- Settles O5: the three words of the premise are the stream the step fetches (log 9), and what
follows `exec` depends on whether the instruction is a reserved row. -/
theorem stepRunsTheDecodedInstruction : Obligations.StepRunsTheDecodedInstruction := by
  intro s t i rest hs hb hd he
  rw [step_running s hs, iterate_free s hb]
  cases hr : i.isReserved with
  | true => exact (runInstruction_reserved s i rest hd hr).trans he
  | false => exact runInstruction_executed s t i rest hd hr he

end Sys2Proof.Proofs
end

section
/-! PROOFS. Operands: every mode of a source and of a destination, and their order
(`40_fetch_and_operands.md` R144 to R150, R154 to R156). -/

namespace Sys2Proof.Proofs

open Sys2Proof Sys2Proof.Machine

/-- A constant of the generator but -1 is below 256, so a byte operation takes it whole (R145). -/
theorem trunc_constValue (n : Size) {c : Const} (h : c ≠ .minusOne) :
    trunc n (constValue c) = constValue c := by
  cases n with
  | word => rfl
  | byte =>
    cases c with
    | minusOne => exact absurd rfl h
    | zero | one | two | four | eight => rfl

theorem resolveSrc_const {c : Const} (h : c ≠ .minusOne) (n : Size) (s : State) :
    resolveSrc (.const c) n s = ⟨constValue c, .const, s⟩ := by
  rw [resolveSrc, trunc_constValue n h]

theorem resolveSrc_const_minusOne (n : Size) (s : State) :
    resolveSrc (.const .minusOne) n s =
      ⟨if n = .byte then 0x00FF#16 else 0xFFFF#16, .const, s⟩ := by
  cases n <;> rfl

/-- The autoincrement of a general register counts the operand's bytes (R150). -/
theorem resolveSrc_autoinc_gpr (i : Fin 12) (n : Size) (s : State) :
    resolveSrc (.autoinc (.gpr i)) n s = ⟨readMem n s.gpr[i] s, .mem s.gpr[i],
      { s with gpr := s.gpr.set i (s.gpr[i] + (if n = .byte then 1#16 else 2#16)) }⟩ := by
  cases n <;> rfl

theorem resolveSrc_immediate (v : Word) (n : Size) (s : State) :
    resolveSrc (.immediate v) n s =
      ⟨if n = .byte then v &&& 0x00FF#16 else v, .mem s.pc, { s with pc := s.pc + 2#16 }⟩ := by
  cases n <;> rfl

/-- Settles O34: a mode is its clause of `resolveSrc`; only the general registers' autoincrement,
the immediate and the constants depend on the operand's size. -/
theorem sourceModes : Obligations.SourceModes := by
  intro n s
  have hconst (c : Const) (h : c ≠ .minusOne) :
      resolveSrc (.const c) n s = ⟨constValue c, .const, s⟩ := resolveSrc_const h n s
  exact ⟨fun _ => rfl, fun _ _ => rfl, fun _ => rfl, fun _ => rfl, fun _ => rfl, rfl,
    fun i => resolveSrc_autoinc_gpr i n s, fun v => resolveSrc_immediate v n s,
    hconst .zero nofun, hconst .one nofun, hconst .two nofun, hconst .four nofun,
    hconst .eight nofun, resolveSrc_const_minusOne n s⟩

/-- Settles O35: a mode is its clause of `resolveDst`; register 3 reads 0 in either size (R28). -/
theorem destinationModes : Obligations.DestinationModes := by
  intro n s
  have hcg : trunc n 0#16 = 0#16 := trunc_constValue n (c := .zero) nofun
  exact ⟨fun _ => rfl, fun _ _ => rfl, fun _ => rfl, fun _ => rfl, hcg, fun _ => rfl,
    fun _ => rfl, fun _ => rfl⟩

/-- Settles O39: the source is resolved past the instruction word, the destination from the state
the source leaves. -/
theorem operandsAreResolvedInOrder : Obligations.OperandsAreResolvedInOrder :=
  fun _ _ _ _ => ⟨rfl, rfl, rfl⟩

end Sys2Proof.Proofs
end

section
/-! PROOFS. Writing a result to a register or to memory (`40_fetch_and_operands.md` R160, R161):
what is left there, and what the write leaves alone. -/

namespace Sys2Proof.Proofs

open Sys2Proof Sys2Proof.Machine Sys2Proof.Claims

/-! ## A register -/

/-- A register write may drop bits (R160) and adds none. -/
theorem readReg_writeReg_le (r : Reg) (v : Word) (s : State) :
    (readReg r (writeReg r v s)).toNat ≤ v.toNat := by
  cases r with
  | pc => exact Nat.and_le_left
  | sp => exact Nat.le_refl _
  | sr => exact Nat.and_le_left
  | cg => exact Nat.zero_le _
  | gpr i => simp [readReg, writeReg]

/-! ## The stored bytes -/

/-- A byte store reads back in backing storage as stored, at a mapped address as the handlers say. -/
theorem readByte_writeByte_stored (ia a : Word) (b : Byte) {s : State}
    (hm : Memory.wf s.mem = true) : readByte a (writeByte ia a b s) = storedByte s a b := by
  unfold storedByte
  split
  · next ha => exact readByte_writeByte_same ia a b s ha hm
  · next l ha => exact (mappedBytesReadBackAsTheirHandlersSay ia a b l s ha).1

theorem storedByte_congr {s t : State} {a : Word} (b : Byte) (hc : t.cfg = s.cfg)
    (hr : readByte a t = readByte a s) : storedByte t a b = storedByte s a b := by
  rw [storedByte, storedByte, hc, hr]

/-- The low byte: a word's second store goes to another address, which P1IN alone could notice. -/
theorem readByte_writeMem_low (ia a v : Word) {n : Size} {s : State} (hm : Memory.wf s.mem = true)
    (hp : n = .byte ∨ laneAt s.cfg a ≠ some .p1in) :
    readByte a (writeMem ia n a v s) = storedByte s a (lowByte v) := by
  cases n with
  | byte => exact readByte_writeByte_stored ia a _ hm
  | word =>
    have hne : a ≠ a + 1#16 := by bv_omega
    have hp' : laneAt (writeByte ia a (lowByte v) s).cfg a ≠ some .p1in := by
      rw [writeByte_cfg]
      exact hp.resolve_left nofun
    rw [writeMem, writeWord, readByte_writeByte_other ia _ a _ _ hne hp',
      readByte_writeByte_stored ia a _ hm]

/-- The high byte: the first store of a word left its address alone. -/
theorem readByte_writeWord_high_stored (ia a v : Word) {s : State} (hm : Memory.wf s.mem = true)
    (hp : laneAt s.cfg (a + 1#16) ≠ some .p1in) :
    readByte (a + 1#16) (writeWord ia a v s) = storedByte s (a + 1#16) (highByte v) := by
  have hne : a + 1#16 ≠ a := by bv_omega
  rw [writeWord, readByte_writeByte_stored ia _ _ (writeByte_memWf ia a _ s hm),
    storedByte_congr _ (writeByte_cfg ia a _ s) (readByte_writeByte_other ia a _ _ s hne hp)]

/-! ## What a store leaves alone -/

theorem storeKeeps_writeMem (ia : Word) (n : Size) (a v : Word) (s : State) :
    storeKeeps s (writeMem ia n a v s) :=
  ⟨writeMem_ctl .., writeMem_cfg .., writeMem_pinIn .., writeMem_clkCycles .., writeMem_taOut ..⟩

/-- Settles O36: a register's write is its clause of `writeReg`; a memory write is one or two byte
stores, each read back at its own address. -/
theorem writingAResult : Obligations.WritingAResult := by
  intro ia v n s
  rw [← lowByte_eq, ← highByte_eq]
  refine ⟨rfl, rfl, rfl, rfl, fun _ => rfl, ?_, fun _ => rfl, fun _ => rfl, ?_, ?_, ?_, ?_, ?_⟩
  · exact fun _ hv r => (readReg_writeReg_le r v s).trans_lt hv
  · exact fun ea l hl => writeByte_mapped ia _ hl
  · refine fun hm ea => ⟨readByte_writeMem_low ia ea v hm, ?_⟩
    rintro rfl hp
    exact readByte_writeWord_high_stored ia ea v hm hp
  · exact fun ea c hc => storesChangeOnlyTheirBytes ia ea c v n s hc
  · exact fun ea r => readReg_writeMem r ia n ea v s
  · exact fun ea => storeKeeps_writeMem ia n ea v s

end Sys2Proof.Proofs
end

section
/-! PROOFS. What an instruction that writes a result changes and what it leaves alone
(`40_fetch_and_operands.md` R151, R160, R161, R168, `41_format1_two_operand.md` R185, R186, R191). -/

namespace Sys2Proof.Proofs

open Sys2Proof Sys2Proof.Machine Sys2Proof.Claims

/-! ## The frame of a store -/

/-- Which bytes are outside a store depends on the parameters alone. -/
theorem outsideStore_congr {s t : State} (h : t.cfg = s.cfg) {n : Size} {ea c : Word}
    (ho : outsideStore s n ea c) : outsideStore t n ea c := by
  unfold outsideStore at *
  rwa [h]

theorem plainStorage_congr {s t : State} (h : t.cfg = s.cfg) {n : Size} {ea : Word}
    (hp : plainStorage s n ea) : plainStorage t n ea := by
  unfold plainStorage at *
  rwa [h]

/-- A byte store to backing storage runs no handler, so it reaches no trace. -/
theorem writeByte_unmapped (ia : Word) {a : Word} (v : Byte) {s : State}
    (h : laneAt s.cfg a = none) :
    writeByte ia a v s = { s with mem := writeCell s.mem a.toNat v } := by
  simp only [writeByte, h]

/-- A store to backing storage changes memory alone. -/
theorem writeMem_plainStorage (ia : Word) {n : Size} {a : Word} (v : Word) {s : State}
    (h : plainStorage s n a) :
    writeMem ia n a v s = { s with mem := (writeMem ia n a v s).mem } := by
  cases n with
  | byte => rw [writeMem, writeByte_unmapped ia _ (h a rfl)]
  | word =>
    have hhigh : laneAt (writeByte ia a (lowByte v) s).cfg (a + 1#16) = none := by
      rw [writeByte_cfg]
      exact h _ (.inr rfl)
    rw [writeMem, writeWord, writeByte_unmapped ia _ hhigh, writeByte_unmapped ia _ (h a (.inl rfl))]

theorem storeKeeps_trans {s t u : State} (h : storeKeeps s t) (k : storeKeeps t u) :
    storeKeeps s u := by
  obtain ⟨hctl, hcfg, hpins, hclk, hout⟩ := h
  obtain ⟨kctl, kcfg, kpins, kclk, kout⟩ := k
  exact ⟨kctl.trans hctl, kcfg.trans hcfg, kpins.trans hpins, kclk.trans hclk, kout.trans hout⟩

theorem storeKeeps_of_sameOutsideRegs {s t : State} (h : SameOutsideRegs s t) :
    storeKeeps s t := by
  rw [h]
  exact ⟨rfl, rfl, rfl, rfl, rfl⟩

theorem storeKeeps_of_atMostOneStore {s t : State} (h : AtMostOneStore s t) : storeKeeps s t := by
  obtain ⟨u, w, hu, hw, ht⟩ := h
  refine storeKeeps_trans ?_ (storeKeeps_of_sameOutsideRegs ht)
  rcases hw with rfl | ⟨n, ea, v, rfl⟩
  · exact storeKeeps_of_sameOutsideRegs hu
  · exact storeKeeps_trans (storeKeeps_of_sameOutsideRegs hu) (storeKeeps_writeMem _ n ea v u)

/-! ## The frame of the flag write -/

theorem writeFlags_outside (f : Option Flags) (s : State) : SameOutsideRegs s (writeFlags f s) := by
  cases f <;> rfl

theorem readReg_writeFlags {r : Reg} (h : r ≠ .sr) (f : Option Flags) (s : State) :
    readReg r (writeFlags f s) = readReg r s := by
  cases f with
  | none => rfl
  | some f => exact readReg_setFlags r f s h

theorem otherStatusBitsKept_writeFlags (f : Option Flags) (s : State) :
    otherStatusBitsKept s (writeFlags f s) := by
  cases f with
  | none => exact fun _ _ _ _ _ => rfl
  | some f =>
    obtain ⟨-, -, -, -, hother, -⟩ := flagsAreTheirStatusBits f s
    exact hother

/-! ## An instruction that writes a result -/

/-- The states an instruction with the source `src` can make of `s` by a result of `n` bytes at the
location `l`, then flags: `u` is `s` with the operands resolved. Where the instruction writes no
result, `l` is the location nothing is written to. -/
inductive WritesResult (i : Instr) (n : Size) (src : Src) (l : Loc) (s : State) : State → Prop
  | mk {u : State} (v : Word) (f : Option Flags) (hout : SameOutsideRegs s u)
      (hregs : ∀ r, r ≠ .pc → src ≠ .autoinc r → readReg r u = readReg r s)
      (hsr : u.sr = s.sr) (hf : keepsFlags i = true → f = none) :
      WritesResult i n src l s (writeFlags f (writeLoc s.pc n l v u))

section
variable {i : Instr} {n : Size} {src : Src} {l : Loc} {s t : State}

/-- A register result stays inside the register file. -/
theorem sameOutsideRegs_of_writesResult (h : WritesResult i n src l s t)
    (hl : ∀ ea, l ≠ .mem ea) : SameOutsideRegs s t := by
  obtain ⟨v, f, hout, -, -, -⟩ := h
  refine .trans ?_ (writeFlags_outside f _)
  cases l with
  | const => exact hout
  | reg r => exact hout.trans (writeReg_outside r v _)
  | mem ea => exact absurd rfl (hl ea)

theorem atMostOneStore_of_writesResult (h : WritesResult i n src l s t) : AtMostOneStore s t := by
  obtain ⟨v, f, hout, -, -, -⟩ := h
  exact (writeLoc_store n l v s _ hout).thenRegs (writeFlags_outside f _)

theorem readReg_writeLoc_other {r : Reg} (h : l ≠ .reg r) (ia v : Word) (s : State) :
    readReg r (writeLoc ia n l v s) = readReg r s := by
  cases l with
  | const => rfl
  | reg q => exact readReg_writeReg_other q r v s fun e => h (e ▸ rfl)
  | mem ea => exact readReg_writeMem r ia n ea v s

theorem readReg_of_writesResult (h : WritesResult i n src l s t) {r : Reg} (hpc : r ≠ .pc)
    (hsr : r ≠ .sr) (hinc : src ≠ .autoinc r) (hl : l ≠ .reg r) : readReg r t = readReg r s := by
  obtain ⟨v, f, -, hregs, -, -⟩ := h
  rw [readReg_writeFlags hsr, readReg_writeLoc_other hl, hregs r hpc hinc]

/-- Where the result does not go to sr, the flag write alone changes it (R162, R168). -/
theorem status_of_writesResult (h : WritesResult i n src l s t) (hl : l ≠ .reg .sr) :
    otherStatusBitsKept s t ∧ (keepsFlags i = true → t.sr = s.sr) := by
  obtain @⟨u, v, f, -, -, hsr, hf⟩ := h
  have hw : (writeLoc s.pc n l v u).sr = s.sr := (readReg_writeLoc_other hl s.pc v u).trans hsr
  refine ⟨?_, ?_⟩
  · intro k h0 h1 h2 h8
    rw [otherStatusBitsKept_writeFlags f _ k h0 h1 h2 h8, hw]
  · intro hk
    rw [hf hk]
    exact hw

/-- A memory result changes no byte outside its store. -/
theorem readByte_of_writesResult {ea c : Word} (h : WritesResult i n src (.mem ea) s t)
    (hc : outsideStore s n ea c) : readByte c t = readByte c s := by
  obtain @⟨u, v, f, hout, -, -, -⟩ := h
  have hcfg : u.cfg = s.cfg := by rw [hout]
  calc readByte c (writeFlags f (writeMem s.pc n ea v u))
      = readByte c (writeMem s.pc n ea v u) := (writeFlags_outside f _).readByte c
    _ = readByte c u := storesChangeOnlyTheirBytes _ _ _ _ _ _ (outsideStore_congr hcfg hc)
    _ = readByte c s := hout.readByte c

/-- A memory result in backing storage reaches no trace. -/
theorem trace_of_writesResult {ea : Word} (h : WritesResult i n src (.mem ea) s t)
    (hp : plainStorage s n ea) : t.events = s.events ∧ t.serialStream = s.serialStream := by
  obtain @⟨u, v, f, hout, -, -, -⟩ := h
  have hcfg : u.cfg = s.cfg := by rw [hout]
  rw [writeFlags_outside f, writeLoc, writeMem_plainStorage _ _ (plainStorage_congr hcfg hp), hout]
  exact ⟨rfl, rfl⟩

end

/-! ## Which instructions write a result, and where -/

theorem formatI_of_modified {i : Instr} {x : Size × Src} (h : modified i = some x) :
    formatI i = none := by
  cases i with
  | rrc | rra | swpb | sxt => rfl
  | _ => cases h

theorem formatI_modified_of_jump {i : Instr} {s : State} {x : BitVec 10 × Bool}
    (h : jump s i = some x) : formatI i = none ∧ modified i = none := by
  cases i with
  | jne | jeq | jnc | jc | jn | jge | jl | jmp => exact ⟨rfl, rfl⟩
  | _ => cases h

theorem isReserved_of_formatI {i : Instr} {x : Size × Src × Dst} (h : formatI i = some x) :
    i.isReserved = false := by
  cases i with
  | mov | add | addc | subc | sub | cmp | bit | bic | bis | xor | and => rfl
  | _ => cases h

theorem isReserved_of_modified {i : Instr} {x : Size × Src} (h : modified i = some x) :
    i.isReserved = false := by
  cases i with
  | rrc | rra | swpb | sxt => rfl
  | _ => cases h

/-- CMP and BIT set the flags (R168). -/
theorem keepsFlags_of_noResult {i : Instr} (h : noResult i = true) : keepsFlags i = false := by
  cases i with
  | cmp | bit => rfl
  | _ => cases h

/-- sr is no base of an autoincrement (R144). -/
theorem ne_autoinc_sr {src : Src} (h : src.wf = true) : src ≠ .autoinc .sr := by
  rintro rfl
  cases h

/-- The location of a Format I instruction's result; CMP and BIT write none (R185, R186). -/
def resultLoc (i : Instr) (l : Loc) : Loc := if noResult i then .const else l

/-- No result, or one in a register, reaches no memory. -/
theorem resultLoc_ne_mem {i : Instr} {dst : Dst} (h : noResult i = true ∨ ∃ r, dst = .reg r)
    (n : Size) (src : Src) (s : State) (ea : Word) :
    resultLoc i (resolveOperands n src dst s).loc ≠ .mem ea := by
  unfold resultLoc
  split
  · nofun
  · next hn =>
    obtain ⟨r, rfl⟩ := h.resolve_left hn
    nofun

/-- A result is written to a register only where the destination names it. -/
theorem dst_of_resultLoc_eq_reg {i : Instr} {n : Size} {src : Src} {dst : Dst} {s : State}
    {r : Reg} (h : resultLoc i (resolveOperands n src dst s).loc = .reg r) :
    noResult i = false ∧ dst = .reg r := by
  unfold resultLoc at h
  split at h
  · cases h
  · next hn =>
    refine ⟨Bool.eq_false_of_not_eq_true hn, ?_⟩
    cases dst with
    | reg q => cases h; rfl
    | indexed | symbolic | absolute => cases h

/-- An operand's location is a register only where the operand names it (R146). -/
theorem opd_of_loc_eq_reg {opd : Src} {n : Size} {s : State} {r : Reg}
    (h : (resolveSrc opd n s).loc = .reg r) : opd = .reg r := by
  cases opd with
  | reg q => cases h; rfl
  | _ => cases h

/-- A Format I instruction writes its result to the destination's location. -/
theorem writesResult_of_formatI {i : Instr} {n : Size} {src : Src} {dst : Dst} {s t : State}
    (hi : formatI i = some (n, src, dst)) (hw : i.wf = true) (he : exec i s = .next t) :
    WritesResult i n src (resultLoc i (resolveOperands n src dst s).loc) s t := by
  have hregs (r : Reg) (hpc : r ≠ .pc) (hinc : src ≠ .autoinc r) :
      readReg r (resolveOperands n src dst s).state = readReg r s :=
    readReg_resolveOperands n src dst r s hpc hinc
  have hout := resolveOperands_outside n src dst s
  cases exec_effect hw (isReserved_of_formatI hi) he with
  | compare f hi' hn hs =>
    cases hi.symm.trans hi'
    rw [resultLoc, if_pos hn]
    refine .mk 0#16 (some f) hout hregs (hregs .sr nofun (ne_autoinc_sr hs)) fun hk => ?_
    rw [keepsFlags_of_noResult hn] at hk
    cases hk
  | result v f hi' hn hs hf =>
    cases hi.symm.trans hi'
    rw [resultLoc, hn]
    exact .mk v f hout hregs (hregs .sr nofun (ne_autoinc_sr hs)) hf
  | modify v f hi' => cases hi.symm.trans (formatI_of_modified hi')
  | push hi' | call hi' | reti hi' => subst hi'; cases hi
  | jump hi' => cases hi.symm.trans (formatI_modified_of_jump hi').1

/-- RRC, RRA, SWPB and SXT write their result to the operand's location (R151). -/
theorem writesResult_of_modified {i : Instr} {n : Size} {opd : Src} {s t : State}
    (hi : modified i = some (n, opd)) (hw : i.wf = true) (he : exec i s = .next t) :
    WritesResult i n opd (resolveSrc opd n (consumeWord s)).loc s t := by
  have hregs (r : Reg) (hpc : r ≠ .pc) (hinc : opd ≠ .autoinc r) :
      readReg r (resolveSrc opd n (consumeWord s)).state = readReg r s :=
    (readReg_resolveSrc opd n r _ hpc hinc).trans (readReg_consumeWord r s hpc)
  cases exec_effect hw (isReserved_of_modified hi) he with
  | modify v f hi' hs hf =>
    cases hi.symm.trans hi'
    exact .mk v f (operand_outside n opd s) hregs (hregs .sr nofun (ne_autoinc_sr hs)) hf
  | compare f hi' | result v f hi' => cases hi'.symm.trans (formatI_of_modified hi)
  | push hi' | call hi' | reti hi' => subst hi'; cases hi
  | jump hi' => cases hi.symm.trans (formatI_modified_of_jump hi').2

/-! ## The frames -/

/-- Settles O56: what is written goes to a register or nowhere, and only sr's flags beside it. -/
theorem frameOfRegisterResults : Obligations.FrameOfRegisterResults := by
  intro i n src dst s t hi hw hdst he
  have h := writesResult_of_formatI hi hw he
  have hout : SameOutsideRegs s t :=
    sameOutsideRegs_of_writesResult h (resultLoc_ne_mem hdst n src s)
  refine ⟨hout, hout.readByte, ?_, ?_⟩
  · intro r hpc hsr hinc hne
    refine readReg_of_writesResult h hpc hsr hinc fun hl => ?_
    obtain ⟨hn, hd⟩ := dst_of_resultLoc_eq_reg hl
    exact hne hn hd
  · intro hne
    refine status_of_writesResult h fun hl => ?_
    obtain ⟨hn, hd⟩ := dst_of_resultLoc_eq_reg hl
    exact hne.elim (fun hn' => nomatch hn.symm.trans hn') fun hd' => hd' hd

/-- Settles O57: the result's location is the operands' own, and none of it is a register. -/
theorem frameOfMemoryResults : Obligations.FrameOfMemoryResults := by
  intro i n src dst s t ea hi hw hn hloc he
  have h : WritesResult i n src (.mem ea) s t := by
    simpa [resultLoc, hn, hloc] using writesResult_of_formatI hi hw he
  obtain ⟨hstatus, hflags⟩ := status_of_writesResult h nofun
  exact ⟨fun c hc => readByte_of_writesResult h hc,
    storeKeeps_of_atMostOneStore (atMostOneStore_of_writesResult h), trace_of_writesResult h,
    fun r hpc hsr hinc => readReg_of_writesResult h hpc hsr hinc nofun, hstatus, hflags⟩

/-- Settles O58: the result goes back to the operand's location, a register where the operand is
one. -/
theorem frameOfModifyInstructions : Obligations.FrameOfModifyInstructions := by
  intro i n opd s t hi hw he o
  have h : WritesResult i n opd o.loc s t := writesResult_of_modified hi hw he
  have hloc (r : Reg) (hne : opd ≠ .reg r) : o.loc ≠ .reg r := fun hl => hne (opd_of_loc_eq_reg hl)
  refine ⟨?_, ?_, storeKeeps_of_atMostOneStore (atMostOneStore_of_writesResult h), ?_, ?_⟩
  · rintro ⟨r, rfl⟩
    have hout : SameOutsideRegs s t := sameOutsideRegs_of_writesResult h nofun
    exact ⟨hout, hout.readByte⟩
  · intro ea hl
    rw [hl] at h
    exact ⟨fun c hc => readByte_of_writesResult h hc, trace_of_writesResult h⟩
  · exact fun r hpc hsr hinc hne => readReg_of_writesResult h hpc hsr hinc (hloc r hne)
  · exact fun hne => status_of_writesResult h (hloc .sr hne)

end Sys2Proof.Proofs
end

section
/-! PROOFS. The two-operand instructions: the result and the flags of each, restated by the signed
and unsigned numbers its operands stand for (`40_fetch_and_operands.md` R164 to R168,
`41_format1_two_operand.md` R180 to R191). -/

namespace Sys2Proof.Proofs

open Sys2Proof Sys2Proof.Machine Sys2Proof.Claims

/-! ## Signed values -/

/-- A value below M is negative from M / 2 up (R8). -/
theorem signed_eq {n : Size} {v : Word} (h : v.toNat < modulus n) :
    signed n v = if modulus n ≤ 2 * v.toNat then (v.toNat : Int) - modulus n else v.toNat := by
  cases n <;>
    simp only [signed, modulus, BitVec.toInt_eq_toNat_cond, BitVec.toNat_setWidth] at * <;> omega

/-- The top bit is the sign. -/
theorem msb_eq_signed_neg (n : Size) (v : Word) : msb n v = decide (signed n v < 0) := by
  cases n with
  | byte =>
    rw [signed, ← BitVec.msb_eq_toInt, BitVec.msb_setWidth]
    rfl
  | word =>
    rw [signed, ← BitVec.msb_eq_toInt, BitVec.msb_eq_getLsbD_last]
    rfl

/-- The complement of R166 is the signed -1 - v. -/
theorem signed_complement {n : Size} {v : Word} (h : v.toNat < modulus n) :
    signed n (complement n v) = -1 - signed n v := by
  have hc : (complement n v).toNat = modulus n - 1 - v.toNat := complement_toNat n v h
  rw [signed_eq h, signed_eq (by omega), hc]
  cases n <;> simp only [modulus] at * <;> omega

/-! ## Addition and subtraction -/

/-- R165's rule for V: operands of one sign with a result of the other is a signed overflow. -/
theorem signs_differ_iff_outOfRange {n : Size} {a b r : Word} {cin : Nat}
    (ha : a.toNat < modulus n) (hb : b.toNat < modulus n) (hc : cin ≤ 1)
    (hr : r.toNat = (a.toNat + b.toNat + cin) % modulus n) :
    (msb n a = msb n b ∧ msb n r ≠ msb n a) ↔ outOfRange n (signed n a + signed n b + cin) := by
  have hlt : r.toNat < modulus n := hr ▸ Nat.mod_lt _ (by omega)
  rw [msb_eq n a ha, msb_eq n b hb, msb_eq n r hlt, signed_eq ha, signed_eq hb, ne_eq,
    decide_eq_decide, decide_eq_decide]
  cases n <;> simp only [modulus, outOfRange] at * <;> omega

/-- `AddCore` (R165) as numbers: the sum before and after the reduction modulo M. -/
theorem addCore_eq {n : Size} {a b : Word} {cin : Bool} {full res : Nat}
    (ha : a.toNat < modulus n) (hb : b.toNat < modulus n)
    (hfull : a.toNat + b.toNat + cin.toNat = full) (hres : full % modulus n = res) :
    addCore n a b cin = ⟨BitVec.ofNat 16 res,
      { c := decide (modulus n ≤ full)
        z := decide (res = 0)
        n := decide (modulus n ≤ 2 * res)
        v := decide (outOfRange n (signed n a + signed n b + cin.toNat)) }⟩ := by
  subst hfull hres
  have hr := addCore_res n a b cin
  have hlt : (addCore n a b cin).res.toNat < modulus n := hr ▸ Nat.mod_lt _ (by omega)
  have hz : ((addCore n a b cin).res == 0#16) = decide ((addCore n a b cin).res.toNat = 0) :=
    decide_eq_decide.mpr BitVec.toNat_inj.symm
  have hn := msb_eq n (addCore n a b cin).res hlt
  have hv : (msb n a == msb n b && msb n (addCore n a b cin).res != msb n a) =
      decide (outOfRange n (signed n a + signed n b + cin.toNat)) := by
    rw [Bool.eq_iff_iff, Bool.and_eq_true, beq_iff_eq, bne_iff_ne, decide_eq_true_iff]
    exact signs_differ_iff_outOfRange ha hb cin.toNat_le hr
  rw [hr] at hz hn
  rw [← hz, ← hn, ← hv]
  rfl

/-- A subtraction is the addition of the complement (R166): C set is no borrow. -/
theorem addCore_complement_eq {n : Size} {d v : Word} {cin : Bool} {borrow res : Nat}
    (hd : d.toNat < modulus n) (hv : v.toNat < modulus n) (hb : borrow = 1 - cin.toNat)
    (hres : ((d.toNat - v.toNat - borrow : Int) % modulus n).toNat = res) :
    addCore n d (complement n v) cin = ⟨BitVec.ofNat 16 res,
      { c := decide (v.toNat + borrow ≤ d.toNat)
        z := decide (res = 0)
        n := decide (modulus n ≤ 2 * res)
        v := decide (outOfRange n (signed n d - signed n v - borrow)) }⟩ := by
  have hc : (complement n v).toNat = modulus n - 1 - v.toNat := complement_toNat n v hv
  have hcin : cin.toNat ≤ 1 := cin.toNat_le
  have hres' : (d.toNat + (complement n v).toNat + cin.toNat) % modulus n = res := by
    cases n <;> simp only [modulus] at * <;> omega
  have hcarry : modulus n ≤ d.toNat + (complement n v).toNat + cin.toNat ↔
      v.toNat + borrow ≤ d.toNat := by omega
  have hsigned : signed n d + signed n (complement n v) + cin.toNat =
      signed n d - signed n v - borrow := by
    rw [signed_complement hv]
    omega
  rw [addCore_eq hd (by omega) rfl hres', decide_eq_decide.mpr hcarry, hsigned]

/-- V tells whether N is the sign of the difference, so N xor V is the signed order (R185). -/
theorem negative_ne_overflow_iff {n : Size} {d v : Word} {res : Nat} (hd : d.toNat < modulus n)
    (hv : v.toNat < modulus n) (hres : ((d.toNat - v.toNat : Int) % modulus n).toNat = res) :
    ¬(modulus n ≤ 2 * res ↔ outOfRange n (signed n d - signed n v)) ↔
      signed n d < signed n v := by
  rw [signed_eq hd, signed_eq hv]
  cases n <;> simp only [modulus, outOfRange] at * <;> omega

/-- CMP's flags (R185): those of the difference, read as the order of its operands. -/
theorem compareFlags_eq {n : Size} {d v : Word} (hd : d.toNat < modulus n)
    (hv : v.toNat < modulus n) :
    let f := (addCore n d (complement n v) true).flags
    f.z = decide (d = v) ∧ f.c = decide (v.toNat ≤ d.toNat) ∧
    xor f.n f.v = decide (signed n d < signed n v) ∧
    f.v = decide (outOfRange n (signed n d - signed n v)) := by
  have hres : ((d.toNat - v.toNat - (0 : Nat) : Int) % modulus n).toNat =
      ((d.toNat - v.toNat : Int) % modulus n).toNat := by rw [Nat.cast_zero, sub_zero]
  have hz : ((d.toNat - v.toNat : Int) % modulus n).toNat = 0 ↔ d = v := by
    rw [← BitVec.toNat_inj]
    cases n <;> simp only [modulus] at * <;> omega
  have hnv := negative_ne_overflow_iff hd hv rfl
  rw [addCore_complement_eq (borrow := 0) hd hv rfl hres, Nat.cast_zero, sub_zero]
  refine ⟨decide_eq_decide.mpr hz, rfl, ?_, rfl⟩
  rw [Bool.eq_iff_iff, Bool.xor_iff_ne, ne_eq, decide_eq_decide, decide_eq_true_iff]
  exact hnv

/-! ## Logic flags -/

/-- The flags of AND and BIT (R167): N is the sign. -/
theorem logicFlags_eq (n : Size) (res : Word) :
    logicFlags n res = { c := decide (res ≠ 0#16), z := decide (res = 0#16)
                         n := decide (signed n res < 0), v := false } := by
  rw [logicFlags, msb_eq_signed_neg, bne, decide_not]
  rfl

/-- The flags of XOR (R167, R189): V is set where both operands are negative. -/
theorem xorFlags_eq (n : Size) (a b res : Word) :
    xorFlags n a b res =
      { c := decide (res ≠ 0#16), z := decide (res = 0#16), n := decide (signed n res < 0)
        v := decide (signed n b < 0 ∧ signed n a < 0) } := by
  rw [xorFlags, logicFlags_eq, Bool.and_comm, msb_eq_signed_neg, msb_eq_signed_neg,
    Bool.decide_and]

/-! ## What a well-formed instruction executes -/

section
variable {n : Size} {src : Src} {dst : Dst}

/-- A well-formed instruction passes the guard of R118(a), and its `exec` is that guard around its
template. -/
theorem guardDst_of_wf {i : Instr} (hi : formatI i = some (n, src, dst)) (hw : i.wf = true)
    (body s : State) : guardDst i dst body s = .next body := by
  have hd : dst.wf = true := by
    cases i with
    | mov | add | addc | subc | sub | cmp | bit | bic | bis | xor | and =>
      cases hi
      exact ((Bool.and_eq_true _ _).mp hw).2
    | _ => cases hi
  exact guardDst_body i dst body s hd

/-- A template of R191 with the result and the flags it computes at the operands. -/
theorem twoOpWriteFlags_of_result {f : Word → Word → Result} {s : State} {r : Result}
    (h : f (resolveOperands n src dst s).value
      (readLoc n (resolveOperands n src dst s).loc (resolveOperands n src dst s).state) = r) :
    twoOpWriteFlags n src dst f s = setFlags r.flags (writeLoc s.pc n
      (resolveOperands n src dst s).loc r.res (resolveOperands n src dst s).state) := by
  subst h
  rfl

theorem toNat_carry (s : State) : (carry s).toNat = carryNat s := by
  unfold carryNat
  cases carry s <;> rfl

/-- ADD adds no carry, ADDC the carry flag (R181, R182). -/
theorem exec_addition {i : Instr} {s : State} {cin : Nat}
    (hi : (i = .add n src dst ∧ cin = 0) ∨ (i = .addc n src dst ∧ cin = carryNat s))
    (hw : i.wf = true) : ∃ b : Bool, b.toNat = cin ∧
      exec i s = .next (twoOpWriteFlags n src dst (fun a d => addCore n d a b) s) := by
  obtain ⟨rfl, rfl⟩ | ⟨rfl, rfl⟩ := hi
  · exact ⟨false, rfl, guardDst_of_wf rfl hw _ s⟩
  · exact ⟨carry s, toNat_carry s, guardDst_of_wf rfl hw _ s⟩

/-- SUB borrows nothing, SUBC the complement of the carry flag (R183, R184). -/
theorem exec_subtraction {i : Instr} {s : State} {borrow : Nat}
    (hi : (i = .sub n src dst ∧ borrow = 0) ∨ (i = .subc n src dst ∧ borrow = 1 - carryNat s))
    (hw : i.wf = true) : ∃ b : Bool, borrow = 1 - b.toNat ∧ exec i s =
      .next (twoOpWriteFlags n src dst (fun a d => addCore n d (complement n a) b) s) := by
  obtain ⟨rfl, rfl⟩ | ⟨rfl, rfl⟩ := hi
  · exact ⟨true, rfl, guardDst_of_wf rfl hw _ s⟩
  · exact ⟨carry s, by rw [toNat_carry], guardDst_of_wf rfl hw _ s⟩

end

/-! ## The statements -/

/-- Settles O38: MOV writes the source's value as it is. -/
theorem movWritesTheSourceValue : Obligations.MovWritesTheSourceValue :=
  fun _ _ _ s hw => guardDst_of_wf rfl hw _ s

/-- Settles O40: the numbers of `AddCore` at the operands, which are below M. -/
theorem additionsWriteSumAndFlags : Obligations.AdditionsWriteSumAndFlags := by
  intro n src dst s i cin hi hw o d full res
  obtain ⟨b, rfl, he⟩ := exec_addition hi hw
  have ha : o.value.toNat < modulus n := resolveOperands_value_lt n src dst s
  have hd : d.toNat < modulus n := readLoc_lt n o.loc o.state
  have hcore := addCore_eq (cin := b) hd ha rfl rfl
  rw [he, twoOpWriteFlags_of_result hcore]

/-- Settles O41: the numbers of the complement's addition at the operands. -/
theorem subtractionsWriteDifferenceAndFlags : Obligations.SubtractionsWriteDifferenceAndFlags := by
  intro n src dst s i borrow hi hw o d res
  obtain ⟨b, hb, he⟩ := exec_subtraction hi hw
  have ha : o.value.toNat < modulus n := resolveOperands_value_lt n src dst s
  have hd : d.toNat < modulus n := readLoc_lt n o.loc o.state
  have hcore := addCore_complement_eq hd ha hb rfl
  rw [he, twoOpWriteFlags_of_result hcore]

/-- Settles O42: CMP sets the flags of the difference and stops there. -/
theorem cmpComparesAndWritesNothing : Obligations.CmpComparesAndWritesNothing :=
  fun n src dst s hw => ⟨_, guardDst_of_wf rfl hw _ s,
    compareFlags_eq (readLoc_lt n _ _) (resolveOperands_value_lt n src dst s)⟩

/-- Settles O43: AND and BIT set the flags of the same value. -/
theorem andAndBitSetLogicFlags : Obligations.AndAndBitSetLogicFlags := by
  intro n src dst s hw o res f
  have hf : logicFlags n res = f := logicFlags_eq n res
  refine ⟨?_, ?_⟩
  · rw [← hf]
    exact guardDst_of_wf rfl hw _ s
  · rw [← hf, show res = o.value &&& readLoc n o.loc o.state from BitVec.and_comm ..]
    exact guardDst_of_wf (i := .bit n src dst) rfl hw _ s

/-- Settles O44: V is the sign bits' conjunction. -/
theorem xorSetsVWhenBothAreNegative : Obligations.XorSetsVWhenBothAreNegative := by
  intro n src dst s hw o d res
  rw [← xorFlags_eq]
  exact guardDst_of_wf rfl hw _ s

/-- Settles O45: the destination's value is below M, so the complement modulo M clears the bits the
full complement does (R187). -/
theorem bicAndBisWriteBits : Obligations.BicAndBisWriteBits := by
  intro n src dst s hw o d
  refine ⟨?_, guardDst_of_wf (i := .bis n src dst) rfl hw _ s⟩
  rw [← and_complement n d o.value (readLoc_lt n o.loc o.state)]
  exact guardDst_of_wf rfl hw _ s

end Sys2Proof.Proofs
end

section
/-! PROOFS. The single-operand instructions that write their operand back: the result and the flags
of each, restated by the numbers and the bits of its operand (`42_format2_single_operand.md` R220 to
R223, R227, `40_fetch_and_operands.md` R167). -/

namespace Sys2Proof.Proofs

open Sys2Proof Sys2Proof.Machine Sys2Proof.Claims

/-- A well-formed instruction passes the guard of R118(b) (R227), and its `exec` is that guard around
its template. -/
theorem guardOperand_of_wf {i : Instr} {n : Size} {opd : Src} (hi : modified i = some (n, opd))
    (hw : i.wf = true) (body s : State) : guardOperand i opd body s = .next body := by
  have ho : opd.wf = true ∧ opd.isWritable = true := by
    cases i with
    | rrc | swpb | rra | sxt =>
      cases hi
      exact (Bool.and_eq_true _ _).mp hw
    | _ => cases hi
  exact guardOperand_body i opd body s ho.1 ho.2

/-! ## Rotation and shift -/

/-- The flags of RRC and RRA (R167): C is the parity of the operand. -/
theorem shiftFlags_eq (n : Size) (v res : Word) :
    shiftFlags n v res =
      { c := decide (v.toNat % 2 = 1), z := decide (res = 0#16), n := msb n res, v := false } := by
  rw [shiftFlags, getLsbD_eq, Nat.pow_zero, Nat.div_one]
  rfl

section
variable {n : Size} {v : Word}

/-- A rotation moves every bit of the W + 1 bits of C and the operand (R220). -/
theorem rotateRight_double (cin : Bool) (h : v.toNat < modulus n) :
    2 * (rotateRight n cin v).toNat + v.toNat % 2 = v.toNat + cin.toNat * modulus n := by
  rw [rotateRight_toNat n cin v h]
  cases n <;> simp only [modulus] <;> omega

/-- The bit that enters at the top is the result's sign. -/
theorem msb_rotateRight (cin : Bool) (h : v.toNat < modulus n) :
    msb n (rotateRight n cin v) = cin := by
  have hc : cin.toNat ≤ 1 := cin.toNat_le
  have hr := rotateRight_toNat n cin v h
  have hlt : (rotateRight n cin v).toNat < modulus n := by
    cases n <;> simp only [modulus] at * <;> omega
  rw [msb_eq n _ hlt, hr]
  cases cin with
  | false =>
    rw [Bool.toNat_false]
    exact decide_eq_false (by omega)
  | true =>
    rw [Bool.toNat_true]
    exact decide_eq_true (by cases n <;> simp only [modulus] at * <;> omega)

theorem shiftRight_lt (h : v.toNat < modulus n) : (shiftRight n v).toNat < modulus n := by
  have hb : (msb n v).toNat ≤ 1 := (msb n v).toNat_le
  rw [shiftRight_toNat n v h]
  cases n <;> simp only [modulus] at * <;> omega

/-- Keeping the sign bit makes the shift the signed half, rounded down (R222). -/
theorem signed_shiftRight (h : v.toNat < modulus n) :
    signed n (shiftRight n v) = signed n v / 2 := by
  rw [signed_eq (shiftRight_lt h), signed_eq h, shiftRight_toNat n v h, msb_eq n v h]
  by_cases hv : modulus n ≤ 2 * v.toNat
  · rw [if_pos hv, decide_eq_true hv, Bool.toNat_true]
    cases n <;> simp only [modulus] at * <;> omega
  · rw [if_neg hv, decide_eq_false hv, Bool.toNat_false]
    cases n <;> simp only [modulus] at * <;> omega

end

/-- Settles O46: the result is the rotation through the old C, which is also its sign. -/
theorem rrcRotatesThroughCarry : Obligations.RrcRotatesThroughCarry := by
  intro n opd s hw o
  have hv : o.value.toNat < modulus n := resolveSrc_value_lt opd n _
  refine ⟨rotateRight n (carry s) o.value, ?_, ?_⟩
  · rw [← toNat_carry]
    exact rotateRight_double (carry s) hv
  · have hf := shiftFlags_eq n o.value (rotateRight n (carry s) o.value)
    rw [msb_rotateRight (carry s) hv] at hf
    rw [← hf]
    exact guardOperand_of_wf rfl hw _ s

/-- Settles O47: the result is the arithmetic shift, and half a number has its sign. -/
theorem rraHalvesSigned : Obligations.RraHalvesSigned := by
  intro n opd s hw o
  have hv : o.value.toNat < modulus n := resolveSrc_value_lt opd n _
  have hhalf := signed_shiftRight hv
  have hneg : signed n (shiftRight n o.value) < 0 ↔ signed n o.value < 0 := by omega
  refine ⟨shiftRight n o.value, shiftRight_lt hv, hhalf, ?_⟩
  have hf := shiftFlags_eq n o.value (shiftRight n o.value)
  rw [msb_eq_signed_neg, decide_eq_decide.mpr hneg] at hf
  rw [← hf]
  exact guardOperand_of_wf rfl hw _ s

/-! ## The bytes of a word -/

/-- An extended word has the sign of its low byte (R223). -/
theorem msb_signExtend (v : Word) : msb .word (signExtend v) = v.getLsbD 7 := by
  rw [signExtend_eq, msb, BitVec.getLsbD_signExtend, BitVec.msb_setWidth]
  rfl

/-- Settles O48: SWPB's exchange is two shifts, SXT's result the sign extension of the low byte. -/
theorem swpbAndSxtTransformTheWord : Obligations.SwpbAndSxtTransformTheWord := by
  intro opd s hw o ext
  have hext : signExtend o.value = ext := signExtend_eq o.value
  have hf : logicFlags .word ext = { c := decide (ext ≠ 0#16), z := decide (ext = 0#16)
                                     n := o.value.getLsbD 7, v := false } := by
    rw [logicFlags_eq, ← msb_eq_signed_neg, ← hext, msb_signExtend]
  refine ⟨?_, ?_⟩
  · rw [← swapBytes_eq]
    exact guardOperand_of_wf rfl hw _ s
  · rw [← hf, ← hext]
    exact guardOperand_of_wf (i := .sxt opd) rfl hw _ s

end Sys2Proof.Proofs
end

section
/-! PROOFS. The stack: PUSH, CALL and RETI, and RET as the return from a CALL
(`42_format2_single_operand.md` R224 to R226, `41_format1_two_operand.md` R180); and what these and
the jumps leave alone (R168, `43_jumps.md` R250). -/

namespace Sys2Proof.Proofs

open Sys2Proof Sys2Proof.Machine Sys2Proof.Claims

/-! ## PUSH and CALL -/

/-- The operand of a Format II instruction changes no register but pc and an autoincremented one. -/
theorem readReg_operand {opd : Src} {r : Reg} (hpc : r ≠ .pc) (hinc : opd ≠ .autoinc r) (n : Size)
    (s : State) : readReg r (resolveSrc opd n (consumeWord s)).state = readReg r s :=
  (readReg_resolveSrc opd n r _ hpc hinc).trans (readReg_consumeWord r s hpc)

/-- Settles O49: `exec` of PUSH is its one clause, which has no guard (R227). -/
theorem pushStoresBelowTheOldSp : Obligations.PushStoresBelowTheOldSp :=
  fun _ _ _ _ => rfl

/-- Settles O50: the operand leaves pc behind the instruction's words, and that pc is pushed. -/
theorem callPushesTheReturnAddress : Obligations.CallPushesTheReturnAddress :=
  fun _ s hw => ⟨operand_pc hw .word s, _, rfl, rfl⟩

/-! ## Pops -/

theorem readWord_consumeWord (a : Word) (s : State) : readWord a (consumeWord s) = readWord a s :=
  (consumeWord_outside s).readMem .word a

theorem setSr_outside (v : Word) (s : State) : SameOutsideRegs s (setSr v s) := rfl

/-- Neither the write of sr nor that of sp between the two pops changes what they read (R226). -/
theorem popStatusAndPc_eq (s : State) :
    popStatusAndPc s = { s with
      sr := readWord s.sp s &&& 0x01FF#16
      pc := readWord (s.sp + 2#16) s &&& 0xFFFE#16
      sp := s.sp + 4#16 } := by
  have hread (v w a : Word) : readWord a (setSp w (setSr v s)) = readWord a s :=
    ((setSr_outside v s).trans (setSp_outside w _)).readMem .word a
  have hsp : s.sp + 2#16 + 2#16 = s.sp + 4#16 := BitVec.add_assoc ..
  simp only [popStatusAndPc, setPc_sp, setSp_sp, setSr_sp, hread, hsp]
  rfl

/-- Settles O51: the two pops, after the instruction word. -/
theorem retiPopsStatusAndPc : Obligations.RetiPopsStatusAndPc := by
  intro s
  rw [exec, execReti, popStatusAndPc_eq, consumeWord_sp, readWord_consumeWord, readWord_consumeWord]
  rfl

/-- RET, that is `MOV @SP+, PC`: pc is popped (R150, R180). -/
theorem exec_ret (s : State) :
    exec (.mov .word (.autoinc .sp) (.reg .pc)) s = .next { s with
      pc := readWord s.sp s &&& 0xFFFE#16
      sp := s.sp + 2#16 } := by
  rw [← readWord_consumeWord]
  exact movWritesTheSourceValue .word (.autoinc .sp) (.reg .pc) s rfl

/-! ## CALL, then RET -/

/-- RET after the push of a word to backing storage: the word goes to pc and sp is as before the
push, wherever pc was sent in between. -/
theorem ret_of_pushValue {ia v p : Word} {s u : State} (hm : Memory.wf s.mem = true)
    (hlow : laneAt s.cfg (s.sp - 2#16) = none) (hhigh : laneAt s.cfg (s.sp - 1#16) = none)
    (he : exec (.mov .word (.autoinc .sp) (.reg .pc)) (setPc p (pushValue ia .word v s)) = .next u) :
    u.pc = v &&& 0xFFFE#16 ∧ u.sp = s.sp := by
  have hnext : s.sp - 2#16 + 1#16 = s.sp - 1#16 := by bv_omega
  have hsp : (setPc p (pushValue ia .word v s)).sp = s.sp - 2#16 := writeMem_sp ..
  have hpop : readWord (s.sp - 2#16) (setPc p (pushValue ia .word v s)) = v := by
    obtain ⟨-, -, hword⟩ :=
      (storesAreLittleEndian ia (s.sp - 2#16) v (setSp (s.sp - 2#16) s) hm).1 hlow (hnext ▸ hhigh)
    exact ((setPc_outside p _).readMem .word _).trans hword
  cases he.symm.trans (exec_ret _)
  refine ⟨?_, ?_⟩
  · rw [hsp, hpop]
  · rw [hsp, BitVec.sub_add_cancel]

/-- The words of an instruction keep an even address even (R23). -/
theorem aligned_add_words {a : Word} (h : a.getLsbD 0 = false) (k : Nat) :
    (a + BitVec.ofNat 16 (2 * k)).getLsbD 0 = false := by
  rw [getLsbD_eq, decide_eq_false_iff_not] at *
  rw [BitVec.toNat_add, BitVec.toNat_ofNat]
  omega

/-- pc takes an even address whole (R23). -/
theorem mask_of_aligned {a : Word} (h : a.getLsbD 0 = false) : a &&& 0xFFFE#16 = a := by
  apply BitVec.eq_of_getLsbD_eq
  intro k hk
  have hmask : (0xFFFE#16).getLsbD k = decide (k ≠ 0) := by interval_cases k <;> rfl
  rw [BitVec.getLsbD_and, hmask]
  by_cases hk0 : k = 0
  · rw [hk0, h, Bool.false_and]
  · rw [decide_eq_true hk0, Bool.and_true]

/-- Settles O52: RET pops the word CALL pushed, which is even, so pc takes it whole; and sp gains the
2 it lost. -/
theorem callThenRetReturns : Obligations.CallThenRetReturns := by
  intro opd s t u hw hm hpc hsp hlow hhigh hcall hret
  obtain ⟨hra, -⟩ := callPushesTheReturnAddress opd s hw
  have hout := operand_outside .word opd s
  have hsp' : (resolveSrc opd .word (consumeWord s)).state.sp = s.sp :=
    readReg_operand (r := .sp) nofun hsp .word s
  obtain rfl := Host.Outcome.next.inj hcall
  obtain ⟨hupc, husp⟩ := ret_of_pushValue (by rwa [hout]) (by rwa [hsp', hout])
    (by rwa [hsp', hout]) hret
  refine ⟨?_, husp.trans hsp'⟩
  rw [hupc, mask_of_aligned]
  · exact hra
  · exact hra ▸ aligned_add_words hpc _

/-! ## Frames -/

section
variable (ia : Word) {n : Size} (v : Word) {s : State}

/-- A push changes no byte outside its store. -/
theorem readByte_pushValue {c : Word} (h : outsideStore s n (s.sp - 2#16) c) :
    readByte c (pushValue ia n v s) = readByte c s :=
  (storesChangeOnlyTheirBytes ia _ c v n (setSp (s.sp - 2#16) s) h).trans
    ((setSp_outside _ s).readByte c)

/-- A push to backing storage reaches no trace. -/
theorem trace_pushValue (h : plainStorage s n (s.sp - 2#16)) :
    (pushValue ia n v s).events = s.events ∧
    (pushValue ia n v s).serialStream = s.serialStream := by
  rw [pushValue, writeMem_plainStorage (s := setSp (s.sp - 2#16) s) ia v h]
  exact ⟨rfl, rfl⟩

/-- A push changes sp alone of the registers. -/
theorem readReg_pushValue {r : Reg} (h : r ≠ .sp) :
    readReg r (pushValue ia n v s) = readReg r s :=
  (readReg_writeMem r ia n _ v _).trans (readReg_writeReg_other .sp r _ s h)

end

/-- PUSH and CALL push a value of `n` bytes, and nothing but pc differs after that. -/
theorem exec_push_or_call {i : Instr} {n : Size} {opd : Src} {s t : State}
    (hi : i = .push n opd ∨ (i = .call opd ∧ n = .word)) (he : exec i s = .next t) :
    ∃ v p : Word, t = setRegPlain .pc p
      (pushValue s.pc n v (resolveSrc opd n (consumeWord s)).state) := by
  obtain rfl | ⟨rfl, rfl⟩ := hi
  · exact ⟨_, (pushValue s.pc n _ _).pc, (Host.Outcome.next.inj he).symm⟩
  · exact ⟨_, _, (Host.Outcome.next.inj he).symm⟩

theorem operand_wf_of_push_or_call {i : Instr} {n : Size} {opd : Src}
    (hi : i = .push n opd ∨ (i = .call opd ∧ n = .word)) (hw : i.wf = true) : opd.wf = true := by
  obtain rfl | ⟨rfl, -⟩ := hi <;> exact hw

/-- Settles O59: before the push the operand changes registers alone, after it pc may. -/
theorem frameOfPushAndCall : Obligations.FrameOfPushAndCall := by
  intro i n opd s t hi hw he o ea
  obtain ⟨v, p, rfl⟩ : ∃ v p, t = setRegPlain .pc p (pushValue s.pc n v o.state) :=
    exec_push_or_call hi he
  have hout : SameOutsideRegs s o.state := operand_outside n opd s
  have hcfg : o.state.cfg = s.cfg := by rw [hout]
  have hpc := setRegPlain_outside .pc p (pushValue s.pc n v o.state)
  have hregs (r : Reg) (hrpc : r ≠ .pc) (hrsp : r ≠ .sp) (hinc : opd ≠ .autoinc r) :
      readReg r (setRegPlain .pc p (pushValue s.pc n v o.state)) = readReg r s :=
    calc readReg r (setRegPlain .pc p (pushValue s.pc n v o.state))
        = readReg r (pushValue s.pc n v o.state) := readReg_setRegPlain_other .pc r p _ hrpc
      _ = readReg r o.state := readReg_pushValue _ v hrsp
      _ = readReg r s := readReg_operand hrpc hinc n s
  refine ⟨?_, ?_, ?_, hregs, ?_, ?_⟩
  · intro c hc
    rw [hpc.readByte, readByte_pushValue _ v (outsideStore_congr hcfg hc), hout.readByte]
  · exact storeKeeps_of_atMostOneStore ((pushValue_store n v s _ hout).thenRegs hpc)
  · intro hp
    obtain ⟨hevents, hstream⟩ := trace_pushValue s.pc v (plainStorage_congr hcfg hp)
    exact ⟨hevents.trans (by rw [hout]), hstream.trans (by rw [hout])⟩
  · exact writeMem_sp ..
  · exact hregs .sr nofun nofun (ne_autoinc_sr (operand_wf_of_push_or_call hi hw))

/-- Settles O60: RETI's pops write pc, sp and sr, and a jump writes pc (R226, R250). -/
theorem frameOfRetiAndJumps : Obligations.FrameOfRetiAndJumps := by
  intro i s t hi he
  obtain rfl | hj := hi
  · cases (retiPopsStatusAndPc s).symm.trans he
    exact ⟨rfl, SameOutsideRegs.readByte rfl, rfl, fun h => absurd rfl h⟩
  · obtain ⟨⟨off, taken⟩, hj⟩ := Option.isSome_iff_exists.mp hj
    cases (exec_jump hj).symm.trans he
    have hout := jumpIf_outside taken off s
    refine ⟨hout, hout.readByte, ?_, fun _ => ⟨?_, ?_⟩⟩ <;> cases taken <;> rfl

end Sys2Proof.Proofs
end

section
/-! PROOFS. The jumps: where they go (`43_jumps.md` R250 to R258, R110). -/

namespace Sys2Proof.Proofs

open Sys2Proof Sys2Proof.Machine Sys2Proof.Claims

/-- The offset counts words: its sign extension, shifted left by one, counts bytes (R110). -/
theorem jumpTarget_eq (ia : Word) (off : BitVec 10) :
    jumpTarget ia off = ia + 2#16 + (off.signExtend 16 <<< 1) := by
  have hia : BitVec.ofInt 16 ia.toNat = ia := by simp
  have hoff : BitVec.ofInt 16 (2 * off.toInt) = off.signExtend 16 <<< 1 := by
    rw [BitVec.ofInt_mul, BitVec.shiftLeft_eq_mul_twoPow, BitVec.mul_comm]
    rfl
  rw [jumpTarget, BitVec.ofInt_add, BitVec.ofInt_add, hia, hoff]
  rfl

/-- Settles O53: `exec` of a jump is the template of R250, which writes pc alone. -/
theorem jumpsGoToTheirTarget : Obligations.JumpsGoToTheirTarget := by
  intro i off taken s h
  rw [exec_jump h, ← jumpTarget_eq]
  cases taken <;> rfl

end Sys2Proof.Proofs
end

section
/-! PROOFS. What an instruction computes does not depend on run control, the trace, the serial
stream, clk_cycles or ta_out (`60_exceptions.md` R325, R294, R299, `10_state.md` R38, R39). -/

namespace Sys2Proof.Proofs

open Sys2Proof Sys2Proof.Machine Sys2Proof.Claims

/-! ## Reads and stores in the program's view -/

theorem readReg_programView (r : Reg) (s : State) : readReg r (programView s) = readReg r s := by
  cases r <;> rfl

theorem readByte_programView (a : Word) (s : State) :
    readByte a (programView s) = readByte a s := by
  cases ha : laneAt s.cfg a with
  | none => exact (readByte_unmapped a _ ha).trans (readByte_unmapped a s ha).symm
  | some l =>
    rw [readByte_mapped a l s ha, readByte_mapped a l (programView s) ha]
    cases l <;> rfl

/-- A store's effect on the view does not depend on what the view leaves out: a handler's records
and bytes are appended to what no program reads (R38, R39). -/
theorem programView_writeByte (ia a : Word) (v : Byte) (s : State) :
    programView (writeByte ia a v (programView s)) = programView (writeByte ia a v s) := by
  cases ha : laneAt s.cfg a with
  | none => rw [writeByte_unmapped ia v ha, writeByte_unmapped (s := programView s) ia v ha]; rfl
  | some l =>
    rw [writeByte_mapped ia v ha, writeByte_mapped (s := programView s) ia v ha]
    cases l <;> rfl

/-! ## Two runs -/

/-- A program cannot tell the two states apart. -/
def SameView (s t : State) : Prop := programView s = programView t

namespace SameView

variable {s t : State}

theorem readReg (h : SameView s t) (r : Reg) : readReg r s = readReg r t := by
  rw [← readReg_programView, h, readReg_programView]

theorem pc (h : SameView s t) : s.pc = t.pc := h.readReg .pc
theorem sp (h : SameView s t) : s.sp = t.sp := h.readReg .sp
theorem sr (h : SameView s t) : s.sr = t.sr := h.readReg .sr

theorem readByte (h : SameView s t) (a : Word) : readByte a s = readByte a t := by
  rw [← readByte_programView, h, readByte_programView]

theorem readMem (h : SameView s t) (n : Size) (a : Word) : readMem n a s = readMem n a t := by
  cases n with
  | byte => rw [Machine.readMem, Machine.readMem, h.readByte]
  | word => rw [Machine.readMem, Machine.readMem, readWord, readWord, h.readByte, h.readByte]

theorem readWord (h : SameView s t) (a : Word) : readWord a s = readWord a t := h.readMem .word a

/-- An operation on registers alone acts on the view as on the state. -/
theorem map {f : State → State} (h : SameView s t)
    (hf : ∀ u, programView (f u) = f (programView u)) : SameView (f s) (f t) := by
  rw [SameView, hf, hf, h]

theorem consumeWord (h : SameView s t) : SameView (consumeWord s) (consumeWord t) :=
  h.map fun _ => rfl

theorem setPc (h : SameView s t) (v : Word) : SameView (setPc v s) (setPc v t) :=
  h.map fun _ => rfl

theorem setSp (h : SameView s t) (v : Word) : SameView (setSp v s) (setSp v t) :=
  h.map fun _ => rfl

theorem setSr (h : SameView s t) (v : Word) : SameView (setSr v s) (setSr v t) :=
  h.map fun _ => rfl

theorem setFlags (h : SameView s t) (f : Flags) : SameView (setFlags f s) (setFlags f t) :=
  h.map fun _ => rfl

theorem writeReg (h : SameView s t) (r : Reg) (v : Word) :
    SameView (writeReg r v s) (writeReg r v t) :=
  h.map fun _ => by cases r <;> rfl

theorem setRegPlain (h : SameView s t) (r : Reg) (v : Word) :
    SameView (setRegPlain r v s) (setRegPlain r v t) :=
  h.map fun _ => by cases r <;> rfl

theorem writeByte (h : SameView s t) (ia a : Word) (v : Byte) :
    SameView (writeByte ia a v s) (writeByte ia a v t) := by
  rw [SameView, ← programView_writeByte, h, programView_writeByte]

theorem writeMem (h : SameView s t) (ia : Word) (n : Size) (a v : Word) :
    SameView (writeMem ia n a v s) (writeMem ia n a v t) := by
  cases n with
  | byte => exact h.writeByte ia a _
  | word => exact (h.writeByte ia a _).writeByte ia _ _

/-- The exception writes run control alone (R270). -/
theorem takeIllegal (h : SameView s t) (w : Word) : SameView (takeIllegal w s) (takeIllegal w t) :=
  h

theorem readLoc (h : SameView s t) (n : Size) (l : Loc) : readLoc n l s = readLoc n l t := by
  cases l with
  | const => rfl
  | reg r => exact congrArg (trunc n) (h.readReg r)
  | mem ea => exact h.readMem n ea

theorem writeLoc (h : SameView s t) (ia : Word) (n : Size) (l : Loc) (v : Word) :
    SameView (writeLoc ia n l v s) (writeLoc ia n l v t) := by
  cases l with
  | const => exact h
  | reg r => exact h.writeReg r v
  | mem ea => exact h.writeMem ia n ea v

theorem pushValue (h : SameView s t) (ia : Word) (n : Size) (v : Word) :
    SameView (pushValue ia n v s) (pushValue ia n v t) := by
  rw [Machine.pushValue, Machine.pushValue, h.sp]
  exact (h.setSp _).writeMem ia n _ v

/-- RETI pops the same two words (R226). -/
theorem popStatusAndPc (h : SameView s t) : SameView (popStatusAndPc s) (popStatusAndPc t) := by
  rw [popStatusAndPc_eq, popStatusAndPc_eq, h.sp, h.readWord, h.readWord]
  exact ((h.setSr (Machine.readWord t.sp t)).setPc (Machine.readWord (t.sp + 2#16) t)).setSp
    (t.sp + 4#16)

theorem jumpIf (h : SameView s t) (taken : Bool) (off : BitVec 10) :
    SameView (jumpIf taken off s) (jumpIf taken off t) := by
  cases taken with
  | false => exact h.consumeWord
  | true =>
    rw [Machine.jumpIf, Machine.jumpIf, h.pc]
    exact h.consumeWord.setPc _

/-! ## Operands and templates -/

/-- A source has the same value and location in both runs, and the same effect. -/
theorem resolveSrc (h : SameView s t) (src : Src) (n : Size) :
    (resolveSrc src n s).value = (resolveSrc src n t).value ∧
    (resolveSrc src n s).loc = (resolveSrc src n t).loc ∧
    SameView (resolveSrc src n s).state (resolveSrc src n t).state := by
  have hreg := h.readReg
  have hmem (ea : Word) := h.readMem n ea
  have hnext (ea : Word) := h.consumeWord.readMem n ea
  cases src with
  | reg r => exact ⟨congrArg (trunc n) (hreg r), rfl, h⟩
  | const c => exact ⟨rfl, rfl, h⟩
  | immediate v => exact ⟨rfl, congrArg Loc.mem h.pc, h.consumeWord⟩
  | indirect r => simp [Machine.resolveSrc, memoryOperand, hreg, hmem, h]
  | autoinc r => simp [Machine.resolveSrc, hreg, hmem, h.setRegPlain]
  | indexed r x => simp [Machine.resolveSrc, memoryOperand, hreg, hnext, h.consumeWord]
  | symbolic x => simp [Machine.resolveSrc, memoryOperand, h.pc, hnext, h.consumeWord]
  | absolute x => simp [Machine.resolveSrc, memoryOperand, hnext, h.consumeWord]

theorem resolveDst (h : SameView s t) (dst : Dst) :
    (resolveDst dst s).loc = (resolveDst dst t).loc ∧
    SameView (resolveDst dst s).state (resolveDst dst t).state := by
  cases dst with
  | reg r => exact ⟨rfl, h⟩
  | indexed r x => exact ⟨congrArg (fun v => Loc.mem (v + x)) (h.readReg r), h.consumeWord⟩
  | symbolic x => exact ⟨congrArg (fun v => Loc.mem (v + x)) h.pc, h.consumeWord⟩
  | absolute x => exact ⟨rfl, h.consumeWord⟩

theorem resolveOperands (h : SameView s t) (n : Size) (src : Src) (dst : Dst) :
    (resolveOperands n src dst s).value = (resolveOperands n src dst t).value ∧
    (resolveOperands n src dst s).loc = (resolveOperands n src dst t).loc ∧
    SameView (resolveOperands n src dst s).state (resolveOperands n src dst t).state := by
  obtain ⟨hvalue, -, hstate⟩ := h.consumeWord.resolveSrc src n
  exact ⟨hvalue, hstate.resolveDst dst⟩

theorem twoOpWrite (h : SameView s t) (n : Size) (src : Src) (dst : Dst)
    (f : Word → Word → Word) : SameView (twoOpWrite n src dst f s) (twoOpWrite n src dst f t) := by
  obtain ⟨hvalue, hloc, hstate⟩ := h.resolveOperands n src dst
  simp only [Machine.twoOpWrite, hvalue, hloc, hstate.readLoc, h.pc]
  exact hstate.writeLoc _ n _ _

theorem twoOpWriteFlags (h : SameView s t) (n : Size) (src : Src) (dst : Dst)
    (f : Word → Word → Result) :
    SameView (twoOpWriteFlags n src dst f s) (twoOpWriteFlags n src dst f t) := by
  obtain ⟨hvalue, hloc, hstate⟩ := h.resolveOperands n src dst
  simp only [Machine.twoOpWriteFlags, hvalue, hloc, hstate.readLoc, h.pc]
  exact (hstate.writeLoc _ n _ _).setFlags _

theorem twoOpFlags (h : SameView s t) (n : Size) (src : Src) (dst : Dst)
    (f : Word → Word → Flags) : SameView (twoOpFlags n src dst f s) (twoOpFlags n src dst f t) := by
  obtain ⟨hvalue, hloc, hstate⟩ := h.resolveOperands n src dst
  simp only [Machine.twoOpFlags, hvalue, hloc, hstate.readLoc]
  exact hstate.setFlags _

theorem oneOpWrite (h : SameView s t) (n : Size) (opd : Src) (f : Word → Word) :
    SameView (oneOpWrite n opd f s) (oneOpWrite n opd f t) := by
  obtain ⟨hvalue, hloc, hstate⟩ := h.consumeWord.resolveSrc opd n
  simp only [Machine.oneOpWrite, hvalue, hloc, h.pc]
  exact hstate.writeLoc _ n _ _

theorem oneOpWriteFlags (h : SameView s t) (n : Size) (opd : Src) (f : Word → Result) :
    SameView (oneOpWriteFlags n opd f s) (oneOpWriteFlags n opd f t) := by
  obtain ⟨hvalue, hloc, hstate⟩ := h.consumeWord.resolveSrc opd n
  simp only [Machine.oneOpWriteFlags, hvalue, hloc, h.pc]
  exact (hstate.writeLoc _ n _ _).setFlags _

end SameView

/-! ## Two outcomes -/

/-- Next states a program cannot tell apart. -/
def SameNext (o p : Host.Outcome State Fault Refusal) : Prop :=
  ∀ s t : State, o = .next s → p = .next t → SameView s t

namespace SameNext

variable {s t : State}

theorem next (h : SameView s t) : SameNext (.next s) (.next t) := by
  rintro _ _ ⟨⟩ ⟨⟩
  exact h

theorem guardDst {u v : State} (h : SameView s t) (k : SameView u v) (i : Instr) (dst : Dst) :
    SameNext (guardDst i dst u s) (guardDst i dst v t) := by
  unfold Machine.guardDst
  split
  · exact next (h.takeIllegal _)
  · exact next k

theorem guardOperand {u v : State} (h : SameView s t) (k : SameView u v) (i : Instr) (opd : Src) :
    SameNext (guardOperand i opd u s) (guardOperand i opd v t) := by
  unfold Machine.guardOperand
  split
  · exact next (h.takeIllegal _)
  · exact next k

/-- An instruction does the same to both states: its operands, its carry and its jump's condition
are read from what a program can see. -/
theorem exec (h : SameView s t) (i : Instr) : SameNext (exec i s) (exec i t) := by
  have hcarry : carry s = carry t := congrArg (·.getLsbD 0) h.sr
  cases i with
  | mov n a d =>
    obtain ⟨hvalue, hloc, hstate⟩ := h.resolveOperands n a d
    simp only [Machine.exec, execMov, hvalue, hloc, h.pc]
    exact guardDst h (hstate.writeLoc _ n _ _) _ d
  | add n a d | sub n a d | xor n a d | and n a d =>
    exact guardDst h (h.twoOpWriteFlags n a d _) _ d
  | addc n a d | subc n a d =>
    simp only [Machine.exec, execAddc, execSubc, hcarry]
    exact guardDst h (h.twoOpWriteFlags n a d _) _ d
  | cmp n a d | bit n a d => exact guardDst h (h.twoOpFlags n a d _) _ d
  | bic n a d | bis n a d => exact guardDst h (h.twoOpWrite n a d _) _ d
  | rrc n o =>
    simp only [Machine.exec, execRrc, hcarry]
    exact guardOperand h (h.oneOpWriteFlags n o _) _ o
  | rra n o | sxt o => exact guardOperand h (h.oneOpWriteFlags _ o _) _ o
  | swpb o => exact guardOperand h (h.oneOpWrite .word o _) _ o
  | push n o =>
    obtain ⟨hvalue, -, hstate⟩ := h.consumeWord.resolveSrc o n
    simp only [Machine.exec, execPush, hvalue, h.pc]
    exact next (hstate.pushValue _ n _)
  | call o =>
    obtain ⟨hvalue, -, hstate⟩ := h.consumeWord.resolveSrc o .word
    simp only [Machine.exec, execCall, hvalue, hstate.pc, h.pc]
    exact next ((hstate.pushValue _ .word _).setPc _)
  | reti => exact next h.consumeWord.popStatusAndPc
  | jne off | jeq off | jnc off | jc off | jn off | jge off | jl off | jmp off =>
    simp only [Machine.exec, execJne, execJeq, execJnc, execJc, execJn, execJge, execJl, execJmp,
      zero, carry, negative, overflow, h.sr]
    exact next (h.jumpIf _ off)
  | _ => exact next (h.takeIllegal _)

end SameNext

/-- Settles O22: every operation of `exec` acts alike on two states with one view, so their next
states have one view as well. -/
theorem programCannotSeeHostState : Obligations.ProgramCannotSeeHostState :=
  fun i _ _ t1 t2 h h1 h2 => SameNext.exec h i t1 t2 h1 h2

end Sys2Proof.Proofs
end

section
/-! PROOFS. The run control: what ends an instruction, the exception, breakpoints, and the host's
run commands (`60_exceptions.md` R270, R279 to R287, R290). -/

namespace Sys2Proof.Proofs

open Sys2Proof Sys2Proof.Machine Sys2Proof.Claims Sys2Proof.Safety

/-! ## The exception -/

/-- Settles O54: the state written out is that of `takeIllegal` (R270). -/
theorem reservedRowsRaiseIllegalInstruction : Obligations.ReservedRowsRaiseIllegalInstruction :=
  exec_reserved

/-! ## The end of an instruction -/

/-- Settles O6: the tick and the cycle cost leave the two pending bits alone, and
`endOfInstruction` asks for either (log 14). -/
theorem finishTicksOnceAndHonoursHalts : Obligations.FinishTicksOnceAndHonoursHalts := by
  intro i s t stop
  cases hstop : stop with
  | true => exact if_pos hstop
  | false => exact if_neg (Bool.eq_false_iff.mp hstop)

section
variable (i : Instr) {s : State}

@[simp] theorem finishInstruction_clkCycles :
    (finishInstruction i s).clock.clkCycles = s.clock.clkCycles + 4 :=
  congrArg (·.clock.clkCycles) (finishTicksOnceAndHonoursHalts i s)

/-- An instruction of a running block ends it exactly where a halt is pending (R284, R285). -/
theorem finishInstruction_halted_iff (h : s.ctl.runState = .running) :
    (finishInstruction i s).ctl.runState = .halted ↔
      s.ctl.stepPending = true ∨ s.ctl.haltRequest = true := by
  rw [finishTicksOnceAndHonoursHalts i s, ← Bool.or_eq_true]
  cases s.ctl.stepPending || s.ctl.haltRequest <;> simp [h]

/-- A single step ends halted, and its bit is cleared (R284). -/
theorem finishInstruction_of_stepPending (h : s.ctl.stepPending = true) :
    (finishInstruction i s).ctl.runState = .halted ∧
      (finishInstruction i s).ctl.stepPending = false := by
  rw [finishTicksOnceAndHonoursHalts i s, h]
  exact ⟨rfl, rfl⟩

end

/-! ## The step of a running block -/

section
variable {s : State}

theorem step_of_breakpointHit (hs : s.ctl.runState = .running) (hb : breakpointHit s = true) :
    step s = .next (haltAtBreakpoint s) := by
  rw [step_running s hs, iterate, if_pos hb]

theorem step_of_no_breakpointHit (hs : s.ctl.runState = .running) (hb : breakpointHit s = false) :
    step s = runInstruction s := by
  rw [step_running s hs, iterate_free s hb]

end

/-- Settles O8: the breakpoint is one of those `breakpointHit` looks for (R282). -/
theorem breakpointHaltsBeforeExecution : Obligations.BreakpointHaltsBeforeExecution := by
  intro s b hs hp hb ha he
  have hany : (s.ctl.breakpoints.any fun b => b.address == s.pc && b.enabled) = true :=
    List.any_eq_true.mpr ⟨b, hb, by simp [ha, he]⟩
  exact step_of_breakpointHit hs (by rw [breakpointHit, hp, hany]; rfl)

/-- Settles O11: a breakpoint and the exception halt the block, and an instruction leaves the two
pending bits, which alone decide at its end, as they were. -/
theorem runningIsLeftOnlyAsListed : Obligations.RunningIsLeftOnlyAsListed := by
  intro s t hs hstep
  cases hb : breakpointHit s with
  | true =>
    cases (step_of_breakpointHit hs hb).symm.trans hstep
    exact iff_of_true rfl (.inl rfl)
  | false =>
    rw [step_of_no_breakpointHit hs hb] at hstep
    by_cases hw : reservedWord (readWord s.pc s)
    · cases (runInstruction_reservedWord hw).symm.trans hstep
      exact iff_of_true rfl (.inr (.inl hw))
    · obtain ⟨i, u, hwf, hr, -, he, hrun⟩ := runInstruction_of_not_reservedWord hw
      cases hrun.symm.trans hstep
      have hctl : u.ctl = s.ctl := (exec_store i s u hwf hr he).ctl
      rw [finishInstruction_halted_iff i (hctl ▸ hs), hctl]
      simp [hw]

/-! ## The host's run commands -/

section
variable {s : State}

theorem whileHalted_of_halted (f : State → State) (h : s.ctl.runState = .halted) :
    whileHalted f s = f s := by
  simp [whileHalted, h]

theorem whileHalted_of_running (f : State → State) (h : s.ctl.runState = .running) :
    whileHalted f s = s := by
  simp [whileHalted, h]

end

/-- Settles O13: run, continue and step are `resumeRun`, accepted only while halted (log 10). -/
theorem hostRunCommands : Obligations.HostRunCommands := by
  intro s
  refine ⟨fun h => ?_, fun h => ?_, rfl⟩
  · exact ⟨whileHalted_of_halted _ h, rfl, whileHalted_of_halted _ h⟩
  · exact ⟨whileHalted_of_running _ h, whileHalted_of_running _ h, whileHalted_of_running _ h⟩

/-! ## Resuming a halted block -/

section
variable (single : Bool) (s : State)

/-- Run control is not in memory: the resumed block fetches the same words (R71, R74). -/
theorem readWord_resumeRun (a : Word) : readWord a (resumeRun single s) = readWord a s :=
  readMem_congr .word a s _ rfl rfl rfl rfl rfl rfl

theorem fetchStream_resumeRun : fetchStream (resumeRun single s) = fetchStream s := by
  simp only [fetchStream, readWord_resumeRun, resumeRun_pc]

end

/-- A block resumed at a reserved word takes the exception, and the report dropped is replaced. -/
theorem step_resumeRun_reservedWord {single : Bool} {s : State}
    (hw : reservedWord (readWord s.pc s)) (hb : breakpointHit (resumeRun single s) = false) :
    step (resumeRun single s) = .next (takeIllegal (readWord s.pc s) s) := by
  rw [step_of_no_breakpointHit rfl hb]
  rw [← readWord_resumeRun single] at hw ⊢
  exact runInstruction_reservedWord hw

/-- At any other word it executes the instruction the decoder read before it was resumed. -/
theorem step_resumeRun_executed {single : Bool} {s u : State} {i : Instr} {rest : List Word}
    (hb : breakpointHit (resumeRun single s) = false)
    (hd : decode (fetchStream s) = .ok (i, rest)) (hr : i.isReserved = false)
    (he : exec i (resumeRun single s) = .next u) :
    step (resumeRun single s) = .next (finishInstruction i u) := by
  rw [step_of_no_breakpointHit rfl hb]
  rw [← fetchStream_resumeRun single] at hd
  exact runInstruction_executed _ u i rest hd hr he

/-- Settles O10: the block halted by the exception stands at the same word, and the exception taken
again writes the same report. -/
theorem resumeAfterIllegalRaisesItAgain : Obligations.ResumeAfterIllegalRaisesItAgain := by
  intro s hw f
  have hagain (single : Bool) (hb : breakpointHit (resumeRun single f) = false) :
      step (whileHalted (resumeRun single) f) = .next f := by
    rw [whileHalted_of_halted _ rfl]
    exact step_resumeRun_reservedWord (s := f) hw hb
  refine ⟨hagain true rfl, fun hfree => ?_⟩
  have hb : breakpointHit (resumeRun false f) = false := by
    simpa [breakpointHit, f] using hfree
  exact ⟨hagain false hb, hagain false hb⟩

/-- A word that is not reserved is read as an instruction that is no reserved row. -/
theorem decode_of_not_reservedWord {s : State} (h : ¬ reservedWord (readWord s.pc s)) :
    ∃ i rest, decode (fetchStream s) = .ok (i, rest) ∧ i.isReserved = false := by
  cases hd : decode (fetchStream s) with
  | error e => exact absurd (.inr (decode_error hd).1) h
  | ok r =>
    have hr : ¬ r.1.isReserved = true := fun hr => h ((isReserved_of_decode hd).mp hr)
    exact ⟨r.1, r.2, rfl, Bool.eq_false_iff.mpr hr⟩

/-- Settles O9: the step's bit makes the block pass every breakpoint and halt at the instruction's
end, whose state comes from the one the host resumed. -/
theorem singleStepRunsOneInstruction : Obligations.SingleStepRunsOneInstruction := by
  intro s hs
  rw [hostCommand, whileHalted_of_halted _ hs]
  by_cases hw : reservedWord (readWord s.pc s)
  · have ht : takeIllegal (readWord s.pc s) s = { s with
        ctl := { s.ctl with
          stepPending := false
          report := some ⟨s.pc, readWord s.pc s⟩ } } := by
      rw [takeIllegal, ← hs]
    exact ⟨_, step_resumeRun_reservedWord hw rfl, rfl, rfl, rfl, fun _ => ht, fun h => absurd hw h⟩
  · obtain ⟨i, rest, hd, hr⟩ := decode_of_not_reservedWord hw
    obtain ⟨u, he⟩ := exec_next i (resumeRun true s)
    have hwf : i.wf = true := decode_wf hd
    have hstore : AtMostOneStore (resumeRun true s) u := exec_store i _ u hwf hr he
    have hctl : u.ctl = (resumeRun true s).ctl := hstore.ctl
    obtain ⟨-, -, -, hclk, -⟩ := storeKeeps_of_atMostOneStore hstore
    have hstep := step_resumeRun_executed rfl hd hr he
    obtain ⟨hrun, hpending⟩ := finishInstruction_of_stepPending i (s := u) (hctl ▸ rfl)
    refine ⟨_, hstep, hrun, hpending, ?_, fun h => absurd h hw, fun _ => ?_⟩
    · rw [finishInstruction_breakpoints, hctl]; rfl
    · refine ⟨i, rest, u, hd, hwf, hr, firstWord_of_decode hd, he, rfl, ?_, ?_⟩
      · rw [finishInstruction_clkCycles, hclk]; rfl
      · rw [finishInstruction_report, hctl]; rfl

/-! ## A parked program -/

/-- `JMP $` at an aligned pc goes to itself (R286). -/
theorem exec_jmp_self {s : State} (h : s.pc.getLsbD 0 = false) :
    exec (.jmp 0x3FF#10) s = .next s := by
  have htarget : jumpTarget s.pc 0x3FF#10 = s.pc := by
    rw [jumpTarget_eq, BitVec.add_assoc]
    exact BitVec.add_zero _
  have hjump : jumpIf true 0x3FF#10 s = { s with pc := s.pc &&& 0xFFFE#16 } := by
    rw [jumpIf, htarget]
    rfl
  rw [exec, execJmp, hjump, mask_of_aligned h]

/-- Settles O55: the word at pc decodes as `JMP $`, which changes nothing, so the step is the end of
an instruction. -/
theorem parkedProgramOnlyTicks : Obligations.ParkedProgramOnlyTicks := by
  intro s hs hb hpc hparked
  have hword : readWord s.pc s = 0x3FFF#16 := beq_iff_eq.mp hparked
  have hd : ∃ rest, decode (fetchStream s) = .ok (.jmp 0x3FF#10, rest) := by
    rw [fetchStream, hword]
    exact ⟨_, rfl⟩
  obtain ⟨rest, hd⟩ := hd
  rw [step_of_no_breakpointHit hs hb,
    runInstruction_executed s s _ rest hd rfl (exec_jmp_self hpc),
    finishTicksOnceAndHonoursHalts]

/-! ## The breakpoint commands -/

/-- In a set in rising order every address is at or above the bound. -/
theorem le_of_mem_breakpointsFrom {low : Nat} {l : List Breakpoint} {b : Breakpoint}
    (h : breakpointsFrom low l = true) (hb : b ∈ l) : low ≤ b.address.toNat := by
  induction l generalizing low with
  | nil => cases hb
  | cons c rest ih =>
    obtain ⟨hc, hrest⟩ := (breakpointsFrom_cons ..).mp h
    cases hb with
    | head => exact hc
    | tail _ hb =>
      have := ih hrest hb
      omega

/-- Set adds the breakpoint unless its address is taken (R283). -/
theorem mem_insertBreakpoint {low : Nat} {l : List Breakpoint} (b c : Breakpoint)
    (h : breakpointsFrom low l = true) :
    c ∈ insertBreakpoint b l ↔ c ∈ l ∨ (c = b ∧ ∀ d ∈ l, d.address ≠ b.address) := by
  induction l generalizing low with
  | nil => simp [insertBreakpoint]
  | cons k rest ih =>
    obtain ⟨-, hrest⟩ := (breakpointsFrom_cons ..).mp h
    rw [insertBreakpoint]
    split
    · next hlt =>
      have hfree : ∀ d ∈ k :: rest, d.address ≠ b.address := by
        intro d hd he
        have hle : k.address.toNat ≤ d.address.toNat :=
          le_of_mem_breakpointsFrom ((breakpointsFrom_cons ..).mpr ⟨Nat.le_refl _, hrest⟩) hd
        rw [he] at hle
        omega
      rw [List.mem_cons, or_comm, and_iff_left hfree]
    · split
      · next heq =>
        have htaken : ¬ ∀ d ∈ k :: rest, d.address ≠ b.address :=
          fun hfree => hfree k List.mem_cons_self heq.symm
        simp only [htaken, and_false, or_false]
      · next hne =>
        rw [List.mem_cons, List.mem_cons, ih hrest, List.forall_mem_cons,
          and_iff_right (Ne.symm hne), or_assoc]

theorem mem_removeBreakpoint (a : Word) (c : Breakpoint) (l : List Breakpoint) :
    c ∈ removeBreakpoint a l ↔ c ∈ l ∧ c.address ≠ a := by
  rw [removeBreakpoint, List.mem_filter, bne_iff_ne]

/-- Settles O14: set inserts into the set, clear filters it, and both write nothing but the set. -/
theorem breakpointCommands : Obligations.BreakpointCommands := by
  intro s b c a hs hb
  have hset : hostCommand (.setBreakpoint b) s =
      setBreakpoints (insertBreakpoint b s.ctl.breakpoints) s := whileHalted_of_halted _ hs
  have hclear : hostCommand (.clearBreakpoint a) s =
      setBreakpoints (removeBreakpoint a s.ctl.breakpoints) s := whileHalted_of_halted _ hs
  rw [hset, hclear]
  exact ⟨mem_insertBreakpoint b c hb, mem_removeBreakpoint a c _, rfl, rfl, rfl⟩

end Sys2Proof.Proofs
end

section
/-! PROOFS. The peripherals: the GPIO port, the serial transmitter and the timer
(`60_exceptions.md` R296 to R308, R312). -/

namespace Sys2Proof.Proofs

open Sys2Proof Sys2Proof.Machine

/-! ## The GPIO port -/

/-- The pins whose output bit a write changes, in ascending order. -/
def changedPins (old new : Byte) : List (Fin 8) :=
  (List.finRange 8).filter fun i => new.getLsbD i != old.getLsbD i

theorem changedPins_pairwise (old new : Byte) :
    ((changedPins old new).map Fin.val).Pairwise (· < ·) :=
  List.pairwise_map.mpr ((List.pairwise_lt_finRange 8).filter _)

theorem mem_changedPins (old new : Byte) (i : Fin 8) :
    i ∈ changedPins old new ↔ new.getLsbD i ≠ old.getLsbD i := by
  simp [changedPins]

/-- One record per changed pin (R303). -/
theorem pinEvents_eq (port : Nat) (dir old new : Byte) (ia : Word) :
    pinEvents port dir old new ia = (changedPins old new).map fun i =>
      .gpio port i (dir.getLsbD i) (new.getLsbD i) ia := by
  have hpins : ([0, 1, 2, 3, 4, 5, 6, 7] : List (Fin 8)) = List.finRange 8 := by decide
  rw [pinEvents, hpins, changedPins, ← List.filterMap_eq_map, List.filterMap_filter]
  rfl

/-- Settles O30: the pins are the changed ones, and the rest is `writeP1OUT`. -/
theorem p1OutWriteReportsEachChangedPin : Obligations.P1OutWriteReportsEachChangedPin := by
  intro ia a v s ha
  refine ⟨changedPins s.gpio.p1out v, changedPins_pairwise _ v, mem_changedPins _ v, ?_⟩
  rw [writeByte_mapped ia v ha, ← pinEvents_eq]
  rfl

/-- A pin reads the latch or the outside level by its direction (R304). -/
theorem p1in_getLsbD (g : Gpio) (i : Fin 8) :
    g.p1in.getLsbD i =
      if g.p1dir.getLsbD i then g.p1out.getLsbD i else g.pinIn.getLsbD i := by
  rw [Gpio.p1in, BitVec.getLsbD_or, BitVec.getLsbD_and, BitVec.getLsbD_and, BitVec.getLsbD_not]
  cases g.p1dir.getLsbD i <;> simp

/-- Settles O31: P1IN's read handler, bit by bit, and its write handler, which drops the byte. -/
theorem p1InReadsEachPin : Obligations.P1InReadsEachPin := by
  intro ia a v s i ha
  rw [readByte_mapped a .p1in s ha, writeByte_mapped ia v ha]
  exact ⟨p1in_getLsbD s.gpio i, rfl⟩

/-! ## The serial transmitter -/

/-- Settles O32: the write reaches UCA0TXBUF's handler, which transmits. -/
theorem txBufWriteTransmits : Obligations.TxBufWriteTransmits :=
  fun ia _ v _ ha => writeByte_mapped ia v ha

/-! ## The timer -/

section
variable {e : Nat} {t : Timer}

theorem timerTick_idle (h : t.mc = 0b00#2 ∨ t.period = 0) : timerTick e t = t := by
  unfold timerTick
  split
  · rfl
  · next hmc => exact if_pos (h.resolve_left hmc)

theorem timerTick_overflow (hmc : t.mc ≠ 0b00#2) (hp : t.period ≠ 0)
    (h : t.period ≤ t.tar.toNat + e) : timerTick e t = t.overflow (t.tar.toNat + e) := by
  rw [timerTick, if_neg hmc, if_neg hp, if_pos h]

theorem timerTick_count (hmc : t.mc ≠ 0b00#2) (hp : t.period ≠ 0)
    (h : t.tar.toNat + e < t.period) :
    timerTick e t = { t with tar := BitVec.ofNat 16 (t.tar.toNat + e) } := by
  rw [timerTick, if_neg hmc, if_neg hp, if_neg (Nat.not_le.mpr h)]

end

/-- The period fits 17 bits, so a count below it fits TAR (R296). -/
theorem period_le (t : Timer) : t.period ≤ 0x10000 := by
  unfold Timer.period
  split
  · exact Nat.le_refl _
  · exact t.taccr0.isLt.le

/-- Settles O33: one clause per branch of the tick; the overflow writes TAIFG alone in TACTL,
gated by TAIE. -/
theorem timerTickCountsAndOverflows : Obligations.TimerTickCountsAndOverflows := by
  intro e t mc p
  refine ⟨timerTick_idle, fun hmc hp h => ?_, fun hmc hp h => ?_⟩
  · have htick : timerTick e t = t.overflow (t.tar.toNat + e) := timerTick_overflow hmc hp h
    rw [htick]
    refine ⟨BitVec.toNat_ofNat .., rfl, rfl, ?_, fun k hk => ?_⟩
    · exact overflow_tactl_bit _ t 0
    · simp [overflow_tactl_bit, hk]
  · have htick := timerTick_count (t := t) hmc hp h
    have hfit : t.tar.toNat + e < 2 ^ 16 := h.trans_le (period_le t)
    rw [htick]
    exact ⟨(BitVec.toNat_ofNat ..).trans (Nat.mod_eq_of_lt hfit), rfl⟩

end Sys2Proof.Proofs
end

section
/-! PROOFS. The construction of the block by the host: what the two loads leave in memory
(`20_memory.md` R78, `70_reset_and_hazards.md` R340, R343, R344). -/

namespace Sys2Proof.Proofs

open Sys2Proof Sys2Proof.Machine

/-! ## The arguments a block is created for -/

theorem resetArgs_ok_iff (a : ResetArgs) :
    a.ok = true ↔ a.fwImage.length ≤ 0x4000 ∧ a.bootStub.length ≤ 0x400 ∧
      a.memInit.wf = true ∧ configOk a.cfg = true := by
  simp only [ResetArgs.ok, Bool.and_eq_true, decide_eq_true_eq, and_assoc]

theorem construct_of_not_ok {a : ResetArgs} (h : ¬ a.ok = true) : construct a = none := if_neg h

/-- U10 puts every mapped register below the stub's area. -/
theorem laneAt_of_bootBase_le {c : Config} (hc : configOk c = true) {b : Word}
    (hb : bootBase.toNat ≤ b.toNat) : laneAt c b = none := by
  rw [Option.eq_none_iff_forall_ne_some]
  intro l hl
  obtain ⟨-, hbelow⟩ := (Bool.and_eq_true _ _).mp hc
  have hlt : b.toNat < bootBase.toNat :=
    of_decide_eq_true (List.all_eq_true.mp hbelow _ (lookup_mem _ b l hl))
  omega

/-! ## Memory after the two loads -/

section
variable {a : ResetArgs} (hok : a.ok = true)
include hok

/-- Memory after the first load, the stub's. -/
theorem wf_loadCells_bootStub :
    (loadCells a.memInit bootBase.toNat a.bootStub).wf = true := by
  obtain ⟨-, hstub, hmem, -⟩ := (resetArgs_ok_iff a).mp hok
  have hbase : bootBase.toNat = 0x0C00 := rfl
  exact loadCells_wf _ _ _ (by omega) hmem

theorem fwBase_add_length_le : fwBase.toNat + a.fwImage.length ≤ 65536 := by
  obtain ⟨hfw, -⟩ := (resetArgs_ok_iff a).mp hok
  have hbase : fwBase.toNat = 0xC000 := rfl
  omega

/-- The stub's area ends below the firmware image. -/
theorem bootBase_add_length_le : bootBase.toNat + a.bootStub.length ≤ fwBase.toNat := by
  obtain ⟨-, hstub, -⟩ := (resetArgs_ok_iff a).mp hok
  have hboot : bootBase.toNat = 0x0C00 := rfl
  have hfw : fwBase.toNat = 0xC000 := rfl
  omega

theorem wf_loadedMemory : (loadedMemory a).wf = true :=
  loadCells_wf _ _ _ (fwBase_add_length_le hok) (wf_loadCells_bootStub hok)

theorem readCell_loadedMemory_fwImage {k : Nat} (hk : k < a.fwImage.length) :
    readCell (loadedMemory a) (fwBase.toNat + k) = a.fwImage[k] :=
  readCell_loadCells_inside _ _ _ k (fwBase_add_length_le hok) (wf_loadCells_bootStub hok) hk

/-- The second load stands above the stub and leaves it alone. -/
theorem readCell_loadedMemory_bootStub {k : Nat} (hk : k < a.bootStub.length) :
    readCell (loadedMemory a) (bootBase.toNat + k) = a.bootStub[k] := by
  obtain ⟨-, -, hmem, -⟩ := (resetArgs_ok_iff a).mp hok
  have hbelow := bootBase_add_length_le hok
  have hfit := fwBase_add_length_le hok
  rw [loadedMemory, readCell_loadCells_outside _ _ _ _ (Or.inl (by omega))]
  exact readCell_loadCells_inside _ _ _ k (by omega) hmem hk

end

theorem readCell_loadedMemory_outside {a : ResetArgs} {b : Nat}
    (hstub : b < bootBase.toNat ∨ bootBase.toNat + a.bootStub.length ≤ b)
    (hfw : b < fwBase.toNat ∨ fwBase.toNat + a.fwImage.length ≤ b) :
    readCell (loadedMemory a) b = readCell a.memInit b := by
  rw [loadedMemory, readCell_loadCells_outside _ _ _ _ hfw,
    readCell_loadCells_outside _ _ _ _ hstub]

/-! ## The constructed block -/

/-- Settles O17: the two loads fit and keep `MEM_INIT`'s canonical form; the rest is reset's. -/
theorem constructedBlockMeetsTheInvariant : Obligations.ConstructedBlockMeetsTheInvariant := by
  intro a s h
  obtain ⟨hok, rfl⟩ := construct_eq_some h
  exact inv_resetWith _ _ _ _ (wf_loadedMemory hok)

/-- In a constructed block `ReadByte` of an address from 0x0C00 up that does not wrap reads the
loaded memory, since no register is mapped there. -/
theorem readByte_construct {a : ResetArgs} {s : State} (h : construct a = some s) {base : Word}
    {k : Nat} (hbase : bootBase.toNat ≤ base.toNat) (hfit : base.toNat + k < 65536) :
    readByte (base + BitVec.ofNat 16 k) s = readCell (loadedMemory a) (base.toNat + k) := by
  obtain ⟨hok, rfl⟩ := construct_eq_some h
  obtain ⟨-, -, -, hcfg⟩ := (resetArgs_ok_iff a).mp hok
  have hsum : (base + BitVec.ofNat 16 k).toNat = base.toNat + k := by
    rw [BitVec.toNat_add, BitVec.toNat_ofNat]
    omega
  have hnone : laneAt a.cfg (base + BitVec.ofNat 16 k) = none :=
    laneAt_of_bootBase_le hcfg (by omega)
  rw [readByte_unmapped _ _ hnone, hsum]
  rfl

/-- Settles O25: each image is read back from its own load, the other load and the mapped registers
stand elsewhere; the load of a longer image fails (R343). -/
theorem imagesStandAtTheirAddresses : Obligations.ImagesStandAtTheirAddresses := by
  refine fun a => ⟨fun s h => ?_, fun hlong => construct_of_not_ok fun hok => ?_⟩
  · obtain ⟨hok, hs⟩ := construct_eq_some h
    have hbelow := bootBase_add_length_le hok
    have hfit := fwBase_add_length_le hok
    refine ⟨fun k hk => ?_, fun k hk => ?_, fun b hstub hfw => ?_⟩
    · exact (readByte_construct h (base := fwBase) (by decide) (by omega)).trans
        (readCell_loadedMemory_fwImage hok hk)
    · exact (readByte_construct h (base := bootBase) le_rfl (by omega)).trans
        (readCell_loadedMemory_bootStub hok hk)
    · rw [hs]
      exact readCell_loadedMemory_outside hstub hfw
  · obtain ⟨hfw, -⟩ := (resetArgs_ok_iff a).mp hok
    omega

end Sys2Proof.Proofs
end
